-- ==== Sys2Proof/Word.lean ====
section
/-! DEFINITION. The machine's words: 64-bit registers and addresses (R6, R10), 8-bit bytes, and the
32-bit instruction word (R101). -/

namespace Sys2Proof

/-- A register value, an address or a memory datum: 64 bits, XLEN of R6 and R10. `+`, `-` and `*`
on it are modulo 2^64. -/
abbrev Word := BitVec 64

/-- One byte of a device's buffer (R35). -/
abbrev Byte := BitVec 8

/-- One instruction word, the decoder's `u32` (R101). -/
abbrev IWord := BitVec 32

end Sys2Proof
end

