-- ==== Sys2Proof/Syntax.lean ====
section
/-! DEFINITION. The instructions as syntax (R100): one constructor per row of opcode_table.json, with
the operand fields of its format's record and nothing else (D30). `UNDEF` is not an instruction of
the table: it is the decoder's other result (`Decoded.undef` of Decode.lean). -/

namespace Sys2Proof

/-- A register index, 0 to 31 (R100: `Fin 32`). -/
abbrev RegIdx := Fin 32

/-- A decoded instruction (R100, R110). I, S, B and J immediates are two's-complement values held at
64 bits and the U immediate is the unsigned 20-bit field (R109); which values the encoding admits is
WellFormed.lean's matter. -/
inductive Instr where
  -- Integer register-register (R160 to R175): R-type.
  | add (rd rs1 rs2 : RegIdx)
  | sub (rd rs1 rs2 : RegIdx)
  | sll (rd rs1 rs2 : RegIdx)
  | slt (rd rs1 rs2 : RegIdx)
  | sltu (rd rs1 rs2 : RegIdx)
  | xor (rd rs1 rs2 : RegIdx)
  | srl (rd rs1 rs2 : RegIdx)
  | sra (rd rs1 rs2 : RegIdx)
  | or (rd rs1 rs2 : RegIdx)
  | and (rd rs1 rs2 : RegIdx)
  | addw (rd rs1 rs2 : RegIdx)
  | subw (rd rs1 rs2 : RegIdx)
  | sllw (rd rs1 rs2 : RegIdx)
  | srlw (rd rs1 rs2 : RegIdx)
  | sraw (rd rs1 rs2 : RegIdx)
  -- Integer register-immediate (R200 to R213): I-type.
  | addi (rd rs1 : RegIdx) (imm : Word)
  | slti (rd rs1 : RegIdx) (imm : Word)
  | sltiu (rd rs1 : RegIdx) (imm : Word)
  | xori (rd rs1 : RegIdx) (imm : Word)
  | ori (rd rs1 : RegIdx) (imm : Word)
  | andi (rd rs1 : RegIdx) (imm : Word)
  | slli (rd rs1 : RegIdx) (imm : Word)
  | srli (rd rs1 : RegIdx) (imm : Word)
  | srai (rd rs1 : RegIdx) (imm : Word)
  | addiw (rd rs1 : RegIdx) (imm : Word)
  | slliw (rd rs1 : RegIdx) (imm : Word)
  | srliw (rd rs1 : RegIdx) (imm : Word)
  | sraiw (rd rs1 : RegIdx) (imm : Word)
  -- Loads (I-type) and stores (S-type) (R240 to R251).
  | lb (rd rs1 : RegIdx) (imm : Word)
  | lh (rd rs1 : RegIdx) (imm : Word)
  | lw (rd rs1 : RegIdx) (imm : Word)
  | ld (rd rs1 : RegIdx) (imm : Word)
  | lbu (rd rs1 : RegIdx) (imm : Word)
  | lhu (rd rs1 : RegIdx) (imm : Word)
  | lwu (rd rs1 : RegIdx) (imm : Word)
  | sb (rs1 rs2 : RegIdx) (imm : Word)
  | sh (rs1 rs2 : RegIdx) (imm : Word)
  | sw (rs1 rs2 : RegIdx) (imm : Word)
  | sd (rs1 rs2 : RegIdx) (imm : Word)
  -- Branches (B-type) and jumps (R270 to R278).
  | beq (rs1 rs2 : RegIdx) (imm : Word)
  | bne (rs1 rs2 : RegIdx) (imm : Word)
  | blt (rs1 rs2 : RegIdx) (imm : Word)
  | bge (rs1 rs2 : RegIdx) (imm : Word)
  | bltu (rs1 rs2 : RegIdx) (imm : Word)
  | bgeu (rs1 rs2 : RegIdx) (imm : Word)
  | jal (rd : RegIdx) (imm : Word)
  | jalr (rd rs1 : RegIdx) (imm : Word)
  -- Upper immediates (R290 to R292): U-type, the immediate unshifted.
  | lui (rd : RegIdx) (imm : BitVec 20)
  | auipc (rd : RegIdx) (imm : BitVec 20)
  -- System (R300 to R302): I-type, rd and rs1 kept though nothing reads them (R115).
  | ecall (rd rs1 : RegIdx) (imm : Word)
  | ebreak (rd rs1 : RegIdx) (imm : Word)
  -- Multiply and divide (R310 to R323): R-type.
  | mul (rd rs1 rs2 : RegIdx)
  | mulh (rd rs1 rs2 : RegIdx)
  | mulhsu (rd rs1 rs2 : RegIdx)
  | mulhu (rd rs1 rs2 : RegIdx)
  | div (rd rs1 rs2 : RegIdx)
  | divu (rd rs1 rs2 : RegIdx)
  | rem (rd rs1 rs2 : RegIdx)
  | remu (rd rs1 rs2 : RegIdx)
  | mulw (rd rs1 rs2 : RegIdx)
  | divw (rd rs1 rs2 : RegIdx)
  | divuw (rd rs1 rs2 : RegIdx)
  | remw (rd rs1 rs2 : RegIdx)
  | remuw (rd rs1 rs2 : RegIdx)
  deriving DecidableEq, Repr

end Sys2Proof
end

