-- ==== Sys2Proof/WellFormed.lean ====
section
/-! DEFINITION. Which instructions of the syntax a word can stand for (R100's ranges): register
indices are in range by their type, so only the immediates are checked. -/

namespace Sys2Proof

/-- `imm` is the sign extension of its low `n` bits (R104, R105: `n = 12`, so [-2048, 2047]). -/
def immFits (n : Nat) (imm : Word) : Bool :=
  (imm.setWidth n).signExtend 64 == imm

/-- An `n`-bit offset whose bit 0 is forced to 0 (R106: `n = 13`; R108: `n = 21`). -/
def immFitsEven (n : Nat) (imm : Word) : Bool :=
  immFits n imm && !imm.getLsbD 0

/-- A shift immediate: `imm[11:5]` is the predicate's literal and `imm[4:0]` the shift amount (R114,
R200); `tag` is 0 for a logical shift and 0x400 for an arithmetic right shift (R209). -/
def immFitsShift (tag : Nat) (imm : Word) : Bool :=
  decide (tag ≤ imm.toNat) && decide (imm.toNat < tag + 32)

/-- The instruction is one that a 32-bit word encodes (R100, R114, R115). -/
def Instr.wf : Instr → Bool
  | .add _ _ _ => true
  | .sub _ _ _ => true
  | .sll _ _ _ => true
  | .slt _ _ _ => true
  | .sltu _ _ _ => true
  | .xor _ _ _ => true
  | .srl _ _ _ => true
  | .sra _ _ _ => true
  | .or _ _ _ => true
  | .and _ _ _ => true
  | .addw _ _ _ => true
  | .subw _ _ _ => true
  | .sllw _ _ _ => true
  | .srlw _ _ _ => true
  | .sraw _ _ _ => true
  | .addi _ _ imm => immFits 12 imm
  | .slti _ _ imm => immFits 12 imm
  | .sltiu _ _ imm => immFits 12 imm
  | .xori _ _ imm => immFits 12 imm
  | .ori _ _ imm => immFits 12 imm
  | .andi _ _ imm => immFits 12 imm
  | .slli _ _ imm => immFitsShift 0 imm
  | .srli _ _ imm => immFitsShift 0 imm
  | .srai _ _ imm => immFitsShift 0x400 imm
  | .addiw _ _ imm => immFits 12 imm
  | .slliw _ _ imm => immFitsShift 0 imm
  | .srliw _ _ imm => immFitsShift 0 imm
  | .sraiw _ _ imm => immFitsShift 0x400 imm
  | .lb _ _ imm => immFits 12 imm
  | .lh _ _ imm => immFits 12 imm
  | .lw _ _ imm => immFits 12 imm
  | .ld _ _ imm => immFits 12 imm
  | .lbu _ _ imm => immFits 12 imm
  | .lhu _ _ imm => immFits 12 imm
  | .lwu _ _ imm => immFits 12 imm
  | .sb _ _ imm => immFits 12 imm
  | .sh _ _ imm => immFits 12 imm
  | .sw _ _ imm => immFits 12 imm
  | .sd _ _ imm => immFits 12 imm
  | .beq _ _ imm => immFitsEven 13 imm
  | .bne _ _ imm => immFitsEven 13 imm
  | .blt _ _ imm => immFitsEven 13 imm
  | .bge _ _ imm => immFitsEven 13 imm
  | .bltu _ _ imm => immFitsEven 13 imm
  | .bgeu _ _ imm => immFitsEven 13 imm
  | .jal _ imm => immFitsEven 21 imm
  | .jalr _ _ imm => immFits 12 imm
  | .lui _ _ => true
  | .auipc _ _ => true
  | .ecall _ _ imm => imm == 0
  | .ebreak _ _ imm => imm == 1
  | .mul _ _ _ => true
  | .mulh _ _ _ => true
  | .mulhsu _ _ _ => true
  | .mulhu _ _ _ => true
  | .div _ _ _ => true
  | .divu _ _ _ => true
  | .rem _ _ _ => true
  | .remu _ _ _ => true
  | .mulw _ _ _ => true
  | .divw _ _ _ => true
  | .divuw _ _ _ => true
  | .remw _ _ _ => true
  | .remuw _ _ _ => true

end Sys2Proof
end

