-- ==== Sys2Proof/Decode.lean ====
section
/-! DEFINITION. The decoder (30_encoding.md): fields, immediates, the pattern table of R118, the scan
of R112; and the encoder, written from the same table. -/

namespace Sys2Proof

/-! ### Fields (R102) -/

def opcodeOf (w : IWord) : BitVec 7 := w.extractLsb' 0 7
def funct3Of (w : IWord) : BitVec 3 := w.extractLsb' 12 3
def funct7Of (w : IWord) : BitVec 7 := w.extractLsb' 25 7

/-- A 5-bit register field as an index (R101). -/
def regOfBits (b : BitVec 5) : RegIdx := ⟨b.toNat, b.isLt⟩

/-- The 5-bit register field of an index. -/
def bitsOfReg (r : RegIdx) : BitVec 5 := BitVec.ofNat 5 r.val

def rdOf (w : IWord) : RegIdx := regOfBits (w.extractLsb' 7 5)
def rs1Of (w : IWord) : RegIdx := regOfBits (w.extractLsb' 15 5)
def rs2Of (w : IWord) : RegIdx := regOfBits (w.extractLsb' 20 5)

/-! ### Immediates (R104 to R109) -/

/-- `sext_12(word[31:20])` (R104). -/
def immIOf (w : IWord) : Word := (w.extractLsb' 20 12).signExtend 64

/-- The 12 bits `{word[31:25], word[11:7]}` of R105. -/
def immSBits (w : IWord) : BitVec 12 := w.extractLsb' 25 7 ++ w.extractLsb' 7 5

/-- `sext_12` of `immSBits` (R105). -/
def immSOf (w : IWord) : Word := (immSBits w).signExtend 64

/-- The 13 bits `{word[31], word[7], word[30:25], word[11:8], 0}` of R106. -/
def immBBits (w : IWord) : BitVec 13 :=
  w.extractLsb' 31 1 ++ w.extractLsb' 7 1 ++ w.extractLsb' 25 6 ++ w.extractLsb' 8 4 ++ 0#1

/-- `sext_13` of `immBBits` (R106, C4). -/
def immBOf (w : IWord) : Word := (immBBits w).signExtend 64

/-- `word[31:12]`, not shifted and not sign-extended (R107). -/
def immUOf (w : IWord) : BitVec 20 := w.extractLsb' 12 20

/-- The 21 bits `{word[31], word[19:12], word[20], word[30:21], 0}` of R108. -/
def immJBits (w : IWord) : BitVec 21 :=
  w.extractLsb' 31 1 ++ w.extractLsb' 12 8 ++ w.extractLsb' 20 1 ++ w.extractLsb' 21 10 ++ 0#1

/-- `sext_21` of `immJBits` (R108). -/
def immJOf (w : IWord) : Word := (immJBits w).signExtend 64

/-! ### Patterns (R110, R111) -/

/-- The optional predicate of an I-type pattern over the parsed immediate: `imm[11:5]` equals a
literal (R114), or `imm` equals a literal (R115). -/
inductive Predicate where
  | upperSeven (v : BitVec 7)
  | equals (v : BitVec 12)
  deriving DecidableEq, Repr

/-- A pattern: a format, its discriminant and its constructor (R110). The format is the constructor of
this type. -/
inductive Pattern where
  | r (opcode : BitVec 7) (funct3 : BitVec 3) (funct7 : BitVec 7)
      (ctor : RegIdx → RegIdx → RegIdx → Instr)
  | i (opcode : BitVec 7) (funct3 : BitVec 3) (predicate : Option Predicate)
      (ctor : RegIdx → RegIdx → Word → Instr)
  | s (opcode : BitVec 7) (funct3 : BitVec 3) (ctor : RegIdx → RegIdx → Word → Instr)
  | b (opcode : BitVec 7) (funct3 : BitVec 3) (ctor : RegIdx → RegIdx → Word → Instr)
  | u (opcode : BitVec 7) (ctor : RegIdx → BitVec 20 → Instr)
  | j (opcode : BitVec 7) (ctor : RegIdx → Word → Instr)

/-- The predicate holds on a parsed immediate (R114, R115). -/
def Predicate.holds (p : Predicate) (imm : Word) : Bool :=
  match p with
  | .upperSeven v => imm.extractLsb' 5 7 == v
  | .equals v => imm == v.setWidth 64

/-- A pattern matches a word (R111). Fields outside the discriminant are not compared. -/
def Pattern.isMatch (p : Pattern) (w : IWord) : Bool :=
  match p with
  | .r op f3 f7 _ => opcodeOf w == op && funct3Of w == f3 && funct7Of w == f7
  | .i op f3 none _ => opcodeOf w == op && funct3Of w == f3
  | .i op f3 (some q) _ => opcodeOf w == op && funct3Of w == f3 && q.holds (immIOf w)
  | .s op f3 _ => opcodeOf w == op && funct3Of w == f3
  | .b op f3 _ => opcodeOf w == op && funct3Of w == f3
  | .u op _ => opcodeOf w == op
  | .j op _ => opcodeOf w == op

/-- The tagged instruction a pattern builds from a word it matches: the format's parser (R103 to R108)
and then the pattern's constructor. -/
def Pattern.parse (p : Pattern) (w : IWord) : Instr :=
  match p with
  | .r _ _ _ c => c (rdOf w) (rs1Of w) (rs2Of w)
  | .i _ _ _ c => c (rdOf w) (rs1Of w) (immIOf w)
  | .s _ _ c => c (rs1Of w) (rs2Of w) (immSOf w)
  | .b _ _ c => c (rs1Of w) (rs2Of w) (immBOf w)
  | .u _ c => c (rdOf w) (immUOf w)
  | .j _ c => c (rdOf w) (immJOf w)

/-- The mask of the pattern's one mask compare (R113). -/
def Pattern.mask (p : Pattern) : IWord :=
  match p with
  | .r _ _ _ _ => 0xFE00707F#32
  | .i _ _ none _ => 0x0000707F#32
  | .i _ _ (some (.upperSeven _)) _ => 0xFE00707F#32
  | .i _ _ (some (.equals _)) _ => 0xFFF0707F#32
  | .s _ _ _ => 0x0000707F#32
  | .b _ _ _ => 0x0000707F#32
  | .u _ _ => 0x0000007F#32
  | .j _ _ => 0x0000007F#32

/-- The value the masked word is compared with (R113): the discriminant's bits at their places. -/
def Pattern.value (p : Pattern) : IWord :=
  match p with
  | .r op f3 f7 _ => f7 ++ 0#10 ++ f3 ++ 0#5 ++ op
  | .i op f3 none _ => 0#17 ++ f3 ++ 0#5 ++ op
  | .i op f3 (some (.upperSeven v)) _ => v ++ 0#10 ++ f3 ++ 0#5 ++ op
  | .i op f3 (some (.equals v)) _ => v ++ 0#5 ++ f3 ++ 0#5 ++ op
  | .s op f3 _ => 0#17 ++ f3 ++ 0#5 ++ op
  | .b op f3 _ => 0#17 ++ f3 ++ 0#5 ++ op
  | .u op _ => 0#25 ++ op
  | .j op _ => 0#25 ++ op

/-! ### The pattern table (R118), in the order of opcode_table.json -/

/-- Rows of R118 with the rules R161 to R175. -/
def integerRegisterPatterns : List Pattern := [
  .r 0b0110011#7 0b000#3 0b0000000#7 .add,
  .r 0b0110011#7 0b000#3 0b0100000#7 .sub,
  .r 0b0110011#7 0b001#3 0b0000000#7 .sll,
  .r 0b0110011#7 0b010#3 0b0000000#7 .slt,
  .r 0b0110011#7 0b011#3 0b0000000#7 .sltu,
  .r 0b0110011#7 0b100#3 0b0000000#7 .xor,
  .r 0b0110011#7 0b101#3 0b0000000#7 .srl,
  .r 0b0110011#7 0b101#3 0b0100000#7 .sra,
  .r 0b0110011#7 0b110#3 0b0000000#7 .or,
  .r 0b0110011#7 0b111#3 0b0000000#7 .and,
  .r 0b0111011#7 0b000#3 0b0000000#7 .addw,
  .r 0b0111011#7 0b000#3 0b0100000#7 .subw,
  .r 0b0111011#7 0b001#3 0b0000000#7 .sllw,
  .r 0b0111011#7 0b101#3 0b0000000#7 .srlw,
  .r 0b0111011#7 0b101#3 0b0100000#7 .sraw]

/-- Rows of R118 with the rules R201 to R213. -/
def integerImmediatePatterns : List Pattern := [
  .i 0b0010011#7 0b000#3 none .addi,
  .i 0b0010011#7 0b010#3 none .slti,
  .i 0b0010011#7 0b011#3 none .sltiu,
  .i 0b0010011#7 0b100#3 none .xori,
  .i 0b0010011#7 0b110#3 none .ori,
  .i 0b0010011#7 0b111#3 none .andi,
  .i 0b0010011#7 0b001#3 (some (.upperSeven 0b0000000#7)) .slli,
  .i 0b0010011#7 0b101#3 (some (.upperSeven 0b0000000#7)) .srli,
  .i 0b0010011#7 0b101#3 (some (.upperSeven 0b0100000#7)) .srai,
  .i 0b0011011#7 0b000#3 none .addiw,
  .i 0b0011011#7 0b001#3 (some (.upperSeven 0b0000000#7)) .slliw,
  .i 0b0011011#7 0b101#3 (some (.upperSeven 0b0000000#7)) .srliw,
  .i 0b0011011#7 0b101#3 (some (.upperSeven 0b0100000#7)) .sraiw]

/-- Rows of R118 with the rules R241 to R251. -/
def loadStorePatterns : List Pattern := [
  .i 0b0000011#7 0b000#3 none .lb,
  .i 0b0000011#7 0b001#3 none .lh,
  .i 0b0000011#7 0b010#3 none .lw,
  .i 0b0000011#7 0b011#3 none .ld,
  .i 0b0000011#7 0b100#3 none .lbu,
  .i 0b0000011#7 0b101#3 none .lhu,
  .i 0b0000011#7 0b110#3 none .lwu,
  .s 0b0100011#7 0b000#3 .sb,
  .s 0b0100011#7 0b001#3 .sh,
  .s 0b0100011#7 0b010#3 .sw,
  .s 0b0100011#7 0b011#3 .sd]

/-- Rows of R118 with the rules R271 to R278. -/
def controlTransferPatterns : List Pattern := [
  .b 0b1100011#7 0b000#3 .beq,
  .b 0b1100011#7 0b001#3 .bne,
  .b 0b1100011#7 0b100#3 .blt,
  .b 0b1100011#7 0b101#3 .bge,
  .b 0b1100011#7 0b110#3 .bltu,
  .b 0b1100011#7 0b111#3 .bgeu,
  .j 0b1101111#7 .jal,
  .i 0b1100111#7 0b000#3 none .jalr]

/-- Rows of R118 with the rules R291 and R292. -/
def upperImmediatePatterns : List Pattern := [
  .u 0b0110111#7 .lui,
  .u 0b0010111#7 .auipc]

/-- Rows of R118 with the rules R301 and R302. -/
def systemPatterns : List Pattern := [
  .i 0b1110011#7 0b000#3 (some (.equals 0x0#12)) .ecall,
  .i 0b1110011#7 0b000#3 (some (.equals 0x1#12)) .ebreak]

/-- Rows of R118 with the rules R311 to R323. -/
def multiplyDividePatterns : List Pattern := [
  .r 0b0110011#7 0b000#3 0b0000001#7 .mul,
  .r 0b0110011#7 0b001#3 0b0000001#7 .mulh,
  .r 0b0110011#7 0b010#3 0b0000001#7 .mulhsu,
  .r 0b0110011#7 0b011#3 0b0000001#7 .mulhu,
  .r 0b0110011#7 0b100#3 0b0000001#7 .div,
  .r 0b0110011#7 0b101#3 0b0000001#7 .divu,
  .r 0b0110011#7 0b110#3 0b0000001#7 .rem,
  .r 0b0110011#7 0b111#3 0b0000001#7 .remu,
  .r 0b0111011#7 0b000#3 0b0000001#7 .mulw,
  .r 0b0111011#7 0b100#3 0b0000001#7 .divw,
  .r 0b0111011#7 0b101#3 0b0000001#7 .divuw,
  .r 0b0111011#7 0b110#3 0b0000001#7 .remw,
  .r 0b0111011#7 0b111#3 0b0000001#7 .remuw]

/-- The decoder's pattern table (R110, R118): a constant, not state (R37). -/
def patterns : List Pattern :=
  integerRegisterPatterns ++ integerImmediatePatterns ++ loadStorePatterns ++
    controlTransferPatterns ++ upperImmediatePatterns ++ systemPatterns ++ multiplyDividePatterns

/-! ### Dispatch (R112) -/

/-- The decoder's result (R100, R112): a tagged instruction, or the sentinel `UNDEF`, which carries
nothing (D30). -/
inductive Decoded where
  | instruction (i : Instr)
  | undef
  deriving DecidableEq, Repr

/-- The first pattern of the list that matches, or `UNDEF` (R112). -/
def decodeWith : List Pattern → IWord → Decoded
  | [], _ => .undef
  | p :: ps, w => if p.isMatch w then .instruction (p.parse w) else decodeWith ps w

/-- The decoder (R112): total, reads and writes no state, never fails. -/
def decode (w : IWord) : Decoded := decodeWith patterns w

/-! ### Uniqueness (R116) -/

/-- The two rows' match values differ on a bit that both masks cover (R116). -/
def Pattern.clash (p q : Pattern) : Bool := p.mask &&& q.mask &&& (p.value ^^^ q.value) != 0#32

/-- R116's check of a table, made pairwise on (match, mask): every two rows clash, so no word matches both. That
the table passes it, and that the scan may then be made in any order, is stated as `NoWordMatchesTwoPatterns`. -/
def allClash : List Pattern → Bool
  | [] => true
  | p :: rest => rest.all p.clash && allClash rest

/-! ### Bytes -/

/-- Four bytes, the first at the lowest address, as a word: little-endian (R60, R141). -/
def wordOfBytes (b0 b1 b2 b3 : Byte) : IWord := b3 ++ b2 ++ b1 ++ b0

/-- The four bytes of a word, the byte for the lowest address first (R60). -/
def bytesOfWord (w : IWord) : List Byte :=
  [w.extractLsb' 0 8, w.extractLsb' 8 8, w.extractLsb' 16 8, w.extractLsb' 24 8]

/-- Decodes the first instruction of a byte sequence and gives the bytes after it; `none` when fewer
than the four bytes every instruction takes (R101) are there. -/
def decodeBytes : List Byte → Option (Decoded × List Byte)
  | b0 :: b1 :: b2 :: b3 :: rest => some (decode (wordOfBytes b0 b1 b2 b3), rest)
  | _ => none

/-- What the decoder reads from the bytes of a word numbered as opcode_table.json numbers it: `w` cut
to `nbits` bits, laid out little-endian and decoded. -/
def decodeTableWord (nbits w : Nat) : Option Instr :=
  match decodeBytes (bytesOfWord (BitVec.ofNat 32 (w % 2 ^ nbits))) with
  | some (.instruction i, _) => some i
  | _ => none

/-! ### The encoder -/

/-- R-type layout (R103). -/
def encodeR (op : BitVec 7) (f3 : BitVec 3) (f7 : BitVec 7) (rd rs1 rs2 : RegIdx) : IWord :=
  f7 ++ bitsOfReg rs2 ++ bitsOfReg rs1 ++ f3 ++ bitsOfReg rd ++ op

/-- I-type layout (R104): the low 12 bits of the immediate. -/
def encodeI (op : BitVec 7) (f3 : BitVec 3) (rd rs1 : RegIdx) (imm : Word) : IWord :=
  imm.extractLsb' 0 12 ++ bitsOfReg rs1 ++ f3 ++ bitsOfReg rd ++ op

/-- S-type layout (R105). -/
def encodeS (op : BitVec 7) (f3 : BitVec 3) (rs1 rs2 : RegIdx) (imm : Word) : IWord :=
  imm.extractLsb' 5 7 ++ bitsOfReg rs2 ++ bitsOfReg rs1 ++ f3 ++ imm.extractLsb' 0 5 ++ op

/-- B-type layout (R106). -/
def encodeB (op : BitVec 7) (f3 : BitVec 3) (rs1 rs2 : RegIdx) (imm : Word) : IWord :=
  imm.extractLsb' 12 1 ++ imm.extractLsb' 5 6 ++ bitsOfReg rs2 ++ bitsOfReg rs1 ++ f3 ++
    imm.extractLsb' 1 4 ++ imm.extractLsb' 11 1 ++ op

/-- U-type layout (R107). -/
def encodeU (op : BitVec 7) (rd : RegIdx) (imm : BitVec 20) : IWord :=
  imm ++ bitsOfReg rd ++ op

/-- J-type layout (R108). -/
def encodeJ (op : BitVec 7) (rd : RegIdx) (imm : Word) : IWord :=
  imm.extractLsb' 20 1 ++ imm.extractLsb' 1 10 ++ imm.extractLsb' 11 1 ++ imm.extractLsb' 12 8 ++
    bitsOfReg rd ++ op

/-- The word of a well-formed instruction (R118). -/
def encode : Instr → IWord
  | .add rd rs1 rs2 => encodeR 0b0110011#7 0b000#3 0b0000000#7 rd rs1 rs2
  | .sub rd rs1 rs2 => encodeR 0b0110011#7 0b000#3 0b0100000#7 rd rs1 rs2
  | .sll rd rs1 rs2 => encodeR 0b0110011#7 0b001#3 0b0000000#7 rd rs1 rs2
  | .slt rd rs1 rs2 => encodeR 0b0110011#7 0b010#3 0b0000000#7 rd rs1 rs2
  | .sltu rd rs1 rs2 => encodeR 0b0110011#7 0b011#3 0b0000000#7 rd rs1 rs2
  | .xor rd rs1 rs2 => encodeR 0b0110011#7 0b100#3 0b0000000#7 rd rs1 rs2
  | .srl rd rs1 rs2 => encodeR 0b0110011#7 0b101#3 0b0000000#7 rd rs1 rs2
  | .sra rd rs1 rs2 => encodeR 0b0110011#7 0b101#3 0b0100000#7 rd rs1 rs2
  | .or rd rs1 rs2 => encodeR 0b0110011#7 0b110#3 0b0000000#7 rd rs1 rs2
  | .and rd rs1 rs2 => encodeR 0b0110011#7 0b111#3 0b0000000#7 rd rs1 rs2
  | .addw rd rs1 rs2 => encodeR 0b0111011#7 0b000#3 0b0000000#7 rd rs1 rs2
  | .subw rd rs1 rs2 => encodeR 0b0111011#7 0b000#3 0b0100000#7 rd rs1 rs2
  | .sllw rd rs1 rs2 => encodeR 0b0111011#7 0b001#3 0b0000000#7 rd rs1 rs2
  | .srlw rd rs1 rs2 => encodeR 0b0111011#7 0b101#3 0b0000000#7 rd rs1 rs2
  | .sraw rd rs1 rs2 => encodeR 0b0111011#7 0b101#3 0b0100000#7 rd rs1 rs2
  | .addi rd rs1 imm => encodeI 0b0010011#7 0b000#3 rd rs1 imm
  | .slti rd rs1 imm => encodeI 0b0010011#7 0b010#3 rd rs1 imm
  | .sltiu rd rs1 imm => encodeI 0b0010011#7 0b011#3 rd rs1 imm
  | .xori rd rs1 imm => encodeI 0b0010011#7 0b100#3 rd rs1 imm
  | .ori rd rs1 imm => encodeI 0b0010011#7 0b110#3 rd rs1 imm
  | .andi rd rs1 imm => encodeI 0b0010011#7 0b111#3 rd rs1 imm
  | .slli rd rs1 imm => encodeI 0b0010011#7 0b001#3 rd rs1 imm
  | .srli rd rs1 imm => encodeI 0b0010011#7 0b101#3 rd rs1 imm
  | .srai rd rs1 imm => encodeI 0b0010011#7 0b101#3 rd rs1 imm
  | .addiw rd rs1 imm => encodeI 0b0011011#7 0b000#3 rd rs1 imm
  | .slliw rd rs1 imm => encodeI 0b0011011#7 0b001#3 rd rs1 imm
  | .srliw rd rs1 imm => encodeI 0b0011011#7 0b101#3 rd rs1 imm
  | .sraiw rd rs1 imm => encodeI 0b0011011#7 0b101#3 rd rs1 imm
  | .lb rd rs1 imm => encodeI 0b0000011#7 0b000#3 rd rs1 imm
  | .lh rd rs1 imm => encodeI 0b0000011#7 0b001#3 rd rs1 imm
  | .lw rd rs1 imm => encodeI 0b0000011#7 0b010#3 rd rs1 imm
  | .ld rd rs1 imm => encodeI 0b0000011#7 0b011#3 rd rs1 imm
  | .lbu rd rs1 imm => encodeI 0b0000011#7 0b100#3 rd rs1 imm
  | .lhu rd rs1 imm => encodeI 0b0000011#7 0b101#3 rd rs1 imm
  | .lwu rd rs1 imm => encodeI 0b0000011#7 0b110#3 rd rs1 imm
  | .sb rs1 rs2 imm => encodeS 0b0100011#7 0b000#3 rs1 rs2 imm
  | .sh rs1 rs2 imm => encodeS 0b0100011#7 0b001#3 rs1 rs2 imm
  | .sw rs1 rs2 imm => encodeS 0b0100011#7 0b010#3 rs1 rs2 imm
  | .sd rs1 rs2 imm => encodeS 0b0100011#7 0b011#3 rs1 rs2 imm
  | .beq rs1 rs2 imm => encodeB 0b1100011#7 0b000#3 rs1 rs2 imm
  | .bne rs1 rs2 imm => encodeB 0b1100011#7 0b001#3 rs1 rs2 imm
  | .blt rs1 rs2 imm => encodeB 0b1100011#7 0b100#3 rs1 rs2 imm
  | .bge rs1 rs2 imm => encodeB 0b1100011#7 0b101#3 rs1 rs2 imm
  | .bltu rs1 rs2 imm => encodeB 0b1100011#7 0b110#3 rs1 rs2 imm
  | .bgeu rs1 rs2 imm => encodeB 0b1100011#7 0b111#3 rs1 rs2 imm
  | .jal rd imm => encodeJ 0b1101111#7 rd imm
  | .jalr rd rs1 imm => encodeI 0b1100111#7 0b000#3 rd rs1 imm
  | .lui rd imm => encodeU 0b0110111#7 rd imm
  | .auipc rd imm => encodeU 0b0010111#7 rd imm
  | .ecall rd rs1 imm => encodeI 0b1110011#7 0b000#3 rd rs1 imm
  | .ebreak rd rs1 imm => encodeI 0b1110011#7 0b000#3 rd rs1 imm
  | .mul rd rs1 rs2 => encodeR 0b0110011#7 0b000#3 0b0000001#7 rd rs1 rs2
  | .mulh rd rs1 rs2 => encodeR 0b0110011#7 0b001#3 0b0000001#7 rd rs1 rs2
  | .mulhsu rd rs1 rs2 => encodeR 0b0110011#7 0b010#3 0b0000001#7 rd rs1 rs2
  | .mulhu rd rs1 rs2 => encodeR 0b0110011#7 0b011#3 0b0000001#7 rd rs1 rs2
  | .div rd rs1 rs2 => encodeR 0b0110011#7 0b100#3 0b0000001#7 rd rs1 rs2
  | .divu rd rs1 rs2 => encodeR 0b0110011#7 0b101#3 0b0000001#7 rd rs1 rs2
  | .rem rd rs1 rs2 => encodeR 0b0110011#7 0b110#3 0b0000001#7 rd rs1 rs2
  | .remu rd rs1 rs2 => encodeR 0b0110011#7 0b111#3 0b0000001#7 rd rs1 rs2
  | .mulw rd rs1 rs2 => encodeR 0b0111011#7 0b000#3 0b0000001#7 rd rs1 rs2
  | .divw rd rs1 rs2 => encodeR 0b0111011#7 0b100#3 0b0000001#7 rd rs1 rs2
  | .divuw rd rs1 rs2 => encodeR 0b0111011#7 0b101#3 0b0000001#7 rd rs1 rs2
  | .remw rd rs1 rs2 => encodeR 0b0111011#7 0b110#3 0b0000001#7 rd rs1 rs2
  | .remuw rd rs1 rs2 => encodeR 0b0111011#7 0b111#3 0b0000001#7 rd rs1 rs2

end Sys2Proof
end

