-- ==== Sys2Proof/Config.lean ====
section
/-! DEFINITION. What is fixed for a machine: the constants and the parameters of 00_scope.md R6.
Every parameter the spec gives two or more values is a field of `Params` with all its values; the
default of each is `Params.reference`. The spec leaves no value open at run time (R456), so there is
no free value here. -/

namespace Sys2Proof

/-- An access size (R50); no other size exists. -/
inductive AccessSize where
  | byte
  | halfWord
  | word
  | doubleWord
  deriving DecidableEq, Repr

/-- `XLEN`, the MMU's address-width mode (R33, D11). -/
inductive Xlen where
  | x32
  | x64
  deriving DecidableEq, Repr

/-- `ROM_SIZE` (R6, C2, D12): the default 0xE000 and the named alternative 0xF000. -/
inductive RomSize where
  | e000
  | f000
  deriving DecidableEq, Repr

/-- `FETCH_FAULT_POLICY` (R6, R142, D3). -/
inductive FetchFaultPolicy where
  | skip
  | halt
  deriving DecidableEq, Repr

/-- The construction parameters of R6 that a rule reads after construction. `XLEN` is the MMU's own
state (R33) and `RESET_PC` is the first pc (R451), so neither stands here. -/
structure Params where
  romSize             : RomSize
  /-- `DRAM_SIZE` (N), in bytes. -/
  dramSize            : Nat
  fetchFaultPolicy    : FetchFaultPolicy
  checkTargetAlign    : Bool
  imageLoadZeroesTail : Bool
  deriving DecidableEq, Repr

/-- `ROM_BASE` (R6, R67). -/
def Config.romBase : Nat := 0x1000

/-- `DRAM_BASE` (R6, R67, C8). -/
def Config.dramBase : Nat := 0x80000000

/-- The number of bytes a `RomSize` names (R6, D12). -/
def RomSize.bytes : RomSize → Nat
  | .e000 => 0xE000
  | .f000 => 0xF000

/-- The defaults of R6, with the reference configuration's 1 GiB of DRAM (D13). -/
def Params.reference : Params :=
  { romSize := .e000, dramSize := 0x40000000, fetchFaultPolicy := .skip, checkTargetAlign := true,
    imageLoadZeroesTail := true }

/-- The constraint R7 puts on the parameters: 1 <= N and DRAM_BASE + N + 8 <= 2^64. (The ROM and
DRAM ranges are disjoint for both values of `ROM_SIZE`, so that clause holds by itself.) -/
def Params.valid (p : Params) : Bool :=
  decide (1 ≤ p.dramSize) && decide (Config.dramBase + p.dramSize + 8 ≤ 18446744073709551616)

/-- The default `RESET_PC` (R451, D7): `DRAM_BASE`. -/
def Config.resetPc : Word := BitVec.ofNat 64 Config.dramBase

end Sys2Proof
end

