-- ==== Sys2Proof/Machine/State.lean ====
section
/-! DEFINITION. The machine's state (10_state.md R20), the traps (60_exceptions.md R400), how a step
can stop, and the state after reset (R39). Plain data. -/

namespace Sys2Proof.Machine

/-- The MMU's privilege mode (R32, R410, D10). -/
inductive Priv where
  | user
  | supervisor
  | machine
  deriving DecidableEq, Repr

/-- The trap kinds of R400, a closed enumeration. A trap carries its kind and nothing else (R402,
D21). The six that can be raised are those of R401. -/
inductive Trap where
  /-- A taken branch, JAL or JALR with a target that is not 4-aligned (R270). -/
  | instructionAddressMisaligned
  /-- Never raised: a failed fetch is `loadAccessFault` (R141). -/
  | instructionAccessFault
  /-- Executing `UNDEF` (R303). -/
  | illegalInstruction
  /-- EBREAK (R302). -/
  | breakpoint
  /-- Never raised (R62). -/
  | loadAddressMisaligned
  /-- A device read outside its window: every load and every fetch (R55). -/
  | loadAccessFault
  /-- Never raised (R62). -/
  | storeAMOAddressMisaligned
  /-- A DRAM write outside its window, or any ROM write (R56, R58). -/
  | storeAccessFault
  /-- Never raised: the mode is always Machine (R410). -/
  | environmentCallFromUMode
  /-- Never raised: the mode is always Machine (R410). -/
  | environmentCallFromSMode
  /-- ECALL (R301, D37). -/
  | environmentCallFromMMode
  /-- Never raised: no paging (R77). -/
  | instructionPageFault
  /-- Never raised: no paging (R77). -/
  | loadPageFault
  /-- Never raised: no paging (R77). -/
  | storeAMOPageFault
  /-- Never raised, like the eight after it: no interrupt exists (R404). -/
  | userSoftwareInterrupt
  | supervisorSoftwareInterrupt
  | machineSoftwareInterrupt
  | userTimerInterrupt
  | supervisorTimerInterrupt
  | machineTimerInterrupt
  | userExternalInterrupt
  | supervisorExternalInterrupt
  | machineExternalInterrupt
  deriving DecidableEq, Repr

/-- A register file (R21, R27): 31 stored slots; slot k is register k + 1, and register 0 is
synthesized. -/
structure RegFile where
  slots : Vector Word 31
  deriving DecidableEq, Repr

/-- The bytes of both device buffers by absolute address (R35): addresses strictly rising, no entry 0.
An address not listed reads as 0 (R39, D17). The ROM and DRAM ranges are disjoint (R7), so one list
holds both (log entry 3). -/
abbrev Memory := List Host.Cell

/-- The whole state (R20). `params` holds the construction parameters, which no step changes (log
entry 2); `mode` and `xlen` are the MMU's; `mem` and `dramImageLen` are the bus's. -/
structure State where
  params       : Params
  clock        : Word
  pc           : Word
  x            : RegFile
  f            : RegFile
  mode         : Priv
  xlen         : Xlen
  mem          : Memory
  dramImageLen : Word
  deriving DecidableEq, Repr

/-- How the machine stops. -/
inductive Fault where
  /-- The outcome `Trapped(t, s)` of R147, R150 and R406: the machine has stopped for good with trap
  `t`, and `s` is the state the cycle started with. Raised by `takeTrap` for a trap of execute, and by
  `step` for a fetch fault under the `Halt` policy (R142). It is the spec's own outcome for a trap
  (D2), so it is safe with respect to the spec; that the original software stops there is the spec's
  choice (log entry 1). -/
  | trapped (t : Trap) (s : State)
  deriving DecidableEq, Repr

/-- Why a step has no meaning (R13, R151). -/
inductive Refusal where
  /-- An instruction whose meaning is not written yet; raised by no arm of this model. Safe. -/
  | notModelled (mnemonic : String)
  /-- A register index of 32 or more (R24, R151(a)). Raised by the register contract of Ops.lean, by no
  instruction. Safe. -/
  | registerIndex (i : Nat)
  /-- A write buffer whose length is not the access size (R57, R151(b)). Raised by the device writes of
  Ops.lean, by no instruction. Safe. -/
  | writeArity
  /-- A translation in User or Supervisor mode (R76, R151(c)). Raised by every MMU access, so by a fetch,
  a load or a store, in those modes. Safe. -/
  | translationUnimplemented
  /-- An execute with `XLEN` = 32 (R144, R151(d)). Raised by `execute`. Safe. -/
  | executeXlen32
  /-- An image longer than its device (R64). Raised by the image loads of Boot.lean, by no step. Safe. -/
  | imageTooLong
  deriving DecidableEq, Repr

/-- The result of a fallible memory operation: `Ok(value)` or `Err(trap)` (R12), or a precondition the
model refuses (R13). -/
inductive Res (α : Type) where
  | ok (v : α)
  | err (t : Trap)
  | refuse (r : Refusal)
  deriving DecidableEq, Repr

/-- A register file that holds zero in every slot. -/
def RegFile.zero : RegFile := { slots := Vector.replicate 31 0#64 }

/-- The state after creation with the reference parameters, `XLEN` = 64, the default `RESET_PC` and no
image loaded (R39, R450, R451, R453). -/
def State.reset : State :=
  { params := Params.reference
    clock := 0#64
    pc := Config.resetPc
    x := RegFile.zero
    f := RegFile.zero
    mode := .machine
    xlen := .x64
    mem := []
    dramImageLen := 0#64 }

end Sys2Proof.Machine
end

