-- ==== Sys2Proof/Machine/Operands.lean ====
section
/-! DEFINITION. What instructions compute from their operands: widths and extensions (R10), shift
amounts (R160, R200), addresses and targets (R240, R270), the upper immediate (R290), and the
multiply and divide arithmetic (R310). -/

namespace Sys2Proof.Machine

/-! ### Widths (R10) -/

/-- The number of bytes of an access size (R50). -/
def sizeBytes : AccessSize → Nat
  | .byte => 1
  | .halfWord => 2
  | .word => 4
  | .doubleWord => 8

/-- `low32(v)`. -/
def low32 (v : Word) : BitVec 32 := v.extractLsb' 0 32

/-- `sext_n(v)`: the low `n` bits of `v`, sign-extended to 64. -/
def sextN (n : Nat) (v : Word) : Word := (v.setWidth n).signExtend 64

/-- `zext_n(v)`: the low `n` bits of `v`, zero-extended to 64. -/
def zextN (n : Nat) (v : Word) : Word := (v.setWidth n).setWidth 64

/-! ### Shift amounts -/

/-- `v[5:0]`, the amount of the 64-bit register shifts (R160). -/
def shamt6 (v : Word) : Nat := (v.extractLsb' 0 6).toNat

/-- `v[4:0]`, the amount of the W shifts (R160) and of every shift immediate (R200). -/
def shamt5 (v : Word) : Nat := (v.extractLsb' 0 5).toNat

/-! ### Addresses, targets and the upper immediate -/

/-- Base plus offset, the only addressing mode (R240). -/
def addressOf (base imm : Word) : Word := base + imm

/-- A branch's or JAL's target (R270). -/
def relativeTarget (pc imm : Word) : Word := pc + imm

/-- A JALR's target `(base + imm) & ~1` (R270, R278). -/
def indirectTarget (base imm : Word) : Word := (base + imm) &&& ~~~1#64

/-- `target[1:0] != 0` (R270). -/
def isMisaligned (target : Word) : Bool := target.extractLsb' 0 2 != 0#2

/-- `uimm = sext_32(imm << 12)` (R290). -/
def upperValue (imm : BitVec 20) : Word := sextN 32 (imm.setWidth 64 <<< 12)

/-! ### Integer views and division (R310) -/

/-- `S(v)`. -/
def viewS (v : Word) : Int := v.toInt

/-- `U(v)`. -/
def viewU (v : Word) : Int := (v.toNat : Int)

/-- `S32(v)`. -/
def viewS32 (v : Word) : Int := (sextN 32 v).toInt

/-- `U32(v)`. -/
def viewU32 (v : Word) : Int := ((zextN 32 v).toNat : Int)

/-- The integer quotient rounded toward zero. -/
def quot (a b : Int) : Int := Int.tdiv a b

/-- The remainder of `quot`; it has the dividend's sign. -/
def remInt (a b : Int) : Int := a - b * quot a b

/-- The high half of an exact product: its floor shift by 64, modulo 2^64 (R312 to R314). -/
def highHalf (product : Int) : Word := BitVec.ofInt 64 (product >>> (64 : Nat))

/-- An integer modulo 2^32, sign-extended: `sext_32(v mod 2^32)`. -/
def wordResult (v : Int) : Word := (BitVec.ofInt 32 v).signExtend 64

/-- The most negative 64-bit value. -/
def minSigned : Word := 0x8000000000000000#64

/-- All ones: -1 signed, 2^64 - 1 unsigned. -/
def allOnes : Word := 0xFFFFFFFFFFFFFFFF#64

/-- DIV's result (R315). -/
def divSigned (a b : Word) : Word :=
  if b = 0#64 then allOnes
  else if a = minSigned ∧ b = allOnes then minSigned
  else BitVec.ofInt 64 (quot (viewS a) (viewS b))

/-- DIVU's result (R316). -/
def divUnsigned (a b : Word) : Word :=
  if b = 0#64 then allOnes else BitVec.ofInt 64 (quot (viewU a) (viewU b))

/-- REM's result (R317). -/
def remSigned (a b : Word) : Word :=
  if b = 0#64 then a
  else if a = minSigned ∧ b = allOnes then 0#64
  else BitVec.ofInt 64 (remInt (viewS a) (viewS b))

/-- REMU's result (R318). -/
def remUnsigned (a b : Word) : Word :=
  if b = 0#64 then a else BitVec.ofInt 64 (remInt (viewU a) (viewU b))

/-- DIVW's result (R320). -/
def divSignedW (a b : Word) : Word :=
  if viewS32 b = 0 then allOnes
  else if viewS32 a = -2147483648 ∧ viewS32 b = -1 then 0xFFFFFFFF80000000#64
  else wordResult (quot (viewS32 a) (viewS32 b))

/-- DIVUW's result (R321). -/
def divUnsignedW (a b : Word) : Word :=
  if viewU32 b = 0 then allOnes else wordResult (quot (viewU32 a) (viewU32 b))

/-- REMW's result (R322). -/
def remSignedW (a b : Word) : Word :=
  if viewS32 b = 0 then sextN 32 a
  else if viewS32 a = -2147483648 ∧ viewS32 b = -1 then 0#64
  else wordResult (remInt (viewS32 a) (viewS32 b))

/-- REMUW's result (R323). -/
def remUnsignedW (a b : Word) : Word :=
  if viewU32 b = 0 then sextN 32 a else wordResult (remInt (viewU32 a) (viewU32 b))

end Sys2Proof.Machine
end

