-- ==== Sys2Proof/Machine/Flags.lean ====
section
/-! DEFINITION. The machine has no status flags and no condition codes (R30). What other machines put in
flags is here a truth value: the comparisons of R10, which the SLT family writes to a register and the
branches use to choose the next pc. -/

namespace Sys2Proof.Machine

/-- `a <s b` (R10). -/
def ltSigned (a b : Word) : Bool := decide (a.toInt < b.toInt)

/-- `a <u b` (R10). -/
def ltUnsigned (a b : Word) : Bool := decide (a.toNat < b.toNat)

/-- A comparison's register result: 1 or 0 (R164, R165, R202, R203). -/
def truthValue (c : Bool) : Word := if c then 1#64 else 0#64

end Sys2Proof.Machine
end

