-- ==== Sys2Proof/Machine/Ops.lean ====
section
/-! DEFINITION. The named operations over registers and memory: the register contract (R22 to R24), byte
memory, the devices (R52 to R59), the bus (R68 to R72), the MMU (R74 to R82), taking a trap (R147,
R406), and the ways an instruction completes (R145). -/

namespace Sys2Proof.Machine

/-! ### Register files (R22, R23, R24, R27) -/

/-- The slot of register k + 1 is k, so every index names a slot below 31. -/
theorem slotIndex_lt (i : RegIdx) : i.val - 1 < 31 := by omega

/-- `read(i)`: register 0 reads as zero (R22). -/
def RegFile.read (rf : RegFile) (i : RegIdx) : Word :=
  if i = 0 then 0#64 else rf.slots[i.val - 1]'(slotIndex_lt i)

/-- `write(i, v)`: a write to register 0 is discarded (R23). -/
def RegFile.write (rf : RegFile) (i : RegIdx) (v : Word) : RegFile :=
  if i = 0 then rf else { slots := rf.slots.set (i.val - 1) v (slotIndex_lt i) }

/-- The read contract for any index: 32 or more is refused (R24). -/
def RegFile.readAt (rf : RegFile) (i : Nat) : Res Word :=
  if h : i < 32 then .ok (rf.read ⟨i, h⟩) else .refuse (.registerIndex i)

/-- The write contract for any index: 32 or more is refused (R24). -/
def RegFile.writeAt (rf : RegFile) (i : Nat) (v : Word) : Res RegFile :=
  if h : i < 32 then .ok (rf.write ⟨i, h⟩ v) else .refuse (.registerIndex i)

/-- `x[i]` (R11). -/
def State.readX (s : State) (i : RegIdx) : Word := s.x.read i

/-- `x[i] <- v` (R11). -/
def State.writeX (s : State) (i : RegIdx) (v : Word) : State := { s with x := s.x.write i v }

/-- `f[i]` (R11, R27). -/
def State.readF (s : State) (i : RegIdx) : Word := s.f.read i

/-- `f[i] <- v` (R11, R27). -/
def State.writeF (s : State) (i : RegIdx) (v : Word) : State := { s with f := s.f.write i v }

/-! ### Byte memory -/

/-- The byte at an address; an address not listed reads as 0 (D17). -/
def Memory.readByte : Memory → Nat → Byte
  | [], _ => 0#8
  | (k, b) :: rest, a => if k = a then b else Memory.readByte rest a

/-- Puts a byte in front unless it is the byte an unlisted address reads as. -/
def Memory.consByte (a : Nat) (b : Byte) (m : Memory) : Memory := if b = 0#8 then m else (a, b) :: m

/-- Stores one byte and keeps the list's form: rising addresses, no entry 0. -/
def Memory.writeByte : Memory → Nat → Byte → Memory
  | [], a, b => Memory.consByte a b []
  | (k, c) :: rest, a, b =>
    if a < k then Memory.consByte a b ((k, c) :: rest)
    else if a = k then Memory.consByte a b rest
    else (k, c) :: Memory.writeByte rest a b

/-- Every listed address is above `lo` (above nothing for `none`), they rise, and no entry is 0. -/
def Memory.wfAbove : Option Nat → Memory → Bool
  | _, [] => true
  | lo, (k, b) :: rest =>
    (match lo with
      | none => true
      | some l => decide (l < k)) && (b != 0#8) && Memory.wfAbove (some k) rest

/-- The canonical form of memory. -/
def Memory.wf (m : Memory) : Bool := Memory.wfAbove none m

/-- `n` bytes from an address upward. -/
def Memory.readBytes (m : Memory) (a : Nat) : Nat → List Byte
  | 0 => []
  | n + 1 => m.readByte a :: Memory.readBytes m (a + 1) n

/-- Bytes stored from an address upward. -/
def Memory.writeBytes (m : Memory) (a : Nat) : List Byte → Memory
  | [] => m
  | b :: rest => Memory.writeBytes (m.writeByte a b) (a + 1) rest

/-- Every byte of [lo, hi) set to 0, which an unlisted address reads as. -/
def Memory.zeroRange (m : Memory) (lo hi : Nat) : Memory :=
  m.filter fun c => !(decide (lo ≤ c.1) && decide (c.1 < hi))

/-- Little-endian assembly, zero-extended to 64 bits (R55, R60, D35): byte i contributes
`byte << (8*i)`. -/
def assemble : List Byte → Word
  | [] => 0#64
  | b :: rest => b.setWidth 64 ||| (assemble rest <<< 8)

/-- The low `n` bytes of a value, `bytes[i] = v[8*i+7 : 8*i]` (R81, D31). -/
def disassemble (v : Word) (n : Nat) : List Byte := (List.range n).map fun i => v.extractLsb' (8 * i) 8

/-! ### Devices (R51 to R59) -/

/-- A device's base and length (R52). -/
structure Device where
  base : Nat
  len  : Nat
  deriving DecidableEq, Repr

/-- The ROM of R67. -/
def State.rom (s : State) : Device := { base := Config.romBase, len := s.params.romSize.bytes }

/-- The DRAM of R67. -/
def State.dram (s : State) : Device := { base := Config.dramBase, len := s.params.dramSize }

/-- `dev.contains(a)`: the half-open range (R52). -/
def Device.contains (d : Device) (a : Word) : Bool :=
  decide (d.base ≤ a.toNat) && decide (a.toNat < d.base + d.len)

/-- `dev.size()` (R53). -/
def Device.size (d : Device) : Word := BitVec.ofNat 64 d.len

/-- `legal(A, S)`: the A + S window, A + S modulo 2^64 (R54, C1, D14). -/
def Device.legal (d : Device) (a : Word) (n : AccessSize) : Bool :=
  d.contains a && d.contains (a + BitVec.ofNat 64 (sizeBytes n))

/-- `dev.read(A, S)` (R55). Byte k of the device's buffer is the byte at address base + k (R35). -/
def Device.read (d : Device) (m : Memory) (a : Word) (n : AccessSize) : Res Word :=
  if d.legal a n then .ok (assemble (m.readBytes a.toNat (sizeBytes n))) else .err .loadAccessFault

/-- `dram.write(A, S, bytes)` (R56, R57). -/
def Device.writeRam (d : Device) (m : Memory) (a : Word) (n : AccessSize) (bytes : List Byte) : Res Memory :=
  if bytes.length ≠ sizeBytes n then .refuse .writeArity
  else if d.legal a n then .ok (m.writeBytes a.toNat bytes)
  else .err .storeAccessFault

/-- `rom.write(A, S, bytes)`: always fails, whatever the address, size and legality (R58); only the
precondition on the buffer comes before it (R57, log entry 7). -/
def romWrite (n : AccessSize) (bytes : List Byte) : Res Memory :=
  if bytes.length ≠ sizeBytes n then .refuse .writeArity else .err .storeAccessFault

/-! ### The bus (R68 to R72) -/

/-- `bus.contains(a)` (R68). -/
def State.busContains (s : State) (a : Word) : Bool := s.rom.contains a || s.dram.contains a

/-- `bus.size()`: 2^64 - 1 (R69, D20). -/
def busSize : Word := 0xFFFFFFFFFFFFFFFF#64

/-- `bus.read(A, S)`: routed on A alone, DRAM the fallback (R70). -/
def State.busRead (s : State) (a : Word) (n : AccessSize) : Res Word :=
  if s.rom.contains a then s.rom.read s.mem a n else s.dram.read s.mem a n

/-- `bus.write(A, S, bytes)`: routed the same way (R71). The result holds the buffers after it. -/
def State.busWrite (s : State) (a : Word) (n : AccessSize) (bytes : List Byte) : Res Memory :=
  if s.rom.contains a then romWrite n bytes else s.dram.writeRam s.mem a n bytes

/-! ### The MMU (R74 to R82) -/

/-- `ea(vaddr)`: the low 32 bits in 32-bit mode, unchanged in 64-bit mode (R75). -/
def State.effectiveAddress (s : State) (va : Word) : Word :=
  match s.xlen with
  | .x32 => va &&& 0xFFFFFFFF#64
  | .x64 => va

/-- `translate(ea)`: the identity in Machine mode, refused otherwise (R76, D10). -/
def State.translate (s : State) (ea : Word) : Res Word :=
  match s.mode with
  | .machine => .ok ea
  | .supervisor => .refuse .translationUnimplemented
  | .user => .refuse .translationUnimplemented

/-- `MMU.load(vaddr, S)` (R78 to R80). -/
def State.mmuLoad (s : State) (va : Word) (n : AccessSize) : Res Word :=
  match s.translate (s.effectiveAddress va) with
  | .ok pa => s.busRead pa n
  | .err t => .err t
  | .refuse r => .refuse r

/-- `MMU.store(vaddr, S, bytes)` (R78, R79, R81): the state with the bytes stored. -/
def State.mmuStore (s : State) (va : Word) (n : AccessSize) (bytes : List Byte) : Res State :=
  match s.translate (s.effectiveAddress va) with
  | .ok pa =>
    match s.busWrite pa n bytes with
    | .ok m => .ok { s with mem := m }
    | .err t => .err t
    | .refuse r => .refuse r
  | .err t => .err t
  | .refuse r => .refuse r

/-- `MMU.validate_address(vaddr)`: one address, not the window (R82, D34). -/
def State.validateAddress (s : State) (va : Word) : Res Bool :=
  match s.translate (s.effectiveAddress va) with
  | .ok pa => .ok (s.busContains pa)
  | .err t => .err t
  | .refuse r => .refuse r

/-- `MemRead(addr, n)` (R11). -/
def State.memRead (s : State) (a : Word) (n : AccessSize) : Res Word := s.mmuLoad a n

/-- `MemWrite(addr, n, v)`: the low n bytes of v (R11, R81). -/
def State.memWrite (s : State) (a : Word) (n : AccessSize) (v : Word) : Res State :=
  s.mmuStore a n (disassemble v (sizeBytes n))

/-! ### Traps -/

/-- `mcause` code of a trap kind (R400, D22), for reporting only: no rule reads it. -/
def Trap.code : Trap → Nat
  | .instructionAddressMisaligned => 0
  | .instructionAccessFault => 1
  | .illegalInstruction => 2
  | .breakpoint => 3
  | .loadAddressMisaligned => 4
  | .loadAccessFault => 5
  | .storeAMOAddressMisaligned => 6
  | .storeAccessFault => 7
  | .environmentCallFromUMode => 8
  | .environmentCallFromSMode => 9
  | .environmentCallFromMMode => 11
  | .instructionPageFault => 12
  | .loadPageFault => 13
  | .storeAMOPageFault => 15
  | .userSoftwareInterrupt => 0
  | .supervisorSoftwareInterrupt => 1
  | .machineSoftwareInterrupt => 3
  | .userTimerInterrupt => 4
  | .supervisorTimerInterrupt => 5
  | .machineTimerInterrupt => 7
  | .userExternalInterrupt => 8
  | .supervisorExternalInterrupt => 9
  | .machineExternalInterrupt => 11

/-- The class column of R400. -/
def Trap.isInterrupt : Trap → Bool
  | .instructionAddressMisaligned => false
  | .instructionAccessFault => false
  | .illegalInstruction => false
  | .breakpoint => false
  | .loadAddressMisaligned => false
  | .loadAccessFault => false
  | .storeAMOAddressMisaligned => false
  | .storeAccessFault => false
  | .environmentCallFromUMode => false
  | .environmentCallFromSMode => false
  | .environmentCallFromMMode => false
  | .instructionPageFault => false
  | .loadPageFault => false
  | .storeAMOPageFault => false
  | .userSoftwareInterrupt => true
  | .supervisorSoftwareInterrupt => true
  | .machineSoftwareInterrupt => true
  | .userTimerInterrupt => true
  | .supervisorTimerInterrupt => true
  | .machineTimerInterrupt => true
  | .userExternalInterrupt => true
  | .supervisorExternalInterrupt => true
  | .machineExternalInterrupt => true

/-- `raise t`, and the whole of trap entry (R11, R147, R406): the machine stops with `Trapped(t, s)`.
Nothing is saved, no mode, mask, register or memory byte changes, and there is no vector. There is no
return beside it: no return-from-trap instruction exists (R407). -/
def takeTrap (t : Trap) (s : State) : Host.Outcome State Fault Refusal := .fault (.trapped t s)

/-- `let v = op; …` of R12: on `Err(t)` raise t, on `Ok(v)` continue with v; a refusal is passed on. -/
def andThen {α : Type} (r : Res α) (s : State) (k : α → Host.Outcome State Fault Refusal) :
    Host.Outcome State Fault Refusal :=
  match r with
  | .ok v => k v
  | .err t => takeTrap t s
  | .refuse q => .refused q

/-! ### Completion (R145) -/

/-- `pc <- pc + 4` (R145, D32). -/
def State.advance (s : State) : State := { s with pc := s.pc + 4#64 }

/-- `x[rd] <- v; pc <- pc + 4`. -/
def writeRd (rd : RegIdx) (v : Word) (s : State) : Host.Outcome State Fault Refusal :=
  .next (s.writeX rd v).advance

/-- A load (R240): `let v = MemRead(x[rs1] + imm, n); x[rd] <- ext(v); pc <- pc + 4`. -/
def loadInto (n : AccessSize) (ext : Word → Word) (rd rs1 : RegIdx) (imm : Word) (s : State) :
    Host.Outcome State Fault Refusal :=
  andThen (s.memRead (addressOf (s.readX rs1) imm) n) s fun v => writeRd rd (ext v) s

/-- A store (R240): `MemWrite(x[rs1] + imm, n, x[rs2]); pc <- pc + 4`. -/
def storeFrom (n : AccessSize) (rs1 rs2 : RegIdx) (imm : Word) (s : State) :
    Host.Outcome State Fault Refusal :=
  andThen (s.memWrite (addressOf (s.readX rs1) imm) n (s.readX rs2)) s fun s' => .next s'.advance

/-- The target check of R270 and then the jump: `s` is the state the instruction started with, `linked`
the same state with the link register written. -/
def transferTo (target : Word) (linked s : State) : Host.Outcome State Fault Refusal :=
  if s.params.checkTargetAlign && isMisaligned target then takeTrap .instructionAddressMisaligned s
  else .next { linked with pc := target }

/-- A conditional branch (R271): the target is checked only when the branch is taken. -/
def branchIf (taken : Bool) (imm : Word) (s : State) : Host.Outcome State Fault Refusal :=
  if taken then transferTo (relativeTarget s.pc imm) s s else .next s.advance

end Sys2Proof.Machine
end

