-- ==== Sys2Proof/Machine/ControlTransfer.lean ====
section
/-! DEFINITION. Branches and jumps (44_control_transfer.md, R270 to R278). The link and the target come from the
values read before any write. -/

namespace Sys2Proof.Machine

/-- BEQ (R271). -/
def execBeq (rs1 rs2 : RegIdx) (imm : Word) (s : State) : Host.Outcome State Fault Refusal :=
  branchIf (decide (s.readX rs1 = s.readX rs2)) imm s

/-- BNE (R272). -/
def execBne (rs1 rs2 : RegIdx) (imm : Word) (s : State) : Host.Outcome State Fault Refusal :=
  branchIf (decide (s.readX rs1 ≠ s.readX rs2)) imm s

/-- BLT (R273). -/
def execBlt (rs1 rs2 : RegIdx) (imm : Word) (s : State) : Host.Outcome State Fault Refusal :=
  branchIf (ltSigned (s.readX rs1) (s.readX rs2)) imm s

/-- BGE (R274). -/
def execBge (rs1 rs2 : RegIdx) (imm : Word) (s : State) : Host.Outcome State Fault Refusal :=
  branchIf (!ltSigned (s.readX rs1) (s.readX rs2)) imm s

/-- BLTU (R275). -/
def execBltu (rs1 rs2 : RegIdx) (imm : Word) (s : State) : Host.Outcome State Fault Refusal :=
  branchIf (ltUnsigned (s.readX rs1) (s.readX rs2)) imm s

/-- BGEU (R276). -/
def execBgeu (rs1 rs2 : RegIdx) (imm : Word) (s : State) : Host.Outcome State Fault Refusal :=
  branchIf (!ltUnsigned (s.readX rs1) (s.readX rs2)) imm s

/-- JAL (R277). -/
def execJal (rd : RegIdx) (imm : Word) (s : State) : Host.Outcome State Fault Refusal :=
  transferTo (relativeTarget s.pc imm) (s.writeX rd (s.pc + 4#64)) s

/-- JALR (R278). -/
def execJalr (rd rs1 : RegIdx) (imm : Word) (s : State) : Host.Outcome State Fault Refusal :=
  transferTo (indirectTarget (s.readX rs1) imm) (s.writeX rd (s.pc + 4#64)) s

end Sys2Proof.Machine
end

