-- ==== Sys2Proof/Machine/IntegerImmediate.lean ====
section
/-! DEFINITION. Integer register-immediate instructions (42_integer_immediate.md, R200 to R213). The shift amount
of every shift immediate is `imm[4:0]`. -/

namespace Sys2Proof.Machine

/-- ADDI (R201). -/
def execAddi (rd rs1 : RegIdx) (imm : Word) (s : State) : Host.Outcome State Fault Refusal :=
  writeRd rd (s.readX rs1 + imm) s

/-- SLTI (R202). -/
def execSlti (rd rs1 : RegIdx) (imm : Word) (s : State) : Host.Outcome State Fault Refusal :=
  writeRd rd (truthValue (ltSigned (s.readX rs1) imm)) s

/-- SLTIU (R203). -/
def execSltiu (rd rs1 : RegIdx) (imm : Word) (s : State) : Host.Outcome State Fault Refusal :=
  writeRd rd (truthValue (ltUnsigned (s.readX rs1) imm)) s

/-- XORI (R204). -/
def execXori (rd rs1 : RegIdx) (imm : Word) (s : State) : Host.Outcome State Fault Refusal :=
  writeRd rd (s.readX rs1 ^^^ imm) s

/-- ORI (R205). -/
def execOri (rd rs1 : RegIdx) (imm : Word) (s : State) : Host.Outcome State Fault Refusal :=
  writeRd rd (s.readX rs1 ||| imm) s

/-- ANDI (R206). -/
def execAndi (rd rs1 : RegIdx) (imm : Word) (s : State) : Host.Outcome State Fault Refusal :=
  writeRd rd (s.readX rs1 &&& imm) s

/-- SLLI (R207). -/
def execSlli (rd rs1 : RegIdx) (imm : Word) (s : State) : Host.Outcome State Fault Refusal :=
  writeRd rd (s.readX rs1 <<< shamt5 imm) s

/-- SRLI (R208). -/
def execSrli (rd rs1 : RegIdx) (imm : Word) (s : State) : Host.Outcome State Fault Refusal :=
  writeRd rd (s.readX rs1 >>> shamt5 imm) s

/-- SRAI (R209). -/
def execSrai (rd rs1 : RegIdx) (imm : Word) (s : State) : Host.Outcome State Fault Refusal :=
  writeRd rd ((s.readX rs1).sshiftRight (shamt5 imm)) s

/-- ADDIW (R210). -/
def execAddiw (rd rs1 : RegIdx) (imm : Word) (s : State) : Host.Outcome State Fault Refusal :=
  writeRd rd (sextN 32 (s.readX rs1 + imm)) s

/-- SLLIW (R211). -/
def execSlliw (rd rs1 : RegIdx) (imm : Word) (s : State) : Host.Outcome State Fault Refusal :=
  writeRd rd (sextN 32 (s.readX rs1 <<< shamt5 imm)) s

/-- SRLIW (R212). -/
def execSrliw (rd rs1 : RegIdx) (imm : Word) (s : State) : Host.Outcome State Fault Refusal :=
  writeRd rd (sextN 32 (zextN 32 (s.readX rs1) >>> shamt5 imm)) s

/-- SRAIW (R213). -/
def execSraiw (rd rs1 : RegIdx) (imm : Word) (s : State) : Host.Outcome State Fault Refusal :=
  writeRd rd (sextN 32 ((sextN 32 (s.readX rs1)).sshiftRight (shamt5 imm))) s

end Sys2Proof.Machine
end

