-- ==== Sys2Proof/Machine/IntegerRegister.lean ====
section
/-! DEFINITION. Integer register-register instructions (41_integer_register.md, R160 to R175). Each reads both
sources, writes rd and advances the pc; none raises a trap. -/

namespace Sys2Proof.Machine

/-- ADD (R161). -/
def execAdd (rd rs1 rs2 : RegIdx) (s : State) : Host.Outcome State Fault Refusal :=
  writeRd rd (s.readX rs1 + s.readX rs2) s

/-- SUB (R162). -/
def execSub (rd rs1 rs2 : RegIdx) (s : State) : Host.Outcome State Fault Refusal :=
  writeRd rd (s.readX rs1 - s.readX rs2) s

/-- SLL (R163). -/
def execSll (rd rs1 rs2 : RegIdx) (s : State) : Host.Outcome State Fault Refusal :=
  writeRd rd (s.readX rs1 <<< shamt6 (s.readX rs2)) s

/-- SLT (R164). -/
def execSlt (rd rs1 rs2 : RegIdx) (s : State) : Host.Outcome State Fault Refusal :=
  writeRd rd (truthValue (ltSigned (s.readX rs1) (s.readX rs2))) s

/-- SLTU (R165). -/
def execSltu (rd rs1 rs2 : RegIdx) (s : State) : Host.Outcome State Fault Refusal :=
  writeRd rd (truthValue (ltUnsigned (s.readX rs1) (s.readX rs2))) s

/-- XOR (R166). -/
def execXor (rd rs1 rs2 : RegIdx) (s : State) : Host.Outcome State Fault Refusal :=
  writeRd rd (s.readX rs1 ^^^ s.readX rs2) s

/-- SRL (R167). -/
def execSrl (rd rs1 rs2 : RegIdx) (s : State) : Host.Outcome State Fault Refusal :=
  writeRd rd (s.readX rs1 >>> shamt6 (s.readX rs2)) s

/-- SRA (R168). -/
def execSra (rd rs1 rs2 : RegIdx) (s : State) : Host.Outcome State Fault Refusal :=
  writeRd rd ((s.readX rs1).sshiftRight (shamt6 (s.readX rs2))) s

/-- OR (R169). -/
def execOr (rd rs1 rs2 : RegIdx) (s : State) : Host.Outcome State Fault Refusal :=
  writeRd rd (s.readX rs1 ||| s.readX rs2) s

/-- AND (R170). -/
def execAnd (rd rs1 rs2 : RegIdx) (s : State) : Host.Outcome State Fault Refusal :=
  writeRd rd (s.readX rs1 &&& s.readX rs2) s

/-- ADDW (R171). -/
def execAddw (rd rs1 rs2 : RegIdx) (s : State) : Host.Outcome State Fault Refusal :=
  writeRd rd (sextN 32 (s.readX rs1 + s.readX rs2)) s

/-- SUBW (R172). -/
def execSubw (rd rs1 rs2 : RegIdx) (s : State) : Host.Outcome State Fault Refusal :=
  writeRd rd (sextN 32 (s.readX rs1 - s.readX rs2)) s

/-- SLLW (R173). -/
def execSllw (rd rs1 rs2 : RegIdx) (s : State) : Host.Outcome State Fault Refusal :=
  writeRd rd (sextN 32 (s.readX rs1 <<< shamt5 (s.readX rs2))) s

/-- SRLW (R174). -/
def execSrlw (rd rs1 rs2 : RegIdx) (s : State) : Host.Outcome State Fault Refusal :=
  writeRd rd (sextN 32 (zextN 32 (s.readX rs1) >>> shamt5 (s.readX rs2))) s

/-- SRAW (R175). -/
def execSraw (rd rs1 rs2 : RegIdx) (s : State) : Host.Outcome State Fault Refusal :=
  writeRd rd (sextN 32 ((sextN 32 (s.readX rs1)).sshiftRight (shamt5 (s.readX rs2)))) s

end Sys2Proof.Machine
end

