-- ==== Sys2Proof/Machine/LoadsStores.lean ====
section
/-! DEFINITION. Loads and stores (43_loads_stores.md, R240 to R251). A load with rd = x0 still makes its access and
can still trap (D42). -/

namespace Sys2Proof.Machine

/-- LB (R241). -/
def execLb (rd rs1 : RegIdx) (imm : Word) (s : State) : Host.Outcome State Fault Refusal :=
  loadInto .byte (sextN 8) rd rs1 imm s

/-- LH (R242). -/
def execLh (rd rs1 : RegIdx) (imm : Word) (s : State) : Host.Outcome State Fault Refusal :=
  loadInto .halfWord (sextN 16) rd rs1 imm s

/-- LW (R243). -/
def execLw (rd rs1 : RegIdx) (imm : Word) (s : State) : Host.Outcome State Fault Refusal :=
  loadInto .word (sextN 32) rd rs1 imm s

/-- LD (R244). -/
def execLd (rd rs1 : RegIdx) (imm : Word) (s : State) : Host.Outcome State Fault Refusal :=
  loadInto .doubleWord id rd rs1 imm s

/-- LBU (R245). -/
def execLbu (rd rs1 : RegIdx) (imm : Word) (s : State) : Host.Outcome State Fault Refusal :=
  loadInto .byte (zextN 8) rd rs1 imm s

/-- LHU (R246). -/
def execLhu (rd rs1 : RegIdx) (imm : Word) (s : State) : Host.Outcome State Fault Refusal :=
  loadInto .halfWord (zextN 16) rd rs1 imm s

/-- LWU (R247). -/
def execLwu (rd rs1 : RegIdx) (imm : Word) (s : State) : Host.Outcome State Fault Refusal :=
  loadInto .word (zextN 32) rd rs1 imm s

/-- SB (R248). -/
def execSb (rs1 rs2 : RegIdx) (imm : Word) (s : State) : Host.Outcome State Fault Refusal :=
  storeFrom .byte rs1 rs2 imm s

/-- SH (R249). -/
def execSh (rs1 rs2 : RegIdx) (imm : Word) (s : State) : Host.Outcome State Fault Refusal :=
  storeFrom .halfWord rs1 rs2 imm s

/-- SW (R250). -/
def execSw (rs1 rs2 : RegIdx) (imm : Word) (s : State) : Host.Outcome State Fault Refusal :=
  storeFrom .word rs1 rs2 imm s

/-- SD (R251). -/
def execSd (rs1 rs2 : RegIdx) (imm : Word) (s : State) : Host.Outcome State Fault Refusal :=
  storeFrom .doubleWord rs1 rs2 imm s

end Sys2Proof.Machine
end

