-- ==== Sys2Proof/Machine/MultiplyDivide.lean ====
section
/-! DEFINITION. Multiply and divide (47_multiply_divide.md, R310 to R323). None raises a trap: division by zero and
signed overflow have results. -/

namespace Sys2Proof.Machine

/-- MUL (R311). -/
def execMul (rd rs1 rs2 : RegIdx) (s : State) : Host.Outcome State Fault Refusal :=
  writeRd rd (s.readX rs1 * s.readX rs2) s

/-- MULH (R312). -/
def execMulh (rd rs1 rs2 : RegIdx) (s : State) : Host.Outcome State Fault Refusal :=
  writeRd rd (highHalf (viewS (s.readX rs1) * viewS (s.readX rs2))) s

/-- MULHSU (R313). -/
def execMulhsu (rd rs1 rs2 : RegIdx) (s : State) : Host.Outcome State Fault Refusal :=
  writeRd rd (highHalf (viewS (s.readX rs1) * viewU (s.readX rs2))) s

/-- MULHU (R314). -/
def execMulhu (rd rs1 rs2 : RegIdx) (s : State) : Host.Outcome State Fault Refusal :=
  writeRd rd (highHalf (viewU (s.readX rs1) * viewU (s.readX rs2))) s

/-- DIV (R315). -/
def execDiv (rd rs1 rs2 : RegIdx) (s : State) : Host.Outcome State Fault Refusal :=
  writeRd rd (divSigned (s.readX rs1) (s.readX rs2)) s

/-- DIVU (R316). -/
def execDivu (rd rs1 rs2 : RegIdx) (s : State) : Host.Outcome State Fault Refusal :=
  writeRd rd (divUnsigned (s.readX rs1) (s.readX rs2)) s

/-- REM (R317). -/
def execRem (rd rs1 rs2 : RegIdx) (s : State) : Host.Outcome State Fault Refusal :=
  writeRd rd (remSigned (s.readX rs1) (s.readX rs2)) s

/-- REMU (R318). -/
def execRemu (rd rs1 rs2 : RegIdx) (s : State) : Host.Outcome State Fault Refusal :=
  writeRd rd (remUnsigned (s.readX rs1) (s.readX rs2)) s

/-- MULW (R319). -/
def execMulw (rd rs1 rs2 : RegIdx) (s : State) : Host.Outcome State Fault Refusal :=
  writeRd rd (sextN 32 (s.readX rs1 * s.readX rs2)) s

/-- DIVW (R320). -/
def execDivw (rd rs1 rs2 : RegIdx) (s : State) : Host.Outcome State Fault Refusal :=
  writeRd rd (divSignedW (s.readX rs1) (s.readX rs2)) s

/-- DIVUW (R321). -/
def execDivuw (rd rs1 rs2 : RegIdx) (s : State) : Host.Outcome State Fault Refusal :=
  writeRd rd (divUnsignedW (s.readX rs1) (s.readX rs2)) s

/-- REMW (R322). -/
def execRemw (rd rs1 rs2 : RegIdx) (s : State) : Host.Outcome State Fault Refusal :=
  writeRd rd (remSignedW (s.readX rs1) (s.readX rs2)) s

/-- REMUW (R323). -/
def execRemuw (rd rs1 rs2 : RegIdx) (s : State) : Host.Outcome State Fault Refusal :=
  writeRd rd (remUnsignedW (s.readX rs1) (s.readX rs2)) s

end Sys2Proof.Machine
end

