-- ==== Sys2Proof/Machine/System.lean ====
section
/-! DEFINITION. System instructions and UNDEF (46_system.md, R300 to R303). Each stops the machine with its trap: the
spec gives them no other effect (D2), and the fields rd, rs1 and imm are read by nothing. -/

namespace Sys2Proof.Machine

/-- ECALL (R301): always the M-mode variant (D37). -/
def execEcall (_rd _rs1 : RegIdx) (_imm : Word) (s : State) : Host.Outcome State Fault Refusal :=
  takeTrap .environmentCallFromMMode s

/-- EBREAK (R302). -/
def execEbreak (_rd _rs1 : RegIdx) (_imm : Word) (s : State) : Host.Outcome State Fault Refusal :=
  takeTrap .breakpoint s

/-- UNDEF (R303), the decoder's result for a word that no pattern matches. -/
def execUndef (s : State) : Host.Outcome State Fault Refusal := takeTrap .illegalInstruction s

end Sys2Proof.Machine
end

