-- ==== Sys2Proof/Machine/UpperImmediate.lean ====
section
/-! DEFINITION. Upper-immediate instructions (45_upper_immediate.md, R290 to R292). -/

namespace Sys2Proof.Machine

/-- LUI (R291). -/
def execLui (rd : RegIdx) (imm : BitVec 20) (s : State) : Host.Outcome State Fault Refusal :=
  writeRd rd (upperValue imm) s

/-- AUIPC (R292): `pc` is the instruction's own address. -/
def execAuipc (rd : RegIdx) (imm : BitVec 20) (s : State) : Host.Outcome State Fault Refusal :=
  writeRd rd (s.pc + upperValue imm) s

end Sys2Proof.Machine
end

