-- ==== Sys2Proof/Machine/Execute.lean ====
section
/-! DEFINITION. The parts of a cycle (40_cycle.md): the fetch, the execute stage with `UNDEF` and the
XLEN refusal, the clock tick, and where an instruction's bytes are placed for a fetch. -/

namespace Sys2Proof.Machine

/-- `FETCH_SIZE` = Word (R6, R141, C6, D4). -/
def fetchSize : AccessSize := .word

/-- The fetch: an ordinary MMU load at the pc (R141). -/
def State.fetch (s : State) : Res Word := s.mmuLoad s.pc fetchSize

/-- `execute(inst, state)` (R144). `UNDEF` raises `IllegalInstruction` (R303). With `XLEN` = 32 execute is
refused, whatever was decoded (R151(d), D11, log entry 6). -/
def execute (d : Decoded) (s : State) : Host.Outcome State Fault Refusal :=
  match s.xlen with
  | .x32 => .refused .executeXlen32
  | .x64 =>
    match d with
    | .instruction i => exec i s
    | .undef => execUndef s

/-- The clock tick (R146, D6). -/
def State.tick (s : State) : State := { s with clock := s.clock + 1#64 }

/-- The end of a cycle whose fetch succeeded (R149): a completed execute ticks the clock, a trap or a
refusal is the cycle's outcome. -/
def afterExecute (o : Host.Outcome State Fault Refusal) : Host.Outcome State Fault Refusal :=
  match o with
  | .next s => .next s.tick
  | .fault r => .fault r
  | .refused r => .refused r

/-- A fetch fault (R142, D3, D5): swallowed under `Skip`, reported under `Halt`. -/
def onFetchFault (t : Trap) (s : State) : Host.Outcome State Fault Refusal :=
  match s.params.fetchFaultPolicy with
  | .skip => .next s.advance
  | .halt => takeTrap t s

/-- One cycle as a function of the state (R149). -/
def cycle (s : State) : Host.Outcome State Fault Refusal :=
  match s.fetch with
  | .err t => onFetchFault t s
  | .refuse r => .refused r
  | .ok v => afterExecute (execute (decode (low32 v)) s)

/-- The state with the bytes of a word (numbered as opcode_table.json numbers it, cut to `nbits` bits) in
the device buffer where the next fetch reads: at the pc's effective address (R60, R75, R141). It stands
for the host's image load (log entry 5). -/
def placeAtFetch (s : State) (nbits w : Nat) : State :=
  { s with mem := s.mem.writeBytes (s.effectiveAddress s.pc).toNat
                    (bytesOfWord (BitVec.ofNat 32 (w % 2 ^ nbits))) }

end Sys2Proof.Machine
end

