-- ==== Sys2Proof/Machine/Step.lean ====
section
/-! DEFINITION. One step of the machine: one cycle (R149, R150). -/

namespace Sys2Proof.Machine

/-- One cycle: `Running(s')` is `next`, `Trapped(t, s)` is `fault`, `Refused` is `refused` (R150). -/
def step (s : State) : Host.Outcome State Fault Refusal := cycle s

/-- The state with an instruction word stored where `step` fetches its next instruction. -/
def State.withFetchWord (s : State) (nbits w : Nat) : State := placeAtFetch s nbits w

end Sys2Proof.Machine
end

