-- ==== Sys2Proof/Machine/Assembly.lean ====
section
/-! DEFINITION. The assembler's view: register names (R25), the syntax of R122 and the
pseudo-instructions of R123. It is a convention of software: no rule of the machine reads it. -/

namespace Sys2Proof.Machine

/-- The ABI aliases of x0 to x31 (R25), in order; x8 is also called fp. -/
def abiNames : List String :=
    ["zero", "ra", "sp", "gp", "tp", "t0", "t1", "t2", "s0", "s1", "a0", "a1", "a2", "a3", "a4", "a5"] ++
    ["a6", "a7", "s2", "s3", "s4", "s5", "s6", "s7", "s8", "s9", "s10", "s11", "t3", "t4", "t5", "t6"]

/-- The architectural name `x<i>` (R25). -/
def regName (r : RegIdx) : String := "x" ++ toString r.val

/-- A sign-extended immediate in decimal (R122). -/
def immText (imm : Word) : String := toString imm.toInt

/-- `op rd, rs1, rs2` (R122). -/
def asmR (op : String) (rd rs1 rs2 : RegIdx) : String :=
  op ++ " " ++ regName rd ++ ", " ++ regName rs1 ++ ", " ++ regName rs2

/-- `op rd, rs1, imm`, and a branch's `op rs1, rs2, offset` (R122). -/
def asmI (op : String) (r1 r2 : RegIdx) (imm : Word) : String :=
  op ++ " " ++ regName r1 ++ ", " ++ regName r2 ++ ", " ++ immText imm

/-- `op rd, rs1, shamt` with `shamt = imm[4:0]` (R122). -/
def asmShift (op : String) (rd rs1 : RegIdx) (imm : Word) : String :=
  op ++ " " ++ regName rd ++ ", " ++ regName rs1 ++ ", " ++ toString (shamt5 imm)

/-- `op r, imm(base)`: loads, stores and JALR (R122). -/
def asmBase (op : String) (r base : RegIdx) (imm : Word) : String :=
  op ++ " " ++ regName r ++ ", " ++ immText imm ++ "(" ++ regName base ++ ")"

/-- The assembler text of an instruction (R122). -/
def asm : Instr → String
  | .add rd rs1 rs2 => asmR "add" rd rs1 rs2
  | .sub rd rs1 rs2 => asmR "sub" rd rs1 rs2
  | .sll rd rs1 rs2 => asmR "sll" rd rs1 rs2
  | .slt rd rs1 rs2 => asmR "slt" rd rs1 rs2
  | .sltu rd rs1 rs2 => asmR "sltu" rd rs1 rs2
  | .xor rd rs1 rs2 => asmR "xor" rd rs1 rs2
  | .srl rd rs1 rs2 => asmR "srl" rd rs1 rs2
  | .sra rd rs1 rs2 => asmR "sra" rd rs1 rs2
  | .or rd rs1 rs2 => asmR "or" rd rs1 rs2
  | .and rd rs1 rs2 => asmR "and" rd rs1 rs2
  | .addw rd rs1 rs2 => asmR "addw" rd rs1 rs2
  | .subw rd rs1 rs2 => asmR "subw" rd rs1 rs2
  | .sllw rd rs1 rs2 => asmR "sllw" rd rs1 rs2
  | .srlw rd rs1 rs2 => asmR "srlw" rd rs1 rs2
  | .sraw rd rs1 rs2 => asmR "sraw" rd rs1 rs2
  | .addi rd rs1 imm => asmI "addi" rd rs1 imm
  | .slti rd rs1 imm => asmI "slti" rd rs1 imm
  | .sltiu rd rs1 imm => asmI "sltiu" rd rs1 imm
  | .xori rd rs1 imm => asmI "xori" rd rs1 imm
  | .ori rd rs1 imm => asmI "ori" rd rs1 imm
  | .andi rd rs1 imm => asmI "andi" rd rs1 imm
  | .slli rd rs1 imm => asmShift "slli" rd rs1 imm
  | .srli rd rs1 imm => asmShift "srli" rd rs1 imm
  | .srai rd rs1 imm => asmShift "srai" rd rs1 imm
  | .addiw rd rs1 imm => asmI "addiw" rd rs1 imm
  | .slliw rd rs1 imm => asmShift "slliw" rd rs1 imm
  | .srliw rd rs1 imm => asmShift "srliw" rd rs1 imm
  | .sraiw rd rs1 imm => asmShift "sraiw" rd rs1 imm
  | .lb rd rs1 imm => asmBase "lb" rd rs1 imm
  | .lh rd rs1 imm => asmBase "lh" rd rs1 imm
  | .lw rd rs1 imm => asmBase "lw" rd rs1 imm
  | .ld rd rs1 imm => asmBase "ld" rd rs1 imm
  | .lbu rd rs1 imm => asmBase "lbu" rd rs1 imm
  | .lhu rd rs1 imm => asmBase "lhu" rd rs1 imm
  | .lwu rd rs1 imm => asmBase "lwu" rd rs1 imm
  | .sb rs1 rs2 imm => asmBase "sb" rs2 rs1 imm
  | .sh rs1 rs2 imm => asmBase "sh" rs2 rs1 imm
  | .sw rs1 rs2 imm => asmBase "sw" rs2 rs1 imm
  | .sd rs1 rs2 imm => asmBase "sd" rs2 rs1 imm
  | .beq rs1 rs2 imm => asmI "beq" rs1 rs2 imm
  | .bne rs1 rs2 imm => asmI "bne" rs1 rs2 imm
  | .blt rs1 rs2 imm => asmI "blt" rs1 rs2 imm
  | .bge rs1 rs2 imm => asmI "bge" rs1 rs2 imm
  | .bltu rs1 rs2 imm => asmI "bltu" rs1 rs2 imm
  | .bgeu rs1 rs2 imm => asmI "bgeu" rs1 rs2 imm
  | .jal rd imm => "jal" ++ " " ++ regName rd ++ ", " ++ immText imm
  | .jalr rd rs1 imm => asmBase "jalr" rd rs1 imm
  | .lui rd imm => "lui" ++ " " ++ regName rd ++ ", " ++ toString imm.toNat
  | .auipc rd imm => "auipc" ++ " " ++ regName rd ++ ", " ++ toString imm.toNat
  | .ecall _ _ _ => "ecall"
  | .ebreak _ _ _ => "ebreak"
  | .mul rd rs1 rs2 => asmR "mul" rd rs1 rs2
  | .mulh rd rs1 rs2 => asmR "mulh" rd rs1 rs2
  | .mulhsu rd rs1 rs2 => asmR "mulhsu" rd rs1 rs2
  | .mulhu rd rs1 rs2 => asmR "mulhu" rd rs1 rs2
  | .div rd rs1 rs2 => asmR "div" rd rs1 rs2
  | .divu rd rs1 rs2 => asmR "divu" rd rs1 rs2
  | .rem rd rs1 rs2 => asmR "rem" rd rs1 rs2
  | .remu rd rs1 rs2 => asmR "remu" rd rs1 rs2
  | .mulw rd rs1 rs2 => asmR "mulw" rd rs1 rs2
  | .divw rd rs1 rs2 => asmR "divw" rd rs1 rs2
  | .divuw rd rs1 rs2 => asmR "divuw" rd rs1 rs2
  | .remw rd rs1 rs2 => asmR "remw" rd rs1 rs2
  | .remuw rd rs1 rs2 => asmR "remuw" rd rs1 rs2

/-- The upper part of a pc-relative offset, with rounding: `(off + 0x800) >> 12` (R123). -/
def hi20 (off : Word) : BitVec 20 := (off + 0x800#64).extractLsb' 12 20

/-- The lower part that goes with `hi20` (R123). -/
def lo12 (off : Word) : Word := sextN 12 off

/-- The pseudo-instructions of R123 that expand to rows of R118. `jalLink` and `jalrLink` are the
one-operand `jal` and `jalr`; `la` is also `lla`, its operand the offset from the AUIPC to the symbol.
`zextw` expands to two words that are UNDEF here (R114). -/
inductive Pseudo where
  | nop
  | li (rd : RegIdx) (imm : Word)
  | mv (rd rs : RegIdx)
  | not (rd rs : RegIdx)
  | neg (rd rs : RegIdx)
  | negw (rd rs : RegIdx)
  | sextw (rd rs : RegIdx)
  | zextw (rd rs : RegIdx)
  | seqz (rd rs : RegIdx)
  | snez (rd rs : RegIdx)
  | sltz (rd rs : RegIdx)
  | sgtz (rd rs : RegIdx)
  | beqz (rs : RegIdx) (off : Word)
  | bnez (rs : RegIdx) (off : Word)
  | blez (rs : RegIdx) (off : Word)
  | bgez (rs : RegIdx) (off : Word)
  | bltz (rs : RegIdx) (off : Word)
  | bgtz (rs : RegIdx) (off : Word)
  | bgt (rs rt : RegIdx) (off : Word)
  | ble (rs rt : RegIdx) (off : Word)
  | bgtu (rs rt : RegIdx) (off : Word)
  | bleu (rs rt : RegIdx) (off : Word)
  | j (off : Word)
  | jalLink (off : Word)
  | jr (rs : RegIdx)
  | jalrLink (rs : RegIdx)
  | ret
  | call (off : Word)
  | tail (off : Word)
  | la (rd : RegIdx) (off : Word)
  deriving DecidableEq, Repr

/-- The expansions of R123. -/
def expand : Pseudo → List Instr
  | .nop => [.addi 0 0 0]
  | .li rd imm => [.addi rd 0 imm]
  | .mv rd rs => [.addi rd rs 0]
  | .not rd rs => [.xori rd rs (-1)]
  | .neg rd rs => [.sub rd 0 rs]
  | .negw rd rs => [.subw rd 0 rs]
  | .sextw rd rs => [.addiw rd rs 0]
  | .zextw rd rs => [.slli rd rs 32, .srli rd rd 32]
  | .seqz rd rs => [.sltiu rd rs 1]
  | .snez rd rs => [.sltu rd 0 rs]
  | .sltz rd rs => [.slt rd rs 0]
  | .sgtz rd rs => [.slt rd 0 rs]
  | .beqz rs off => [.beq rs 0 off]
  | .bnez rs off => [.bne rs 0 off]
  | .blez rs off => [.bge 0 rs off]
  | .bgez rs off => [.bge rs 0 off]
  | .bltz rs off => [.blt rs 0 off]
  | .bgtz rs off => [.blt 0 rs off]
  | .bgt rs rt off => [.blt rt rs off]
  | .ble rs rt off => [.bge rt rs off]
  | .bgtu rs rt off => [.bltu rt rs off]
  | .bleu rs rt off => [.bgeu rt rs off]
  | .j off => [.jal 0 off]
  | .jalLink off => [.jal 1 off]
  | .jr rs => [.jalr 0 rs 0]
  | .jalrLink rs => [.jalr 1 rs 0]
  | .ret => [.jalr 0 1 0]
  | .call off => [.auipc 1 (hi20 off), .jalr 1 1 (lo12 off)]
  | .tail off => [.auipc 6 (hi20 off), .jalr 0 6 (lo12 off)]
  | .la rd off => [.auipc rd (hi20 off), .addi rd rd (lo12 off)]

end Sys2Proof.Machine
end

