-- ==== Sys2Proof/Machine/Boot.lean ====
section
/-! DEFINITION. What the host does before the first cycle (70_reset_and_hazards.md R450 to R452, R455;
20_memory.md R64 to R66). No step calls these. -/

namespace Sys2Proof.Machine

/-- `dev.load_image(bytes)` on the buffers, for an image that fits (R64): the bytes at offset 0 and
upward; the rest of the device is zeroed when `IMAGE_LOAD_ZEROES_TAIL` is true and kept when it is
false. -/
def Device.loadImage (d : Device) (zeroesTail : Bool) (m : Memory) (image : List Byte) : Memory :=
  (if zeroesTail then m.zeroRange (d.base + image.length) (d.base + d.len) else m).writeBytes d.base image

/-- `rom.load_image(bytes)` (R64): refused when longer than the ROM; ROM keeps no image length (R66). -/
def Boot.loadRomImage (image : List Byte) (s : State) : Host.Outcome State Fault Refusal :=
  if s.rom.len < image.length then .refused .imageTooLong
  else .next { s with mem := s.rom.loadImage s.params.imageLoadZeroesTail s.mem image }

/-- `dram.load_image(bytes)` (R64, R66): refused when longer than the DRAM; records the length. -/
def Boot.loadDramImage (image : List Byte) (s : State) : Host.Outcome State Fault Refusal :=
  if s.dram.len < image.length then .refused .imageTooLong
  else .next { s with mem := s.dram.loadImage s.params.imageLoadZeroesTail s.mem image
                      dramImageLen := BitVec.ofNat 64 image.length }

/-- `rom.clear_image()` (R65). -/
def Boot.clearRomImage (s : State) : Host.Outcome State Fault Refusal := Boot.loadRomImage [] s

/-- `dram.clear_image()` (R65). -/
def Boot.clearDramImage (s : State) : Host.Outcome State Fault Refusal := Boot.loadDramImage [] s

/-- The machine right after construction, before any image (R39). -/
def Boot.created (p : Params) (xlen : Xlen) (pc0 : Word) : State :=
  { params := p
    clock := 0#64
    pc := pc0
    x := RegFile.zero
    f := RegFile.zero
    mode := .machine
    xlen := xlen
    mem := []
    dramImageLen := 0#64 }

/-- An image load the host makes or leaves out (R452: "may call", at most once per device). -/
def Boot.optionally (load : List Byte → State → Host.Outcome State Fault Refusal) (image : Option (List Byte))
    (s : State) : Host.Outcome State Fault Refusal :=
  match image with
  | none => .next s
  | some bytes => load bytes s

/-- `init(params, rom_image, dram_image, pc0)` (R450 to R453). `XLEN`, one of the spec's parameters, is
an argument of its own because the MMU holds it (R33). -/
def Boot.init (p : Params) (xlen : Xlen) (romImage dramImage : Option (List Byte)) (pc0 : Word) :
    Host.Outcome State Fault Refusal :=
  match Boot.optionally Boot.loadRomImage romImage (Boot.created p xlen pc0) with
  | .next s => Boot.optionally Boot.loadDramImage dramImage s
  | .fault r => .fault r
  | .refused r => .refused r

end Sys2Proof.Machine
end

