-- ==== Sys2Proof/Safety.lean ====
section
/-! DEFINITION. The terms the statements use: the invariant of a run, which register and which bytes an
instruction may write, an aligned pc, and an outcome seen through a change of its state. -/

namespace Sys2Proof.Machine

/-- The address lies in the ROM or in the DRAM (R34, R67). -/
def State.IsBacked (s : State) (a : Nat) : Prop :=
  (Config.romBase ≤ a ∧ a < Config.romBase + s.params.romSize.bytes) ∨
    (Config.dramBase ≤ a ∧ a < Config.dramBase + s.params.dramSize)

/-- What holds at reset and after every step: memory is in its canonical form and lists only bytes of a
device, the parameters meet R7, the mode is Machine (R32) and XLEN is 64 (R33). -/
structure State.Inv (s : State) : Prop where
  memCanonical : s.mem.wf = true
  memBacked    : ∀ c ∈ s.mem, s.IsBacked c.1
  paramsValid  : s.params.valid = true
  modeMachine  : s.mode = .machine
  xlen64       : s.xlen = .x64

/-- The pc is a multiple of 4. -/
def State.pcAligned (s : State) : Prop := s.pc.toNat % 4 = 0

/-- The integer register an instruction's rule writes, if any (R26): rd of every instruction but the
stores, the branches, ECALL and EBREAK. -/
def destOf : Instr → Option RegIdx
  | .add rd _ _ => some rd
  | .sub rd _ _ => some rd
  | .sll rd _ _ => some rd
  | .slt rd _ _ => some rd
  | .sltu rd _ _ => some rd
  | .xor rd _ _ => some rd
  | .srl rd _ _ => some rd
  | .sra rd _ _ => some rd
  | .or rd _ _ => some rd
  | .and rd _ _ => some rd
  | .addw rd _ _ => some rd
  | .subw rd _ _ => some rd
  | .sllw rd _ _ => some rd
  | .srlw rd _ _ => some rd
  | .sraw rd _ _ => some rd
  | .addi rd _ _ => some rd
  | .slti rd _ _ => some rd
  | .sltiu rd _ _ => some rd
  | .xori rd _ _ => some rd
  | .ori rd _ _ => some rd
  | .andi rd _ _ => some rd
  | .slli rd _ _ => some rd
  | .srli rd _ _ => some rd
  | .srai rd _ _ => some rd
  | .addiw rd _ _ => some rd
  | .slliw rd _ _ => some rd
  | .srliw rd _ _ => some rd
  | .sraiw rd _ _ => some rd
  | .lb rd _ _ => some rd
  | .lh rd _ _ => some rd
  | .lw rd _ _ => some rd
  | .ld rd _ _ => some rd
  | .lbu rd _ _ => some rd
  | .lhu rd _ _ => some rd
  | .lwu rd _ _ => some rd
  | .sb _ _ _ => none
  | .sh _ _ _ => none
  | .sw _ _ _ => none
  | .sd _ _ _ => none
  | .beq _ _ _ => none
  | .bne _ _ _ => none
  | .blt _ _ _ => none
  | .bge _ _ _ => none
  | .bltu _ _ _ => none
  | .bgeu _ _ _ => none
  | .jal rd _ => some rd
  | .jalr rd _ _ => some rd
  | .lui rd _ => some rd
  | .auipc rd _ => some rd
  | .ecall _ _ _ => none
  | .ebreak _ _ _ => none
  | .mul rd _ _ => some rd
  | .mulh rd _ _ => some rd
  | .mulhsu rd _ _ => some rd
  | .mulhu rd _ _ => some rd
  | .div rd _ _ => some rd
  | .divu rd _ _ => some rd
  | .rem rd _ _ => some rd
  | .remu rd _ _ => some rd
  | .mulw rd _ _ => some rd
  | .divw rd _ _ => some rd
  | .divuw rd _ _ => some rd
  | .remw rd _ _ => some rd
  | .remuw rd _ _ => some rd

/-- The size, base register, source register and offset of a store (R248 to R251). -/
def storeOf : Instr → Option (AccessSize × RegIdx × RegIdx × Word)
  | .sb rs1 rs2 imm => some (.byte, rs1, rs2, imm)
  | .sh rs1 rs2 imm => some (.halfWord, rs1, rs2, imm)
  | .sw rs1 rs2 imm => some (.word, rs1, rs2, imm)
  | .sd rs1 rs2 imm => some (.doubleWord, rs1, rs2, imm)
  | .add _ _ _ => none
  | .sub _ _ _ => none
  | .sll _ _ _ => none
  | .slt _ _ _ => none
  | .sltu _ _ _ => none
  | .xor _ _ _ => none
  | .srl _ _ _ => none
  | .sra _ _ _ => none
  | .or _ _ _ => none
  | .and _ _ _ => none
  | .addw _ _ _ => none
  | .subw _ _ _ => none
  | .sllw _ _ _ => none
  | .srlw _ _ _ => none
  | .sraw _ _ _ => none
  | .addi _ _ _ => none
  | .slti _ _ _ => none
  | .sltiu _ _ _ => none
  | .xori _ _ _ => none
  | .ori _ _ _ => none
  | .andi _ _ _ => none
  | .slli _ _ _ => none
  | .srli _ _ _ => none
  | .srai _ _ _ => none
  | .addiw _ _ _ => none
  | .slliw _ _ _ => none
  | .srliw _ _ _ => none
  | .sraiw _ _ _ => none
  | .lb _ _ _ => none
  | .lh _ _ _ => none
  | .lw _ _ _ => none
  | .ld _ _ _ => none
  | .lbu _ _ _ => none
  | .lhu _ _ _ => none
  | .lwu _ _ _ => none
  | .beq _ _ _ => none
  | .bne _ _ _ => none
  | .blt _ _ _ => none
  | .bge _ _ _ => none
  | .bltu _ _ _ => none
  | .bgeu _ _ _ => none
  | .jal _ _ => none
  | .jalr _ _ _ => none
  | .lui _ _ => none
  | .auipc _ _ => none
  | .ecall _ _ _ => none
  | .ebreak _ _ _ => none
  | .mul _ _ _ => none
  | .mulh _ _ _ => none
  | .mulhsu _ _ _ => none
  | .mulhu _ _ _ => none
  | .div _ _ _ => none
  | .divu _ _ _ => none
  | .rem _ _ _ => none
  | .remu _ _ _ => none
  | .mulw _ _ _ => none
  | .divw _ _ _ => none
  | .divuw _ _ _ => none
  | .remw _ _ _ => none
  | .remuw _ _ _ => none

/-- The instruction is a branch or a jump, whose own rule writes the pc (R145, R270). -/
def isTransfer : Instr → Bool
  | .add _ _ _ => false
  | .sub _ _ _ => false
  | .sll _ _ _ => false
  | .slt _ _ _ => false
  | .sltu _ _ _ => false
  | .xor _ _ _ => false
  | .srl _ _ _ => false
  | .sra _ _ _ => false
  | .or _ _ _ => false
  | .and _ _ _ => false
  | .addw _ _ _ => false
  | .subw _ _ _ => false
  | .sllw _ _ _ => false
  | .srlw _ _ _ => false
  | .sraw _ _ _ => false
  | .addi _ _ _ => false
  | .slti _ _ _ => false
  | .sltiu _ _ _ => false
  | .xori _ _ _ => false
  | .ori _ _ _ => false
  | .andi _ _ _ => false
  | .slli _ _ _ => false
  | .srli _ _ _ => false
  | .srai _ _ _ => false
  | .addiw _ _ _ => false
  | .slliw _ _ _ => false
  | .srliw _ _ _ => false
  | .sraiw _ _ _ => false
  | .lb _ _ _ => false
  | .lh _ _ _ => false
  | .lw _ _ _ => false
  | .ld _ _ _ => false
  | .lbu _ _ _ => false
  | .lhu _ _ _ => false
  | .lwu _ _ _ => false
  | .sb _ _ _ => false
  | .sh _ _ _ => false
  | .sw _ _ _ => false
  | .sd _ _ _ => false
  | .beq _ _ _ => true
  | .bne _ _ _ => true
  | .blt _ _ _ => true
  | .bge _ _ _ => true
  | .bltu _ _ _ => true
  | .bgeu _ _ _ => true
  | .jal _ _ => true
  | .jalr _ _ _ => true
  | .lui _ _ => false
  | .auipc _ _ => false
  | .ecall _ _ _ => false
  | .ebreak _ _ _ => false
  | .mul _ _ _ => false
  | .mulh _ _ _ => false
  | .mulhsu _ _ _ => false
  | .mulhu _ _ _ => false
  | .div _ _ _ => false
  | .divu _ _ _ => false
  | .rem _ _ _ => false
  | .remu _ _ _ => false
  | .mulw _ _ _ => false
  | .divw _ _ _ => false
  | .divuw _ _ _ => false
  | .remw _ _ _ => false
  | .remuw _ _ _ => false

/-- The instruction is a jump, or a branch whose condition holds on its source registers (R271 to R278). -/
def isTakenTransfer (i : Instr) (s : State) : Bool :=
  match i with
  | .add _ _ _ => false
  | .sub _ _ _ => false
  | .sll _ _ _ => false
  | .slt _ _ _ => false
  | .sltu _ _ _ => false
  | .xor _ _ _ => false
  | .srl _ _ _ => false
  | .sra _ _ _ => false
  | .or _ _ _ => false
  | .and _ _ _ => false
  | .addw _ _ _ => false
  | .subw _ _ _ => false
  | .sllw _ _ _ => false
  | .srlw _ _ _ => false
  | .sraw _ _ _ => false
  | .addi _ _ _ => false
  | .slti _ _ _ => false
  | .sltiu _ _ _ => false
  | .xori _ _ _ => false
  | .ori _ _ _ => false
  | .andi _ _ _ => false
  | .slli _ _ _ => false
  | .srli _ _ _ => false
  | .srai _ _ _ => false
  | .addiw _ _ _ => false
  | .slliw _ _ _ => false
  | .srliw _ _ _ => false
  | .sraiw _ _ _ => false
  | .lb _ _ _ => false
  | .lh _ _ _ => false
  | .lw _ _ _ => false
  | .ld _ _ _ => false
  | .lbu _ _ _ => false
  | .lhu _ _ _ => false
  | .lwu _ _ _ => false
  | .sb _ _ _ => false
  | .sh _ _ _ => false
  | .sw _ _ _ => false
  | .sd _ _ _ => false
  | .beq rs1 rs2 _ => decide (s.readX rs1 = s.readX rs2)
  | .bne rs1 rs2 _ => decide (s.readX rs1 ≠ s.readX rs2)
  | .blt rs1 rs2 _ => decide ((s.readX rs1).toInt < (s.readX rs2).toInt)
  | .bge rs1 rs2 _ => decide ((s.readX rs2).toInt ≤ (s.readX rs1).toInt)
  | .bltu rs1 rs2 _ => decide ((s.readX rs1).toNat < (s.readX rs2).toNat)
  | .bgeu rs1 rs2 _ => decide ((s.readX rs2).toNat ≤ (s.readX rs1).toNat)
  | .jal _ _ => true
  | .jalr _ _ _ => true
  | .lui _ _ => false
  | .auipc _ _ => false
  | .ecall _ _ _ => false
  | .ebreak _ _ _ => false
  | .mul _ _ _ => false
  | .mulh _ _ _ => false
  | .mulhsu _ _ _ => false
  | .mulhu _ _ _ => false
  | .div _ _ _ => false
  | .divu _ _ _ => false
  | .rem _ _ _ => false
  | .remu _ _ _ => false
  | .mulw _ _ _ => false
  | .divw _ _ _ => false
  | .divuw _ _ _ => false
  | .remw _ _ _ => false
  | .remuw _ _ _ => false

/-- The six trap kinds that can be raised (R401). -/
def raisedKinds : List Trap :=
  [.loadAccessFault, .storeAccessFault, .illegalInstruction, .breakpoint, .environmentCallFromMMode,
    .instructionAddressMisaligned]

/-- The only trap an instruction of the table can raise, if any (R405: each has at most one trap source). -/
def trapOf : Instr → Option Trap
  | .add _ _ _ => none
  | .sub _ _ _ => none
  | .sll _ _ _ => none
  | .slt _ _ _ => none
  | .sltu _ _ _ => none
  | .xor _ _ _ => none
  | .srl _ _ _ => none
  | .sra _ _ _ => none
  | .or _ _ _ => none
  | .and _ _ _ => none
  | .addw _ _ _ => none
  | .subw _ _ _ => none
  | .sllw _ _ _ => none
  | .srlw _ _ _ => none
  | .sraw _ _ _ => none
  | .addi _ _ _ => none
  | .slti _ _ _ => none
  | .sltiu _ _ _ => none
  | .xori _ _ _ => none
  | .ori _ _ _ => none
  | .andi _ _ _ => none
  | .slli _ _ _ => none
  | .srli _ _ _ => none
  | .srai _ _ _ => none
  | .addiw _ _ _ => none
  | .slliw _ _ _ => none
  | .srliw _ _ _ => none
  | .sraiw _ _ _ => none
  | .lb _ _ _ => some .loadAccessFault
  | .lh _ _ _ => some .loadAccessFault
  | .lw _ _ _ => some .loadAccessFault
  | .ld _ _ _ => some .loadAccessFault
  | .lbu _ _ _ => some .loadAccessFault
  | .lhu _ _ _ => some .loadAccessFault
  | .lwu _ _ _ => some .loadAccessFault
  | .sb _ _ _ => some .storeAccessFault
  | .sh _ _ _ => some .storeAccessFault
  | .sw _ _ _ => some .storeAccessFault
  | .sd _ _ _ => some .storeAccessFault
  | .beq _ _ _ => some .instructionAddressMisaligned
  | .bne _ _ _ => some .instructionAddressMisaligned
  | .blt _ _ _ => some .instructionAddressMisaligned
  | .bge _ _ _ => some .instructionAddressMisaligned
  | .bltu _ _ _ => some .instructionAddressMisaligned
  | .bgeu _ _ _ => some .instructionAddressMisaligned
  | .jal _ _ => some .instructionAddressMisaligned
  | .jalr _ _ _ => some .instructionAddressMisaligned
  | .lui _ _ => none
  | .auipc _ _ => none
  | .ecall _ _ _ => some .environmentCallFromMMode
  | .ebreak _ _ _ => some .breakpoint
  | .mul _ _ _ => none
  | .mulh _ _ _ => none
  | .mulhsu _ _ _ => none
  | .mulhu _ _ _ => none
  | .div _ _ _ => none
  | .divu _ _ _ => none
  | .rem _ _ _ => none
  | .remu _ _ _ => none
  | .mulw _ _ _ => none
  | .divw _ _ _ => none
  | .divuw _ _ _ => none
  | .remw _ _ _ => none
  | .remuw _ _ _ => none

/-- The number the `n` bytes from address `a` upward spell, the byte at `a` least significant (R60). -/
def littleEndian (m : Memory) (a : Nat) : Nat → Nat
  | 0 => 0
  | n + 1 => (m.readByte a).toNat + 256 * littleEndian m (a + 1) n

/-- An access of `n` bytes at address `a` is legal in the device the bus routes it to (R54, R70): `a` and
`a + n` lie in the ROM, or both in the DRAM. (The two ranges are disjoint, so a window that starts in ROM
can be legal only there.) -/
def LegalWindow (s : State) (a n : Nat) : Prop :=
  (Config.romBase ≤ a ∧ a + n < Config.romBase + s.params.romSize.bytes) ∨
    (Config.dramBase ≤ a ∧ a + n < Config.dramBase + s.params.dramSize)

/-- A write of `n` bytes at address `a` succeeds: the window lies in DRAM (R54, R58, R71). -/
def DramWindow (s : State) (a n : Nat) : Prop :=
  Config.dramBase ≤ a ∧ a + n < Config.dramBase + s.params.dramSize

/-- An outcome with `g` applied to the state it holds, of a next state and of a trap alike. -/
def mapOutcome (g : State → State) : Host.Outcome State Fault Refusal → Host.Outcome State Fault Refusal
  | .next s => .next (g s)
  | .fault (.trapped t s) => .fault (.trapped t (g s))
  | .refused r => .refused r

end Sys2Proof.Machine
end

