-- ==== Sys2Proof/Certificates/Slice0/Obligations.lean ====
section
/-! DEFINITION. The statements for the provers, one definition each; OBLIGATIONS.json lists them with the
rules they formalise. -/

open Sys2Proof Sys2Proof.Machine

/-- Decoding the word of any well-formed instruction gives that instruction back. Derived from R100, R102, R103, R104, R105, R106, R107, R108, R112, R118. -/
def Obligations.DecodeOfEncodeIsTheInstruction : Prop :=
  ∀ i : Instr, i.wf = true → decode (encode i) = .instruction i

/-- A word that decodes to an instruction is the word of that instruction, and the instruction is well-formed. Derived from R100, R102, R103, R104, R105, R106, R107, R108, R112, R118. -/
def Obligations.EncodeOfDecodeIsTheWord : Prop :=
  ∀ (w : IWord) (i : Instr), decode w = .instruction i → i.wf = true ∧ encode i = w

/-- No word matches two rows of the pattern table, so the order of the table changes no result. Derived from R111, R112, R114, R115, R118. The spec draws this inference itself, in R116. -/
def Obligations.NoWordMatchesTwoPatterns : Prop :=
  allClash patterns = true ∧
    patterns.Pairwise (fun p q => ∀ w : IWord, ¬ (p.isMatch w = true ∧ q.isMatch w = true)) ∧
    (∀ p ∈ patterns, ∀ w : IWord, p.isMatch w = true → decode w = .instruction (p.parse w)) ∧
    ∀ ps : List Pattern, ps.Perm patterns → ∀ w : IWord, decodeWith ps w = decode w

/-- Matching a pattern is one mask compare, with the match and mask values of the opcode table. Derived from R111, R114, R115, R118. The spec draws this inference itself, in R113. -/
def Obligations.MatchIsOneMaskCompare : Prop :=
  (∀ p ∈ patterns, ∀ w : IWord, p.isMatch w = (w &&& p.mask == p.value)) ∧
    patterns.map (fun p => (p.value, p.mask)) =
      [(0x00000033#32, 0xFE00707F#32), (0x40000033#32, 0xFE00707F#32), (0x00001033#32, 0xFE00707F#32), (0x00002033#32, 0xFE00707F#32),
        (0x00003033#32, 0xFE00707F#32), (0x00004033#32, 0xFE00707F#32), (0x00005033#32, 0xFE00707F#32), (0x40005033#32, 0xFE00707F#32),
        (0x00006033#32, 0xFE00707F#32), (0x00007033#32, 0xFE00707F#32), (0x0000003B#32, 0xFE00707F#32), (0x4000003B#32, 0xFE00707F#32),
        (0x0000103B#32, 0xFE00707F#32), (0x0000503B#32, 0xFE00707F#32), (0x4000503B#32, 0xFE00707F#32), (0x00000013#32, 0x0000707F#32)] ++
      [(0x00002013#32, 0x0000707F#32), (0x00003013#32, 0x0000707F#32), (0x00004013#32, 0x0000707F#32), (0x00006013#32, 0x0000707F#32),
        (0x00007013#32, 0x0000707F#32), (0x00001013#32, 0xFE00707F#32), (0x00005013#32, 0xFE00707F#32), (0x40005013#32, 0xFE00707F#32),
        (0x0000001B#32, 0x0000707F#32), (0x0000101B#32, 0xFE00707F#32), (0x0000501B#32, 0xFE00707F#32), (0x4000501B#32, 0xFE00707F#32),
        (0x00000003#32, 0x0000707F#32), (0x00001003#32, 0x0000707F#32), (0x00002003#32, 0x0000707F#32), (0x00003003#32, 0x0000707F#32)] ++
      [(0x00004003#32, 0x0000707F#32), (0x00005003#32, 0x0000707F#32), (0x00006003#32, 0x0000707F#32), (0x00000023#32, 0x0000707F#32),
        (0x00001023#32, 0x0000707F#32), (0x00002023#32, 0x0000707F#32), (0x00003023#32, 0x0000707F#32), (0x00000063#32, 0x0000707F#32),
        (0x00001063#32, 0x0000707F#32), (0x00004063#32, 0x0000707F#32), (0x00005063#32, 0x0000707F#32), (0x00006063#32, 0x0000707F#32),
        (0x00007063#32, 0x0000707F#32), (0x0000006F#32, 0x0000007F#32), (0x00000067#32, 0x0000707F#32), (0x00000037#32, 0x0000007F#32)] ++
      [(0x00000017#32, 0x0000007F#32), (0x00000073#32, 0xFFF0707F#32), (0x00100073#32, 0xFFF0707F#32), (0x02000033#32, 0xFE00707F#32),
        (0x02001033#32, 0xFE00707F#32), (0x02002033#32, 0xFE00707F#32), (0x02003033#32, 0xFE00707F#32), (0x02004033#32, 0xFE00707F#32),
        (0x02005033#32, 0xFE00707F#32), (0x02006033#32, 0xFE00707F#32), (0x02007033#32, 0xFE00707F#32), (0x0200003B#32, 0xFE00707F#32),
        (0x0200403B#32, 0xFE00707F#32), (0x0200503B#32, 0xFE00707F#32), (0x0200603B#32, 0xFE00707F#32), (0x0200703B#32, 0xFE00707F#32)]

/-- A word decodes to UNDEF exactly when its fields are those of no row, and executing UNDEF raises IllegalInstruction. Formalises R119. -/
def Obligations.DecodableWordsAreExactlyTheTable : Prop :=
  (∀ w : IWord, decode w = .undef ↔
      ¬ ((opcodeOf w = 0b0110011#7 ∧
            (funct7Of w = 0b0000000#7 ∨ funct7Of w = 0b0000001#7 ∨
              (funct7Of w = 0b0100000#7 ∧ (funct3Of w = 0b000#3 ∨ funct3Of w = 0b101#3)))) ∨
         (opcodeOf w = 0b0111011#7 ∧
            ((funct7Of w = 0b0000000#7 ∧
                (funct3Of w = 0b000#3 ∨ funct3Of w = 0b001#3 ∨ funct3Of w = 0b101#3)) ∨
             (funct7Of w = 0b0100000#7 ∧ (funct3Of w = 0b000#3 ∨ funct3Of w = 0b101#3)) ∨
             (funct7Of w = 0b0000001#7 ∧ funct3Of w ≠ 0b001#3 ∧ funct3Of w ≠ 0b010#3 ∧
                funct3Of w ≠ 0b011#3))) ∨
         (opcodeOf w = 0b0010011#7 ∧
            ((funct3Of w ≠ 0b001#3 ∧ funct3Of w ≠ 0b101#3) ∨ funct7Of w = 0b0000000#7 ∨
              (funct3Of w = 0b101#3 ∧ funct7Of w = 0b0100000#7))) ∨
         (opcodeOf w = 0b0011011#7 ∧
            (funct3Of w = 0b000#3 ∨
              ((funct3Of w = 0b001#3 ∨ funct3Of w = 0b101#3) ∧ funct7Of w = 0b0000000#7) ∨
              (funct3Of w = 0b101#3 ∧ funct7Of w = 0b0100000#7))) ∨
         (opcodeOf w = 0b0000011#7 ∧ funct3Of w ≠ 0b111#3) ∨
         (opcodeOf w = 0b0100011#7 ∧ (funct3Of w).toNat < 4) ∨
         (opcodeOf w = 0b1100011#7 ∧ funct3Of w ≠ 0b010#3 ∧ funct3Of w ≠ 0b011#3) ∨
         opcodeOf w = 0b1101111#7 ∨
         (opcodeOf w = 0b1100111#7 ∧ funct3Of w = 0b000#3) ∨
         opcodeOf w = 0b0110111#7 ∨
         opcodeOf w = 0b0010111#7 ∨
         (opcodeOf w = 0b1110011#7 ∧ funct3Of w = 0b000#3 ∧
            (w.extractLsb' 20 12 = 0x000#12 ∨ w.extractLsb' 20 12 = 0x001#12)))) ∧
    decode 0x00000000#32 = .undef ∧ decode 0xFFFFFFFF#32 = .undef ∧
    ∀ s : State, s.xlen = .x64 → execute .undef s = .fault (.trapped .illegalInstruction s)

/-- Every row's opcode ends in 11, and a word whose low two bits are not 11 decodes to UNDEF. Derived from R101, R112, R118. The spec draws this inference itself, in R121. -/
def Obligations.LowBitsNotElevenAreUndefined : Prop :=
  (∀ w : IWord, w.extractLsb' 0 2 ≠ 0b11#2 → decode w = .undef) ∧
    (∀ p ∈ patterns, p.value.extractLsb' 0 2 = 0b11#2) ∧
    ∀ (b0 b1 b2 b3 : Byte) (rest : List Byte),
      decodeBytes (b0 :: b1 :: b2 :: b3 :: rest) = some (decode (wordOfBytes b0 b1 b2 b3), rest)

/-- The six shift-immediate instructions are told apart by word[31:25], and a 64-bit shift by 32 to 63 is UNDEF. Formalises R114. -/
def Obligations.ShiftImmediatesAreToldApartBySevenBits : Prop :=
  ∀ w : IWord,
    (opcodeOf w = 0b0010011#7 → funct3Of w = 0b001#3 →
      decode w = if w.extractLsb' 25 7 = 0x00#7 then .instruction (.slli (rdOf w) (rs1Of w) (immIOf w)) else .undef) ∧
    (opcodeOf w = 0b0010011#7 → funct3Of w = 0b101#3 →
      decode w = if w.extractLsb' 25 7 = 0x00#7 then .instruction (.srli (rdOf w) (rs1Of w) (immIOf w))
        else if w.extractLsb' 25 7 = 0x20#7 then .instruction (.srai (rdOf w) (rs1Of w) (immIOf w)) else .undef) ∧
    (opcodeOf w = 0b0011011#7 → funct3Of w = 0b001#3 →
      decode w = if w.extractLsb' 25 7 = 0x00#7 then .instruction (.slliw (rdOf w) (rs1Of w) (immIOf w)) else .undef) ∧
    (opcodeOf w = 0b0011011#7 → funct3Of w = 0b101#3 →
      decode w = if w.extractLsb' 25 7 = 0x00#7 then .instruction (.srliw (rdOf w) (rs1Of w) (immIOf w))
        else if w.extractLsb' 25 7 = 0x20#7 then .instruction (.sraiw (rdOf w) (rs1Of w) (immIOf w)) else .undef)

/-- ECALL and EBREAK are told apart by the immediate alone; rd and rs1 are not compared. Formalises R115. -/
def Obligations.EcallAndEbreakIgnoreRegisterFields : Prop :=
  ∀ w : IWord, opcodeOf w = 0b1110011#7 → funct3Of w = 0b000#3 →
    (w.extractLsb' 20 12 = 0x000#12 → decode w = .instruction (.ecall (rdOf w) (rs1Of w) 0#64)) ∧
    (w.extractLsb' 20 12 = 0x001#12 → decode w = .instruction (.ebreak (rdOf w) (rs1Of w) 1#64))

/-- The decoded immediates are the signed numbers their bit fields spell. Derived from R104, R105, R106, R107, R108, R109. -/
def Obligations.ImmediatesAsIntegers : Prop :=
  ∀ w : IWord,
    (immIOf w).toInt = ((w.extractLsb' 20 11).toNat : Int) - 2048 * ((w.extractLsb' 31 1).toNat : Int) ∧
    (immSOf w).toInt = 32 * ((w.extractLsb' 25 6).toNat : Int) + ((w.extractLsb' 7 5).toNat : Int)
      - 2048 * ((w.extractLsb' 31 1).toNat : Int) ∧
    (immBOf w).toInt = 2048 * ((w.extractLsb' 7 1).toNat : Int) + 32 * ((w.extractLsb' 25 6).toNat : Int)
      + 2 * ((w.extractLsb' 8 4).toNat : Int) - 4096 * ((w.extractLsb' 31 1).toNat : Int) ∧
    (immJOf w).toInt = 4096 * ((w.extractLsb' 12 8).toNat : Int) + 2048 * ((w.extractLsb' 20 1).toNat : Int)
      + 2 * ((w.extractLsb' 21 10).toNat : Int) - 1048576 * ((w.extractLsb' 31 1).toNat : Int) ∧
    (immUOf w).toNat = w.toNat / 4096

/-- Words written out from the encoding tables decode to the instructions they stand for. Derived from R103, R104, R105, R106, R107, R108, R118, 95_test_vectors.md section 2. -/
def Obligations.ListedWordsDecode : Prop :=
  decode 0x00C38AB3#32 = .instruction (.add 21 7 12) ∧
    decode 0xFFD38A93#32 = .instruction (.addi 21 7 (-3)) ∧
    decode 0xFFD3BA83#32 = .instruction (.ld 21 7 (-3)) ∧
    decode 0xFEC3BC23#32 = .instruction (.sd 7 12 (-8)) ∧
    decode 0xFEC388E3#32 = .instruction (.beq 7 12 (-16)) ∧
    decode 0x801FFAEF#32 = .instruction (.jal 21 (-2048)) ∧
    decode 0xABCDEAB7#32 = .instruction (.lui 21 0xABCDE) ∧
    decode 0x00100073#32 = .instruction (.ebreak 0 0 1) ∧
    decode 0x02C3CAB3#32 = .instruction (.div 21 7 12)

/-- A step fetches, decodes, executes and ticks the clock, exactly as the cycle function of the spec. Derived from R141, R142, R143, R144, R145, R146, R147, R303, log entry 6. The spec draws this inference itself, in R149. That with XLEN = 32 the fetch still takes place, its fault included, and that every fetched word is then refused, UNDEF included, is the model's reading (log entry 6). -/
def Obligations.StepRunsTheDecodedInstruction : Prop :=
  ∀ s : State,
    (∀ t, s.mmuLoad s.pc .word = .err t → s.params.fetchFaultPolicy = .skip →
      step s = .next { s with pc := s.pc + 4#64 }) ∧
    (∀ t, s.mmuLoad s.pc .word = .err t → s.params.fetchFaultPolicy = .halt →
      step s = .fault (.trapped t s)) ∧
    (∀ r, s.mmuLoad s.pc .word = .refuse r → step s = .refused r) ∧
    (∀ v i, s.mmuLoad s.pc .word = .ok v → s.xlen = .x64 → decode (low32 v) = .instruction i →
      (∀ t, exec i s = .next t → step s = .next { t with clock := t.clock + 1#64 }) ∧
      (∀ r, exec i s = .fault r → step s = .fault r) ∧
      (∀ r, exec i s ≠ .refused r)) ∧
    (∀ v, s.mmuLoad s.pc .word = .ok v → s.xlen = .x64 → decode (low32 v) = .undef →
      step s = .fault (.trapped .illegalInstruction s)) ∧
    (∀ v, s.mmuLoad s.pc .word = .ok v → s.xlen = .x32 → step s = .refused .executeXlen32)

/-- A fetch reads the little-endian word at the pc through the A + S window, at any alignment, and fails as a load. Derived from R54, R55, R60, R62, R80, R141. The spec draws the inferences on the window, the kind of trap and the alignment itself, in R141. -/
def Obligations.FetchReadsTheLittleEndianWordAtThePc : Prop :=
  ∀ s : State, s.mode = .machine → s.params.valid = true →
    (LegalWindow s (s.effectiveAddress s.pc).toNat 4 → ∃ v, s.fetch = .ok v ∧
      low32 v = wordOfBytes (s.mem.readByte (s.effectiveAddress s.pc).toNat)
        (s.mem.readByte ((s.effectiveAddress s.pc).toNat + 1))
        (s.mem.readByte ((s.effectiveAddress s.pc).toNat + 2))
        (s.mem.readByte ((s.effectiveAddress s.pc).toNat + 3))) ∧
    (¬ LegalWindow s (s.effectiveAddress s.pc).toNat 4 → s.fetch = .err .loadAccessFault) ∧
    (s.xlen = .x64 → s.pc.toNat + 4 = Config.dramBase + s.params.dramSize → s.fetch = .err .loadAccessFault)

/-- Under Skip a fetch fault only advances the pc, and the run of faults ends at a fetchable address; under Halt it stops the machine. Derived from R28, R141, R142. The spec draws the inference that the pc reaches a device again itself, in R142. -/
def Obligations.SkippedFetchFaultsReachAFetchableAddress : Prop :=
  ∀ s : State, s.Inv →
    (s.params.fetchFaultPolicy = .skip →
      ∃ k : Nat, k ≤ 4611686018427387904 ∧
        (∀ j, j < k →
          ({ s with pc := s.pc + BitVec.ofNat 64 (4 * j) } : State).fetch = .err .loadAccessFault ∧
          step { s with pc := s.pc + BitVec.ofNat 64 (4 * j) } =
            .next { s with pc := s.pc + BitVec.ofNat 64 (4 * (j + 1)) }) ∧
        Sys2Proof.core.run k s = .next { s with pc := s.pc + BitVec.ofNat 64 (4 * k) } ∧
        ∃ v, ({ s with pc := s.pc + BitVec.ofNat 64 (4 * k) } : State).fetch = .ok v) ∧
    (s.params.fetchFaultPolicy = .halt → ∀ t, s.fetch = .err t → step s = .fault (.trapped t s))

/-- The four preconditions of the spec are refused by name, never trapped. Derived from R13, R24, R57, R76, R144, R151, log entry 6, log entry 7. -/
def Obligations.PreconditionsAreRefused : Prop :=
  (∀ (rf : RegFile) (i : Nat) (v : Word), 32 ≤ i →
      rf.readAt i = .refuse (.registerIndex i) ∧ rf.writeAt i v = .refuse (.registerIndex i)) ∧
    (∀ (rf : RegFile) (i : RegIdx) (v : Word), rf.readAt i.val = .ok (rf.read i) ∧ rf.writeAt i.val v = .ok (rf.write i v)) ∧
    (∀ (d : Device) (m : Memory) (a : Word) (n : AccessSize) (bytes : List Byte), bytes.length ≠ sizeBytes n →
      d.writeRam m a n bytes = .refuse .writeArity ∧ romWrite n bytes = .refuse .writeArity) ∧
    (∀ s : State, s.mode ≠ .machine → step s = .refused .translationUnimplemented) ∧
    (∀ (d : Decoded) (s : State), s.xlen = .x32 → execute d s = .refused .executeXlen32)

/-- A word placed where the next fetch reads is the instruction the next step runs. Derived from R60, R86, R141, R149, log entry 5. -/
def Obligations.PlacedWordIsTheNextInstruction : Prop :=
  ∀ (s : State) (v : Word) (w : IWord), s.mem.wf = true → s.params.valid = true → s.fetch = .ok v →
    step (s.withFetchWord 32 w.toNat) = afterExecute (execute (decode w) (s.withFetchWord 32 w.toNat)) ∧
    s.withFetchWord 32 w.toNat = { s with mem := (s.withFetchWord 32 w.toNat).mem }

/-- The ten 64-bit register-register instructions decode from their rows and complete with the results of their rules. Formalises R161, R162, R163, R164, R165, R166, R167, R168, R169, R170. -/
def Obligations.RegisterRegisterResults : Prop :=
  ∀ row ∈ ([(0x00000033#32, Instr.add, fun a b => a + b),
       (0x40000033#32, Instr.sub, fun a b => a - b),
       (0x00001033#32, Instr.sll, fun a b => a <<< (b.toNat % 64)),
       (0x00002033#32, Instr.slt, fun a b => if a.toInt < b.toInt then 1#64 else 0#64),
       (0x00003033#32, Instr.sltu, fun a b => if a.toNat < b.toNat then 1#64 else 0#64),
       (0x00004033#32, Instr.xor, fun a b => a ^^^ b),
       (0x00005033#32, Instr.srl, fun a b => a >>> (b.toNat % 64)),
       (0x40005033#32, Instr.sra, fun a b => BitVec.ofInt 64 (a.toInt >>> (b.toNat % 64))),
       (0x00006033#32, Instr.or, fun a b => a ||| b),
       (0x00007033#32, Instr.and, fun a b => a &&& b)] :
       List (IWord × (RegIdx → RegIdx → RegIdx → Instr) × (Word → Word → Word))),
    (∀ w : IWord, w &&& 0xFE00707F#32 = row.1 →
      decode w = .instruction (row.2.1 (rdOf w) (rs1Of w) (rs2Of w))) ∧
    ∀ (rd rs1 rs2 : RegIdx) (s : State),
      exec (row.2.1 rd rs1 rs2) s =
        .next { s with x := s.x.write rd (row.2.2 (s.x.read rs1) (s.x.read rs2)), pc := s.pc + 4#64 }

/-- The five 32-bit register-register instructions decode from their rows and complete with the results of their rules. Formalises R171, R172, R173, R174, R175. -/
def Obligations.RegisterRegisterWordResults : Prop :=
  ∀ row ∈ ([(0x0000003B#32, Instr.addw, fun a b => ((a + b).setWidth 32).signExtend 64),
       (0x4000003B#32, Instr.subw, fun a b => ((a - b).setWidth 32).signExtend 64),
       (0x0000103B#32, Instr.sllw, fun a b => ((a <<< (b.toNat % 32)).setWidth 32).signExtend 64),
       (0x0000503B#32, Instr.srlw, fun a b => (a.setWidth 32 >>> (b.toNat % 32)).signExtend 64),
       (0x4000503B#32, Instr.sraw, fun a b => ((a.setWidth 32).sshiftRight (b.toNat % 32)).signExtend 64)] :
       List (IWord × (RegIdx → RegIdx → RegIdx → Instr) × (Word → Word → Word))),
    (∀ w : IWord, w &&& 0xFE00707F#32 = row.1 →
      decode w = .instruction (row.2.1 (rdOf w) (rs1Of w) (rs2Of w))) ∧
    ∀ (rd rs1 rs2 : RegIdx) (s : State),
      exec (row.2.1 rd rs1 rs2) s =
        .next { s with x := s.x.write rd (row.2.2 (s.x.read rs1) (s.x.read rs2)), pc := s.pc + 4#64 }

/-- The nine 64-bit register-immediate instructions decode from their rows and complete with the results of their rules. Formalises R201, R202, R203, R204, R205, R206, R207, R208, R209. -/
def Obligations.RegisterImmediateResults : Prop :=
  ∀ row ∈ ([(0x0000707F#32, 0x00000013#32, Instr.addi, fun a imm => a + imm),
       (0x0000707F#32, 0x00002013#32, Instr.slti, fun a imm => if a.toInt < imm.toInt then 1#64 else 0#64),
       (0x0000707F#32, 0x00003013#32, Instr.sltiu, fun a imm => if a.toNat < imm.toNat then 1#64 else 0#64),
       (0x0000707F#32, 0x00004013#32, Instr.xori, fun a imm => a ^^^ imm),
       (0x0000707F#32, 0x00006013#32, Instr.ori, fun a imm => a ||| imm),
       (0x0000707F#32, 0x00007013#32, Instr.andi, fun a imm => a &&& imm),
       (0xFE00707F#32, 0x00001013#32, Instr.slli, fun a imm => a <<< (imm.toNat % 32)),
       (0xFE00707F#32, 0x00005013#32, Instr.srli, fun a imm => a >>> (imm.toNat % 32)),
       (0xFE00707F#32, 0x40005013#32, Instr.srai, fun a imm => BitVec.ofInt 64 (a.toInt >>> (imm.toNat % 32)))] :
       List (IWord × IWord × (RegIdx → RegIdx → Word → Instr) × (Word → Word → Word))),
    (∀ w : IWord, w &&& row.1 = row.2.1 →
      decode w = .instruction (row.2.2.1 (rdOf w) (rs1Of w) ((w.extractLsb' 20 12).signExtend 64))) ∧
    ∀ (rd rs1 : RegIdx) (imm : Word) (s : State),
      exec (row.2.2.1 rd rs1 imm) s =
        .next { s with x := s.x.write rd (row.2.2.2 (s.x.read rs1) imm), pc := s.pc + 4#64 }

/-- The four 32-bit register-immediate instructions decode from their rows and complete with the results of their rules. Formalises R210, R211, R212, R213. -/
def Obligations.RegisterImmediateWordResults : Prop :=
  ∀ row ∈ ([(0x0000707F#32, 0x0000001B#32, Instr.addiw, fun a imm => ((a + imm).setWidth 32).signExtend 64),
       (0xFE00707F#32, 0x0000101B#32, Instr.slliw, fun a imm => ((a <<< (imm.toNat % 32)).setWidth 32).signExtend 64),
       (0xFE00707F#32, 0x0000501B#32, Instr.srliw, fun a imm => (a.setWidth 32 >>> (imm.toNat % 32)).signExtend 64),
       (0xFE00707F#32, 0x4000501B#32, Instr.sraiw, fun a imm => ((a.setWidth 32).sshiftRight (imm.toNat % 32)).signExtend 64)] :
       List (IWord × IWord × (RegIdx → RegIdx → Word → Instr) × (Word → Word → Word))),
    (∀ w : IWord, w &&& row.1 = row.2.1 →
      decode w = .instruction (row.2.2.1 (rdOf w) (rs1Of w) ((w.extractLsb' 20 12).signExtend 64))) ∧
    ∀ (rd rs1 : RegIdx) (imm : Word) (s : State),
      exec (row.2.2.1 rd rs1 imm) s =
        .next { s with x := s.x.write rd (row.2.2.2 (s.x.read rs1) imm), pc := s.pc + 4#64 }

/-- The seven loads decode from their rows, complete with the extended little-endian value inside a legal window, and trap outside. Formalises R241, R242, R243, R244, R245, R246, R247. -/
def Obligations.LoadResults : Prop :=
  ∀ row ∈ ([(0x00000003#32, Instr.lb, 1, fun v => ((v).setWidth 8).signExtend 64),
       (0x00001003#32, Instr.lh, 2, fun v => ((v).setWidth 16).signExtend 64),
       (0x00002003#32, Instr.lw, 4, fun v => ((v).setWidth 32).signExtend 64),
       (0x00003003#32, Instr.ld, 8, fun v => v),
       (0x00004003#32, Instr.lbu, 1, fun v => ((v).setWidth 8).setWidth 64),
       (0x00005003#32, Instr.lhu, 2, fun v => ((v).setWidth 16).setWidth 64),
       (0x00006003#32, Instr.lwu, 4, fun v => ((v).setWidth 32).setWidth 64)] :
       List (IWord × (RegIdx → RegIdx → Word → Instr) × Nat × (Word → Word))),
    (∀ w : IWord, w &&& 0x0000707F#32 = row.1 →
      decode w = .instruction (row.2.1 (rdOf w) (rs1Of w) ((w.extractLsb' 20 12).signExtend 64))) ∧
    ∀ (rd rs1 : RegIdx) (imm : Word) (s : State), s.mode = .machine → s.params.valid = true →
      (LegalWindow s (s.effectiveAddress (s.x.read rs1 + imm)).toNat row.2.2.1 →
        exec (row.2.1 rd rs1 imm) s =
          .next { s with
            x := s.x.write rd (row.2.2.2 (BitVec.ofNat 64
              (littleEndian s.mem (s.effectiveAddress (s.x.read rs1 + imm)).toNat row.2.2.1))),
            pc := s.pc + 4#64 }) ∧
      (¬ LegalWindow s (s.effectiveAddress (s.x.read rs1 + imm)).toNat row.2.2.1 →
        exec (row.2.1 rd rs1 imm) s = .fault (.trapped .loadAccessFault s))

/-- The four stores decode from their rows, write exactly their bytes inside DRAM's window, and trap on ROM and outside. Derived from R248, R249, R250, R251, log entry 3. That memory stays canonical is the model's (log entry 3). -/
def Obligations.StoreResults : Prop :=
  ∀ row ∈ ([(0x00000023#32, Instr.sb, 1),
       (0x00001023#32, Instr.sh, 2),
       (0x00002023#32, Instr.sw, 4),
       (0x00003023#32, Instr.sd, 8)] :
       List (IWord × (RegIdx → RegIdx → Word → Instr) × Nat)),
    (∀ w : IWord, w &&& 0x0000707F#32 = row.1 →
      decode w = .instruction (row.2.1 (rs1Of w) (rs2Of w)
        ((w.extractLsb' 25 7 ++ w.extractLsb' 7 5 : BitVec 12).signExtend 64))) ∧
    ∀ (rs1 rs2 : RegIdx) (imm : Word) (s : State),
      s.mode = .machine → s.params.valid = true → s.mem.wf = true →
      (DramWindow s (s.effectiveAddress (s.x.read rs1 + imm)).toNat row.2.2 →
        ∃ m : Memory, exec (row.2.1 rs1 rs2 imm) s = .next { s with mem := m, pc := s.pc + 4#64 } ∧
          m.wf = true ∧
          ∀ a : Nat, m.readByte a =
            if (s.effectiveAddress (s.x.read rs1 + imm)).toNat ≤ a ∧
                a < (s.effectiveAddress (s.x.read rs1 + imm)).toNat + row.2.2
            then (s.x.read rs2).extractLsb' (8 * (a - (s.effectiveAddress (s.x.read rs1 + imm)).toNat)) 8
            else s.mem.readByte a) ∧
      (¬ DramWindow s (s.effectiveAddress (s.x.read rs1 + imm)).toNat row.2.2 →
        exec (row.2.1 rs1 rs2 imm) s = .fault (.trapped .storeAccessFault s))

/-- The six branches decode from their rows and set the pc by their condition, with the target check only when taken. Formalises R271, R272, R273, R274, R275, R276. -/
def Obligations.BranchResults : Prop :=
  ∀ row ∈ ([(0x00000063#32, Instr.beq, fun a b => decide (a = b)),
       (0x00001063#32, Instr.bne, fun a b => decide (a ≠ b)),
       (0x00004063#32, Instr.blt, fun a b => decide (a.toInt < b.toInt)),
       (0x00005063#32, Instr.bge, fun a b => decide (b.toInt ≤ a.toInt)),
       (0x00006063#32, Instr.bltu, fun a b => decide (a.toNat < b.toNat)),
       (0x00007063#32, Instr.bgeu, fun a b => decide (b.toNat ≤ a.toNat))] :
       List (IWord × (RegIdx → RegIdx → Word → Instr) × (Word → Word → Bool))),
    (∀ w : IWord, w &&& 0x0000707F#32 = row.1 →
      decode w = .instruction (row.2.1 (rs1Of w) (rs2Of w)
        ((w.extractLsb' 31 1 ++ w.extractLsb' 7 1 ++ w.extractLsb' 25 6 ++ w.extractLsb' 8 4 ++ 0#1 :
          BitVec 13).signExtend 64))) ∧
    ∀ (rs1 rs2 : RegIdx) (imm : Word) (s : State),
      (row.2.2 (s.x.read rs1) (s.x.read rs2) = false →
        exec (row.2.1 rs1 rs2 imm) s = .next { s with pc := s.pc + 4#64 }) ∧
      (row.2.2 (s.x.read rs1) (s.x.read rs2) = true →
        (s.params.checkTargetAlign = false ∨ (s.pc + imm).toNat % 4 = 0) →
        exec (row.2.1 rs1 rs2 imm) s = .next { s with pc := s.pc + imm }) ∧
      (row.2.2 (s.x.read rs1) (s.x.read rs2) = true →
        s.params.checkTargetAlign = true → (s.pc + imm).toNat % 4 ≠ 0 →
        exec (row.2.1 rs1 rs2 imm) s = .fault (.trapped .instructionAddressMisaligned s))

/-- JAL and JALR decode from their rows, link pc + 4 and jump to their target, or trap on a misaligned one. Formalises R277, R278. -/
def Obligations.JumpResults : Prop :=
  (∀ w : IWord, w &&& 0x0000007F#32 = 0x0000006F#32 →
      decode w = .instruction (.jal (rdOf w)
        ((w.extractLsb' 31 1 ++ w.extractLsb' 12 8 ++ w.extractLsb' 20 1 ++ w.extractLsb' 21 10 ++ 0#1 :
          BitVec 21).signExtend 64))) ∧
    (∀ w : IWord, w &&& 0x0000707F#32 = 0x00000067#32 →
      decode w = .instruction (.jalr (rdOf w) (rs1Of w) ((w.extractLsb' 20 12).signExtend 64))) ∧
    (∀ (rd : RegIdx) (imm : Word) (s : State),
      ((s.params.checkTargetAlign = false ∨ (s.pc + imm).toNat % 4 = 0) →
        exec (.jal rd imm) s = .next { s with x := s.x.write rd (s.pc + 4#64), pc := s.pc + imm }) ∧
      (s.params.checkTargetAlign = true → (s.pc + imm).toNat % 4 ≠ 0 →
        exec (.jal rd imm) s = .fault (.trapped .instructionAddressMisaligned s))) ∧
    ∀ (rd rs1 : RegIdx) (imm t : Word) (s : State),
      t = BitVec.ofNat 64 (2 * ((s.x.read rs1 + imm).toNat / 2)) →
      ((s.params.checkTargetAlign = false ∨ t.toNat % 4 = 0) →
        exec (.jalr rd rs1 imm) s = .next { s with x := s.x.write rd (s.pc + 4#64), pc := t }) ∧
      (s.params.checkTargetAlign = true → t.toNat % 4 ≠ 0 →
        exec (.jalr rd rs1 imm) s = .fault (.trapped .instructionAddressMisaligned s))

/-- LUI and AUIPC decode from the opcode alone and complete with the shifted, sign-extended immediate. Formalises R290, R291, R292. -/
def Obligations.UpperImmediateResults : Prop :=
  (∀ w : IWord, w &&& 0x0000007F#32 = 0x00000037#32 →
      decode w = .instruction (.lui (rdOf w) (w.extractLsb' 12 20))) ∧
    (∀ w : IWord, w &&& 0x0000007F#32 = 0x00000017#32 →
      decode w = .instruction (.auipc (rdOf w) (w.extractLsb' 12 20))) ∧
    ∀ (rd : RegIdx) (imm : BitVec 20) (s : State),
      exec (.lui rd imm) s =
        .next { s with x := s.x.write rd (BitVec.ofInt 64 (4096 * imm.toInt)), pc := s.pc + 4#64 } ∧
      exec (.auipc rd imm) s =
        .next { s with x := s.x.write rd (s.pc + BitVec.ofInt 64 (4096 * imm.toInt)), pc := s.pc + 4#64 }

/-- ECALL always traps with EnvironmentCallFromMMode and EBREAK with Breakpoint, in the state they started with. Formalises R301, R302. -/
def Obligations.EcallAndEbreakStopTheMachine : Prop :=
  (∀ w : IWord, w &&& 0xFFF0707F#32 = 0x00000073#32 → decode w = .instruction (.ecall (rdOf w) (rs1Of w) 0#64)) ∧
    (∀ w : IWord, w &&& 0xFFF0707F#32 = 0x00100073#32 → decode w = .instruction (.ebreak (rdOf w) (rs1Of w) 1#64)) ∧
    ∀ (rd rs1 : RegIdx) (imm : Word) (s : State),
      exec (.ecall rd rs1 imm) s = .fault (.trapped .environmentCallFromMMode s) ∧
      exec (.ebreak rd rs1 imm) s = .fault (.trapped .breakpoint s)

/-- A step over a word that no pattern matches stops with IllegalInstruction. Formalises R303. -/
def Obligations.UndefinedWordStopsTheMachine : Prop :=
  (∀ w : IWord, (∀ p ∈ patterns, p.isMatch w = false) → decode w = .undef) ∧
    (∀ (s : State) (v : Word), s.fetch = .ok v → s.xlen = .x64 → (∀ p ∈ patterns, p.isMatch (low32 v) = false) →
      step s = .fault (.trapped .illegalInstruction s)) ∧
    (∀ w ∈ [0x00000000#32, 0xFFFFFFFF#32, 0x0FF0000F#32, 0x30001073#32, 0x02009093#32],
      ∀ p ∈ patterns, p.isMatch w = false) ∧
    (∀ w : IWord, w.extractLsb' 0 2 ≠ 0b11#2 → ∀ p ∈ patterns, p.isMatch w = false) ∧
    ∀ w : IWord, opcodeOf w = 0b0010011#7 → (funct3Of w = 0b001#3 ∨ funct3Of w = 0b101#3) → w.extractLsb' 25 1 = 1#1 →
      ∀ p ∈ patterns, p.isMatch w = false

/-- The five multiply instructions decode from their rows and complete with the low, high or word part of the exact product. Formalises R311, R312, R313, R314, R319. -/
def Obligations.MultiplyResults : Prop :=
  ∀ row ∈ ([(0x02000033#32, Instr.mul, fun a b => BitVec.ofNat 64 (a.toNat * b.toNat)),
       (0x02001033#32, Instr.mulh, fun a b => BitVec.ofInt 64 (a.toInt * b.toInt / 18446744073709551616)),
       (0x02002033#32, Instr.mulhsu, fun a b => BitVec.ofInt 64 (a.toInt * (b.toNat : Int) / 18446744073709551616)),
       (0x02003033#32, Instr.mulhu, fun a b => BitVec.ofNat 64 (a.toNat * b.toNat / 18446744073709551616)),
       (0x0200003B#32, Instr.mulw, fun a b => ((a * b).setWidth 32).signExtend 64)] :
       List (IWord × (RegIdx → RegIdx → RegIdx → Instr) × (Word → Word → Word))),
    (∀ w : IWord, w &&& 0xFE00707F#32 = row.1 →
      decode w = .instruction (row.2.1 (rdOf w) (rs1Of w) (rs2Of w))) ∧
    ∀ (rd rs1 rs2 : RegIdx) (s : State),
      exec (row.2.1 rd rs1 rs2) s =
        .next { s with x := s.x.write rd (row.2.2 (s.x.read rs1) (s.x.read rs2)), pc := s.pc + 4#64 }

/-- The four 64-bit divisions decode from their rows and complete, also by zero and on overflow. Formalises R315, R316, R317, R318. -/
def Obligations.DivideResults : Prop :=
  ∀ row ∈ ([(0x02004033#32, Instr.div, fun a b => if b = 0#64 then 0xFFFFFFFFFFFFFFFF#64 else
          if a = 0x8000000000000000#64 ∧ b = 0xFFFFFFFFFFFFFFFF#64 then 0x8000000000000000#64 else
          BitVec.ofInt 64 (a.toInt.tdiv b.toInt)),
       (0x02005033#32, Instr.divu, fun a b => if b = 0#64 then 0xFFFFFFFFFFFFFFFF#64 else BitVec.ofNat 64 (a.toNat / b.toNat)),
       (0x02006033#32, Instr.rem, fun a b => if b = 0#64 then a else
          if a = 0x8000000000000000#64 ∧ b = 0xFFFFFFFFFFFFFFFF#64 then 0#64 else
          BitVec.ofInt 64 (a.toInt.tmod b.toInt)),
       (0x02007033#32, Instr.remu, fun a b => if b = 0#64 then a else BitVec.ofNat 64 (a.toNat % b.toNat))] :
       List (IWord × (RegIdx → RegIdx → RegIdx → Instr) × (Word → Word → Word))),
    (∀ w : IWord, w &&& 0xFE00707F#32 = row.1 →
      decode w = .instruction (row.2.1 (rdOf w) (rs1Of w) (rs2Of w))) ∧
    ∀ (rd rs1 rs2 : RegIdx) (s : State),
      exec (row.2.1 rd rs1 rs2) s =
        .next { s with x := s.x.write rd (row.2.2 (s.x.read rs1) (s.x.read rs2)), pc := s.pc + 4#64 }

/-- The four 32-bit divisions decode from their rows and complete on the low words, also by zero and on overflow. Formalises R320, R321, R322, R323. -/
def Obligations.DivideWordResults : Prop :=
  ∀ row ∈ ([(0x0200403B#32, Instr.divw, fun a b => if b.setWidth 32 = 0#32 then 0xFFFFFFFFFFFFFFFF#64 else
          if a.setWidth 32 = 0x80000000#32 ∧ b.setWidth 32 = 0xFFFFFFFF#32 then 0xFFFFFFFF80000000#64 else
          (BitVec.ofInt 32 ((a.setWidth 32).toInt.tdiv (b.setWidth 32).toInt)).signExtend 64),
       (0x0200503B#32, Instr.divuw, fun a b => if b.setWidth 32 = 0#32 then 0xFFFFFFFFFFFFFFFF#64 else
          (a.setWidth 32 / b.setWidth 32 : BitVec 32).signExtend 64),
       (0x0200603B#32, Instr.remw, fun a b => if b.setWidth 32 = 0#32 then (a.setWidth 32).signExtend 64 else
          if a.setWidth 32 = 0x80000000#32 ∧ b.setWidth 32 = 0xFFFFFFFF#32 then 0#64 else
          (BitVec.ofInt 32 ((a.setWidth 32).toInt.tmod (b.setWidth 32).toInt)).signExtend 64),
       (0x0200703B#32, Instr.remuw, fun a b => if b.setWidth 32 = 0#32 then (a.setWidth 32).signExtend 64 else
          (a.setWidth 32 % b.setWidth 32 : BitVec 32).signExtend 64)] :
       List (IWord × (RegIdx → RegIdx → RegIdx → Instr) × (Word → Word → Word))),
    (∀ w : IWord, w &&& 0xFE00707F#32 = row.1 →
      decode w = .instruction (row.2.1 (rdOf w) (rs1Of w) (rs2Of w))) ∧
    ∀ (rd rs1 rs2 : RegIdx) (s : State),
      exec (row.2.1 rd rs1 rs2) s =
        .next { s with x := s.x.write rd (row.2.2 (s.x.read rs1) (s.x.read rs2)), pc := s.pc + 4#64 }

/-- Quotient and remainder obey the division law, by zero and on overflow included. Formalises R310. -/
def Obligations.DivisionLaw : Prop :=
  (∀ a b : Word,
      b * divSigned a b + remSigned a b = a ∧ b * divUnsigned a b + remUnsigned a b = a ∧
      (b = 0#64 → divSigned a b = allOnes ∧ divUnsigned a b = allOnes ∧ remSigned a b = a ∧ remUnsigned a b = a) ∧
      (a = minSigned → b = allOnes → divSigned a b = a ∧ remSigned a b = 0#64) ∧
      (b ≠ 0#64 → ¬ (a = minSigned ∧ b = allOnes) →
        (divSigned a b).toInt = a.toInt.tdiv b.toInt ∧
        (remSigned a b).toInt = a.toInt - b.toInt * (divSigned a b).toInt ∧
        (remSigned a b).toInt.natAbs < b.toInt.natAbs ∧
        (0 ≤ a.toInt → 0 ≤ (remSigned a b).toInt) ∧ (a.toInt ≤ 0 → (remSigned a b).toInt ≤ 0)) ∧
      (b ≠ 0#64 → (divUnsigned a b).toNat = a.toNat / b.toNat ∧ (remUnsigned a b).toNat = a.toNat % b.toNat)) ∧
    (∀ a b : Word,
      (b * divSignedW a b + remSignedW a b).setWidth 32 = a.setWidth 32 ∧
      (b * divUnsignedW a b + remUnsignedW a b).setWidth 32 = a.setWidth 32 ∧
      (b.setWidth 32 = 0#32 → divSignedW a b = allOnes ∧ divUnsignedW a b = allOnes ∧
        remSignedW a b = (a.setWidth 32).signExtend 64 ∧ remUnsignedW a b = (a.setWidth 32).signExtend 64) ∧
      ((a.setWidth 32).toInt = -2147483648 → (b.setWidth 32).toInt = -1 →
        divSignedW a b = (a.setWidth 32).signExtend 64 ∧ remSignedW a b = 0#64) ∧
      (b.setWidth 32 ≠ 0#32 → ¬ ((a.setWidth 32).toInt = -2147483648 ∧ (b.setWidth 32).toInt = -1) →
        (divSignedW a b).toInt = (a.setWidth 32).toInt.tdiv (b.setWidth 32).toInt ∧
        (remSignedW a b).toInt = (a.setWidth 32).toInt - (b.setWidth 32).toInt * (divSignedW a b).toInt ∧
        (remSignedW a b).toInt.natAbs < (b.setWidth 32).toInt.natAbs ∧
        (0 ≤ (a.setWidth 32).toInt → 0 ≤ (remSignedW a b).toInt) ∧
        ((a.setWidth 32).toInt ≤ 0 → (remSignedW a b).toInt ≤ 0)) ∧
      (b.setWidth 32 ≠ 0#32 →
        ((divUnsignedW a b).setWidth 32).toNat = (a.setWidth 32).toNat / (b.setWidth 32).toNat ∧
        ((remUnsignedW a b).setWidth 32).toNat = (a.setWidth 32).toNat % (b.setWidth 32).toNat)) ∧
    ∀ c ∈ [Instr.mul, Instr.mulh, Instr.mulhsu, Instr.mulhu, Instr.div, Instr.divu, Instr.rem, Instr.remu, Instr.mulw,
        Instr.divw, Instr.divuw, Instr.remw, Instr.remuw],
      ∀ (rd rs1 rs2 : RegIdx) (s : State), ∃ v : Word,
        exec (c rd rs1 rs2) s = .next { s with x := s.x.write rd v, pc := s.pc + 4#64 }

/-- The high-half multiply and MUL together give the exact 128-bit product. Derived from R311, R312, R313, R314. -/
def Obligations.HighAndLowHalvesMakeTheExactProduct : Prop :=
  ∀ (rd rs1 rs2 : RegIdx) (s lo hs hsu hu : State), rd ≠ 0 →
    exec (.mul rd rs1 rs2) s = .next lo → exec (.mulh rd rs1 rs2) s = .next hs →
    exec (.mulhsu rd rs1 rs2) s = .next hsu → exec (.mulhu rd rs1 rs2) s = .next hu →
    (hs.readX rd).toInt * 18446744073709551616 + ((lo.readX rd).toNat : Int) = (s.readX rs1).toInt * (s.readX rs2).toInt ∧
    (hsu.readX rd).toInt * 18446744073709551616 + ((lo.readX rd).toNat : Int) =
      (s.readX rs1).toInt * ((s.readX rs2).toNat : Int) ∧
    (hu.readX rd).toNat * 18446744073709551616 + (lo.readX rd).toNat = (s.readX rs1).toNat * (s.readX rs2).toNat

/-- A register-register W instruction reads only the low words of its sources and writes a sign-extended word. Derived from R160, R171, R172, R173, R174, R175, R319, R320, R321, R322, R323. -/
def Obligations.WordFormsIgnoreTheUpperHalves : Prop :=
  ∀ c ∈ [Instr.addw, Instr.subw, Instr.sllw, Instr.srlw, Instr.sraw, Instr.mulw, Instr.divw, Instr.divuw, Instr.remw, Instr.remuw],
    ∀ (rd rs1 rs2 : RegIdx) (s s' t t' : State),
      low32 (s.readX rs1) = low32 (s'.readX rs1) → low32 (s.readX rs2) = low32 (s'.readX rs2) →
      exec (c rd rs1 rs2) s = .next t → exec (c rd rs1 rs2) s' = .next t' →
      t.readX rd = t'.readX rd ∧ t.readX rd = (low32 (t.readX rd)).signExtend 64

/-- A register-immediate W instruction reads only the low words of its source and of its immediate and writes a sign-extended word. Derived from R200, R210, R211, R212, R213. -/
def Obligations.WordImmediateFormsIgnoreTheUpperHalf : Prop :=
  ∀ c ∈ [Instr.addiw, Instr.slliw, Instr.srliw, Instr.sraiw],
    ∀ (rd rs1 : RegIdx) (imm imm' : Word) (s s' t t' : State),
      low32 (s.readX rs1) = low32 (s'.readX rs1) → low32 imm = low32 imm' →
      exec (c rd rs1 imm) s = .next t → exec (c rd rs1 imm') s' = .next t' →
      t.readX rd = t'.readX rd ∧ t.readX rd = (low32 (t.readX rd)).signExtend 64

/-- An instruction writes at most its one destination register and the pc, and a store its bytes; nothing else. Derived from R26, R27, R29, R32, R33, R36, R56, R81, R145, R240, R270. The spec draws this inference itself, in R26. -/
def Obligations.EveryInstructionFrame : Prop :=
  ∀ (i : Instr) (s t : State), exec i s = .next t →
    t.params = s.params ∧ t.clock = s.clock ∧ t.f = s.f ∧ t.mode = s.mode ∧ t.xlen = s.xlen ∧
    t.dramImageLen = s.dramImageLen ∧
    (∀ r : RegIdx, destOf i ≠ some r → t.readX r = s.readX r) ∧
    (storeOf i = none → t.mem = s.mem) ∧
    (∀ (n : AccessSize) (rs1 rs2 : RegIdx) (imm : Word), storeOf i = some (n, rs1, rs2, imm) →
      ∀ a : Nat, (a < (s.effectiveAddress (addressOf (s.readX rs1) imm)).toNat ∨
          (s.effectiveAddress (addressOf (s.readX rs1) imm)).toNat + sizeBytes n ≤ a) →
        t.mem.readByte a = s.mem.readByte a) ∧
    (isTakenTransfer i s = false → t.pc = s.pc + 4#64)

/-- A store changes no byte outside the bytes it stores to, and no register. Derived from R56, R81, R240. -/
def Obligations.StoreFrame : Prop :=
  ∀ (i : Instr) (n : AccessSize) (rs1 rs2 : RegIdx) (imm : Word) (s t : State),
    storeOf i = some (n, rs1, rs2, imm) → s.mem.wf = true → exec i s = .next t →
    (∀ a : Nat, (a < (s.effectiveAddress (addressOf (s.readX rs1) imm)).toNat ∨
        (s.effectiveAddress (addressOf (s.readX rs1) imm)).toNat + sizeBytes n ≤ a) →
      t.mem.readByte a = s.mem.readByte a) ∧
    ∀ r : RegIdx, t.readX r = s.readX r

/-- The floating-point file, dram_image_len and the clock influence no step and are never read by a program. Derived from R27, R29, R36, R38, R110. The spec draws the inference for the floating-point file itself, in R27. -/
def Obligations.HiddenStateChangesNoRun : Prop :=
  ∀ (s : State) (f : RegFile) (len c : Word),
    step { s with f := f, dramImageLen := len, clock := s.clock + c } =
      mapOutcome (fun t => { t with f := f, dramImageLen := len, clock := t.clock + c }) (step s)

/-- A device access is legal exactly for B <= A <= B + L - S - 1; a read gives the little-endian bytes or LoadAccessFault. Derived from R52, R54, R55. The spec draws the inference on the reachable window itself, in R59. -/
def Obligations.AccessWindowOfADevice : Prop :=
  ∀ (d : Device) (m : Memory) (a : Word) (n : AccessSize), d.base + d.len + 8 ≤ 18446744073709551616 →
    (d.contains a = true ↔ d.base ≤ a.toNat ∧ a.toNat < d.base + d.len) ∧
    (d.legal a n = (d.contains a && d.contains (a + BitVec.ofNat 64 (sizeBytes n)))) ∧
    (d.legal a n = true ↔ d.base ≤ a.toNat ∧ a.toNat + sizeBytes n + 1 ≤ d.base + d.len) ∧
    (d.legal a n = true → d.read m a n = .ok (BitVec.ofNat 64 (littleEndian m a.toNat (sizeBytes n)))) ∧
    (d.legal a n = false → d.read m a n = .err .loadAccessFault) ∧
    (d.legal a n = true → a.toNat + sizeBytes n ≤ d.base + d.len - 1) ∧
    (a.toNat + sizeBytes n + 1 = d.base + d.len → d.base ≤ a.toNat → d.legal a n = true)

/-- A DRAM write stores all its bytes or gives StoreAccessFault, and a buffer of the wrong length is refused. Derived from R56, R57, log entry 3, log entry 7. That a buffer of the wrong length is refused whatever the address is is the model's reading (log entry 7), and so is the canonical form of memory (log entry 3). -/
def Obligations.DramWriteIsAllOrNothing : Prop :=
  ∀ (d : Device) (m : Memory) (a : Word) (n : AccessSize) (bytes : List Byte), m.wf = true →
    (bytes.length ≠ sizeBytes n → d.writeRam m a n bytes = .refuse .writeArity) ∧
    (bytes.length = sizeBytes n → d.legal a n = false → d.writeRam m a n bytes = .err .storeAccessFault) ∧
    (bytes.length = sizeBytes n → d.legal a n = true →
      ∃ m' : Memory, d.writeRam m a n bytes = .ok m' ∧ m'.wf = true ∧
        (∀ i, (h : i < bytes.length) → m'.readByte (a.toNat + i) = bytes[i]) ∧
        ∀ k : Nat, (k < a.toNat ∨ a.toNat + sizeBytes n ≤ k) → m'.readByte k = m.readByte k)

/-- Every write that reaches ROM fails with StoreAccessFault, whatever its address, size and window. Formalises R58, R71. -/
def Obligations.RomWriteAlwaysFails : Prop :=
  (∀ (n : AccessSize) (bytes : List Byte), bytes.length = sizeBytes n → romWrite n bytes = .err .storeAccessFault) ∧
    ∀ (s : State) (a : Word) (n : AccessSize) (bytes : List Byte), bytes.length = sizeBytes n →
      (s.rom.contains a = true → s.busWrite a n bytes = .err .storeAccessFault) ∧
      (s.rom.contains a = false → s.busWrite a n bytes = s.dram.writeRam s.mem a n bytes)

/-- The bus routes on the first address, DRAM is the fallback, unbacked accesses fault and none is split. Derived from R54, R58, R68, R70, R71. The spec draws this inference itself, in R72. -/
def Obligations.BusRoutingAndItsConsequences : Prop :=
  ∀ (s : State) (a : Word) (n : AccessSize), s.params.valid = true →
    (s.busContains a = true ↔ s.IsBacked a.toNat) ∧
    (s.rom.contains a = true → s.busRead a n = s.rom.read s.mem a n) ∧
    (s.rom.contains a = false → s.busRead a n = s.dram.read s.mem a n) ∧
    (s.busContains a = false → s.busRead a n = .err .loadAccessFault ∧
      ∀ v : Word, s.busWrite a n (disassemble v (sizeBytes n)) = .err .storeAccessFault) ∧
    (s.rom.contains a = true → Config.romBase + s.params.romSize.bytes ≤ a.toNat + sizeBytes n →
      s.busRead a n = .err .loadAccessFault)

/-- The MMU masks the address, translates it, and gives the bus's result unchanged; validate_address checks one address. Formalises R75, R76, R78, R79, R80, R81, R82. -/
def Obligations.MmuMasksTranslatesAndAsksTheBus : Prop :=
  ∀ (s : State) (va v : Word) (n : AccessSize),
    (s.xlen = .x32 → (s.effectiveAddress va).toNat = va.toNat % 4294967296) ∧
    (s.xlen = .x64 → s.effectiveAddress va = va) ∧
    (s.mode = .machine →
      (∀ ea : Word, s.translate ea = .ok ea) ∧
      s.mmuLoad va n = s.busRead (s.effectiveAddress va) n ∧
      (∀ m, s.busWrite (s.effectiveAddress va) n (disassemble v (sizeBytes n)) = .ok m →
        s.memWrite va n v = .ok { s with mem := m }) ∧
      (∀ t, s.busWrite (s.effectiveAddress va) n (disassemble v (sizeBytes n)) = .err t → s.memWrite va n v = .err t) ∧
      s.validateAddress va = .ok (s.busContains (s.effectiveAddress va))) ∧
    (s.mode ≠ .machine →
      (∀ ea : Word, s.translate ea = .refuse .translationUnimplemented) ∧
      s.mmuLoad va n = .refuse .translationUnimplemented ∧
      s.memWrite va n v = .refuse .translationUnimplemented ∧
      s.validateAddress va = .refuse .translationUnimplemented) ∧
    (disassemble v (sizeBytes n)).length = sizeBytes n ∧
    ∀ i, (h : i < (disassemble v (sizeBytes n)).length) → (disassemble v (sizeBytes n))[i] = v.extractLsb' (8 * i) 8

/-- A narrower read after a wider write sees the bytes of the wider value at their little-endian positions. Derived from R55, R56, R60. The spec draws this inference itself, in R61. -/
def Obligations.NarrowReadsSeeTheBytesOfAWideWrite : Prop :=
  ∀ (d : Device) (m m' : Memory) (a : Word) (v : Word) (n r : AccessSize) (k : Nat),
    d.base + d.len + 8 ≤ 18446744073709551616 → m.wf = true →
    d.writeRam m a n (disassemble v (sizeBytes n)) = .ok m' →
    k + sizeBytes r ≤ sizeBytes n → d.legal (a + BitVec.ofNat 64 k) r = true →
    d.read m' (a + BitVec.ofNat 64 k) r = .ok (((v >>> (8 * k)).setWidth (8 * sizeBytes r)).setWidth 64)

/-- A load after a store of the same size at the same address gives the stored value, and one of disjoint bytes is unaffected. Derived from R56, R63, R83. -/
def Obligations.LoadAfterStoreGivesTheStoredValue : Prop :=
  ∀ (s t : State) (a b v : Word) (n r : AccessSize), s.mode = .machine → s.params.valid = true → s.mem.wf = true →
    s.memWrite a n v = .ok t →
    t.memRead a n = .ok ((v.setWidth (8 * sizeBytes n)).setWidth 64) ∧
    (((s.effectiveAddress b).toNat + sizeBytes r ≤ (s.effectiveAddress a).toNat ∨
        (s.effectiveAddress a).toNat + sizeBytes n ≤ (s.effectiveAddress b).toNat) →
      t.memRead b r = s.memRead b r)

/-- Self-modifying code: a word stored right after the store is the instruction the next step runs. Derived from R86, R140, R457. The spec draws this inference itself, in R86 and R457. -/
def Obligations.StoredWordIsTheNextInstruction : Prop :=
  ∀ (s t : State) (v imm : Word) (rs1 rs2 : RegIdx), s.Inv → s.fetch = .ok v →
    decode (low32 v) = .instruction (.sw rs1 rs2 imm) → s.readX rs1 + imm = s.pc + 4#64 → step s = .next t →
    step t = afterExecute (execute (decode (low32 (s.readX rs2))) t)

/-- Every later fetch sees the bytes a store wrote, and all other bytes as they were. Derived from R83, R86. The spec draws this inference itself, in R86. -/
def Obligations.FetchSeesEveryEarlierStore : Prop :=
  ∀ (i : Instr) (n : AccessSize) (rs1 rs2 : RegIdx) (imm : Word) (s t u : State) (v : Word) (k : Nat),
    s.Inv → storeOf i = some (n, rs1, rs2, imm) → exec i s = .next t →
    u.mem = t.mem → u.params = t.params → u.mode = t.mode → u.xlen = t.xlen → u.fetch = .ok v → k < 4 →
    (low32 v).extractLsb' (8 * k) 8 =
      if (s.readX rs1 + imm).toNat ≤ u.pc.toNat + k ∧ u.pc.toNat + k < (s.readX rs1 + imm).toNat + sizeBytes n
      then (s.readX rs2).extractLsb' (8 * (u.pc.toNat + k - (s.readX rs1 + imm).toNat)) 8
      else s.mem.readByte (u.pc.toNat + k)

/-- After creation every field has the value of the reset table. Derived from R39, R450, R453, log entry 2, log entry 4, log entry 5. That the machine at reset is the one with the reference parameters and no image is the model's choice (log entries 2 and 5). -/
def Obligations.ResetState : Prop :=
  State.reset.clock = 0#64 ∧ State.reset.pc = 0x80000000#64 ∧
    (∀ r : RegIdx, State.reset.readX r = 0#64 ∧ State.reset.readF r = 0#64) ∧
    State.reset.mode = .machine ∧ State.reset.xlen = .x64 ∧ (∀ a : Nat, State.reset.mem.readByte a = 0#8) ∧
    State.reset.dramImageLen = 0#64 ∧
    State.reset.params = { romSize := .e000, dramSize := 0x40000000, fetchFaultPolicy := .skip, checkTargetAlign := true,
                           imageLoadZeroesTail := true } ∧
    ∀ (p : Params) (xl : Xlen) (pc0 : Word),
      Boot.init p xl none none pc0 = .next { State.reset with params := p, xlen := xl, pc := pc0 }

/-- An image load copies the image to the device's base, zeroes or keeps the tail, and refuses an image that is too long. Derived from R64, R65, R66, log entry 3. That memory stays canonical is the model's (log entry 3). -/
def Obligations.ImageLoadCopiesAndZeroesTheTail : Prop :=
  ∀ (s : State) (image : List Byte), s.mem.wf = true → s.params.valid = true →
    (s.params.dramSize < image.length → Boot.loadDramImage image s = .refused .imageTooLong) ∧
    (s.params.romSize.bytes < image.length → Boot.loadRomImage image s = .refused .imageTooLong) ∧
    (image.length ≤ s.params.dramSize →
      ∃ m : Memory, Boot.loadDramImage image s = .next { s with mem := m, dramImageLen := BitVec.ofNat 64 image.length } ∧
        m.wf = true ∧
        (∀ k, (h : k < image.length) → m.readByte (Config.dramBase + k) = image[k]) ∧
        (∀ k, image.length ≤ k → k < s.params.dramSize → m.readByte (Config.dramBase + k) =
          if s.params.imageLoadZeroesTail = true then 0#8 else s.mem.readByte (Config.dramBase + k)) ∧
        ∀ a, (a < Config.dramBase ∨ Config.dramBase + s.params.dramSize ≤ a) → m.readByte a = s.mem.readByte a) ∧
    (image.length ≤ s.params.romSize.bytes →
      ∃ m : Memory, Boot.loadRomImage image s = .next { s with mem := m } ∧ m.wf = true ∧
        (∀ k, (h : k < image.length) → m.readByte (Config.romBase + k) = image[k]) ∧
        (∀ k, image.length ≤ k → k < s.params.romSize.bytes → m.readByte (Config.romBase + k) =
          if s.params.imageLoadZeroesTail = true then 0#8 else s.mem.readByte (Config.romBase + k)) ∧
        ∀ a, (a < Config.romBase ∨ Config.romBase + s.params.romSize.bytes ≤ a) → m.readByte a = s.mem.readByte a) ∧
    Boot.clearDramImage s = Boot.loadDramImage [] s ∧ Boot.clearRomImage s = Boot.loadRomImage [] s

/-- Creation with images stages each at its device's base over zeroed buffers and meets the invariant. Derived from R39, R452, R64, R66, log entry 3. That the created state meets the invariant includes the canonical list form, which is the model's (log entry 3). -/
def Obligations.InitStagesBothImages : Prop :=
  ∀ (p : Params) (xl : Xlen) (romImage dramImage : Option (List Byte)) (pc0 : Word), p.valid = true →
    ((romImage.getD []).length ≤ p.romSize.bytes → (dramImage.getD []).length ≤ p.dramSize →
      ∃ m : Memory,
        Boot.init p xl romImage dramImage pc0 =
          .next { params := p, clock := 0#64, pc := pc0, x := RegFile.zero, f := RegFile.zero, mode := .machine, xlen := xl,
                  mem := m, dramImageLen := BitVec.ofNat 64 (dramImage.getD []).length } ∧
        (∀ r : RegIdx, RegFile.zero.read r = 0#64) ∧
        (∀ a, m.readByte a =
          if Config.romBase ≤ a ∧ a < Config.romBase + p.romSize.bytes
          then (romImage.getD []).getD (a - Config.romBase) 0#8
          else if Config.dramBase ≤ a ∧ a < Config.dramBase + p.dramSize
          then (dramImage.getD []).getD (a - Config.dramBase) 0#8 else 0#8) ∧
        ∀ s, xl = .x64 → Boot.init p xl romImage dramImage pc0 = .next s → s.Inv) ∧
    ((p.romSize.bytes < (romImage.getD []).length ∨ p.dramSize < (dramImage.getD []).length) →
      Boot.init p xl romImage dramImage pc0 = .refused .imageTooLong)

/-- Register 0 reads as zero and discards writes, in both files; any other register reads what was written last. Formalises R22, R23, R27. -/
def Obligations.RegisterFilesReadWhatWasWritten : Prop :=
  (∀ (rf : RegFile) (i j : RegIdx) (v : Word),
      rf.read 0 = 0#64 ∧ rf.write 0 v = rf ∧ (i ≠ 0 → (rf.write i v).read i = v) ∧
      (j ≠ i → (rf.write i v).read j = rf.read j)) ∧
    ∀ (s : State) (i j : RegIdx) (v : Word),
      s.readX i = s.x.read i ∧ s.readF i = s.f.read i ∧
      (i ≠ 0 → (s.writeX i v).readX i = v ∧ (s.writeF i v).readF i = v) ∧
      (s.writeX i v).readF j = s.readF j ∧ (s.writeF i v).readX j = s.readX j

/-- The reset state meets the invariant. Derived from R7, R32, R33, R39, log entry 3. The canonical list form is the model's (log entry 3). -/
def Obligations.ResetMeetsTheInvariant : Prop :=
  State.reset.Inv

/-- Every step keeps the invariant. Derived from R7, R32, R33, R34, R54, R58, log entry 3. The canonical list form is the model's (log entry 3). -/
def Obligations.StepKeepsTheInvariant : Prop :=
  ∀ s t : State, s.Inv → step s = .next t → t.Inv

/-- The refused cases are the four of the spec, and none can be reached by a run. Derived from R13, R24, R32, R33, R39, R57, R76, R144, R450, log entry 6, log entry 7. The spec draws this inference itself, in R151. That every fetched word is refused with XLEN = 32, UNDEF included, and that a buffer of the wrong length is refused whatever the address is are the model's readings (log entries 6 and 7). -/
def Obligations.NoStepIsRefusedUnderTheInvariant : Prop :=
  (∀ (s : State) (r : Refusal), s.Inv → step s ≠ .refused r) ∧
    (∀ (s : State) (r : Refusal), step s = .refused r →
      (r = .translationUnimplemented ∧ s.mode ≠ .machine) ∨ (r = .executeXlen32 ∧ s.xlen = .x32)) ∧
    (∀ (rf : RegFile) (i : Nat) (v : Word), 32 ≤ i →
      rf.readAt i = .refuse (.registerIndex i) ∧ rf.writeAt i v = .refuse (.registerIndex i)) ∧
    (∀ (d : Device) (m : Memory) (a : Word) (n : AccessSize) (bytes : List Byte), bytes.length ≠ sizeBytes n →
      d.writeRam m a n bytes = .refuse .writeArity) ∧
    (∀ s : State, s.mode ≠ .machine → step s = .refused .translationUnimplemented) ∧
    (∀ (s : State) (v : Word), s.fetch = .ok v → s.xlen = .x32 → step s = .refused .executeXlen32) ∧
    (∀ (k : Nat) (s : State) (r : Refusal), s.Inv → Sys2Proof.core.run k s ≠ .refused r) ∧
    ∀ (p : Params) (romImage dramImage : Option (List Byte)) (pc0 : Word) (s : State), p.valid = true →
      Boot.init p .x64 romImage dramImage pc0 = .next s →
      ∀ (k : Nat) (r : Refusal), Sys2Proof.core.run k s ≠ .refused r

/-- Every stop is a trap of one of exactly six kinds, with the state the cycle started with. Derived from R55, R56, R58, R142, R147, R270, R301, R302, R303, R402. The spec draws the inferences that traps are precise and of six kinds itself, in R148 and R401. -/
def Obligations.TrapsArePreciseAndOfSixKinds : Prop :=
  (∀ (s : State) (r : Fault), step s = .fault r → ∃ t, r = .trapped t s ∧ t ∈ raisedKinds) ∧
    (∀ (s : State) (r : Fault) (k : Nat), step s = .fault r → Sys2Proof.core.run (k + 1) s = .fault r) ∧
    (∀ (i : Instr) (s : State) (r : Fault), exec i s = .fault r →
      ∃ t, trapOf i = some t ∧ r = .trapped t s ∧ t ∈ raisedKinds) ∧
    ∀ t ∈ raisedKinds, ∃ s : State, s.Inv ∧ step s = .fault (.trapped t s)

/-- No step changes a byte of ROM, the last byte of DRAM, or any address outside DRAM. Derived from R34, R54, R58, R86. The spec draws the inference on the last byte itself, in R59. -/
def Obligations.OnlyReachableDramBytesChange : Prop :=
  ∀ (s t : State) (a : Nat), s.Inv → step s = .next t →
    (a < Config.dramBase ∨ Config.dramBase + s.params.dramSize ≤ a + 1) →
    t.mem.readByte a = s.mem.readByte a

/-- With the target check on, an aligned pc stays aligned. Derived from R28, R141, R270. -/
def Obligations.PcStaysFourAligned : Prop :=
  ∀ s t : State, s.params.checkTargetAlign = true → s.pcAligned → step s = .next t → t.pcAligned

/-- The clock goes up by one modulo 2^64 for a completed execute and not for a skipped fetch, and no program reads it. Formalises R29, R146. -/
def Obligations.ClockCountsCompletedExecutes : Prop :=
  (∀ s t : State, step s = .next t →
      ((∃ v, s.fetch = .ok v) → t.clock = s.clock + 1#64) ∧ ((∃ e, s.fetch = .err e) → t.clock = s.clock)) ∧
    ∀ (i : Instr) (s : State) (c : Word),
      exec i { s with clock := c } = mapOutcome (fun t => { t with clock := c }) (exec i s) ∧
      ∀ t, exec i s = .next t → t.clock = s.clock

/-- No step changes the privilege mode, the address-width mode or a parameter. Derived from R6, R27, R32, R33, R36, R75, log entry 2. That the parameters are held in State, and that the machine at reset has XLEN = 64, is the model's choice (log entry 2). -/
def Obligations.ModeWidthAndParametersNeverChange : Prop :=
  (∀ s t : State, step s = .next t →
      t.mode = s.mode ∧ t.xlen = s.xlen ∧ t.params = s.params ∧ t.f = s.f ∧ t.dramImageLen = s.dramImageLen) ∧
    State.reset.mode = .machine ∧ State.reset.xlen = .x64 ∧
    (∀ (s : State) (va : Word), s.xlen = .x32 → s.effectiveAddress va = (va.setWidth 32).setWidth 64) ∧
    ∀ (s : State) (va : Word), s.xlen = .x64 → s.effectiveAddress va = va

/-- The trap kinds have the classes and codes of the enumeration table. Derived from R400, 92_eei_decisions.md D22. -/
def Obligations.TrapCodes : Prop :=
  ([.instructionAddressMisaligned, .instructionAccessFault, .illegalInstruction, .breakpoint, .loadAddressMisaligned,
      .loadAccessFault, .storeAMOAddressMisaligned, .storeAccessFault, .environmentCallFromUMode, .environmentCallFromSMode,
      .environmentCallFromMMode, .instructionPageFault, .loadPageFault, .storeAMOPageFault] : List Trap).map
        (fun t => (t.isInterrupt, t.code)) =
      [(false, 0), (false, 1), (false, 2), (false, 3), (false, 4), (false, 5), (false, 6), (false, 7), (false, 8), (false, 9),
        (false, 11), (false, 12), (false, 13), (false, 15)] ∧
    ([.userSoftwareInterrupt, .supervisorSoftwareInterrupt, .machineSoftwareInterrupt, .userTimerInterrupt,
      .supervisorTimerInterrupt, .machineTimerInterrupt, .userExternalInterrupt, .supervisorExternalInterrupt,
      .machineExternalInterrupt] : List Trap).map (fun t => (t.isInterrupt, t.code)) =
      [(true, 0), (true, 1), (true, 3), (true, 4), (true, 5), (true, 7), (true, 8), (true, 9), (true, 11)]

/-- The two instructions of the call pseudo-instruction jump to pc + off and link the address after them. Derived from R123, R278, R292. -/
def Obligations.CallExpansionReachesItsTarget : Prop :=
  ∀ (s : State) (off : Word), -2147483648 ≤ off.toInt + 2048 → off.toInt + 2048 < 2147483648 →
    (s.pc + off).toNat % 4 = 0 →
    expand (.call off) = [.auipc 1 (hi20 off), .jalr 1 1 (lo12 off)] ∧
    ∃ t : State, exec (.auipc 1 (hi20 off)) s = .next t ∧
      exec (.jalr 1 1 (lo12 off)) t = .next { s with x := s.x.write 1 (s.pc + 8#64), pc := s.pc + off }
end

