-- ==== Sys2Proof/Laws/Memory.lean ====
section
/-! SUPPORT. Byte memory: every operation keeps the canonical form; what a read gives after each of them; and
the little-endian assembly and disassembly of values. -/

namespace Sys2Proof.Machine

/-! ### The canonical form -/

/-- The lower bound of a canonical list may be taken lower. -/
theorem wfAbove_weaken {lo k : Option Nat} {m : Memory} (h : Memory.wfAbove k m = true)
    (hle : ∀ l, lo = some l → ∃ j, k = some j ∧ l ≤ j) : Memory.wfAbove lo m = true := by
  cases m with
  | nil => rfl
  | cons c rest =>
    obtain ⟨a, b⟩ := c
    cases lo with
    | none => cases k <;> simp_all [Memory.wfAbove]
    | some l =>
      obtain ⟨j, rfl, hj⟩ := hle l rfl
      simp only [Memory.wfAbove, Bool.and_eq_true, decide_eq_true_eq] at h ⊢
      exact ⟨⟨by omega, h.1.2⟩, h.2⟩

theorem wf_of_wfAbove {k : Nat} {m : Memory} (h : Memory.wfAbove (some k) m = true) : m.wf = true :=
  wfAbove_weaken h (by simp)

theorem wfAbove_cons {lo : Option Nat} {k : Nat} {b : Byte} {rest : Memory} :
    Memory.wfAbove lo ((k, b) :: rest) = true ↔
      (∀ l, lo = some l → l < k) ∧ b ≠ 0#8 ∧ Memory.wfAbove (some k) rest = true := by
  cases lo <;> simp [Memory.wfAbove, and_assoc]

/-- Below the bound of a canonical list every address reads as 0. -/
theorem readByte_of_wfAbove {m : Memory} {l a : Nat} (h : Memory.wfAbove (some l) m = true) (ha : a ≤ l) :
    m.readByte a = 0#8 := by
  induction m generalizing l with
  | nil => rfl
  | cons c rest ih =>
    obtain ⟨k, b⟩ := c
    rw [wfAbove_cons] at h
    have hk := h.1 l rfl
    simp only [Memory.readByte]
    rw [if_neg (by omega)]
    exact ih h.2.2 (by omega)

theorem wfAbove_consByte {lo : Option Nat} {a : Nat} {b : Byte} {m : Memory}
    (hlo : ∀ l, lo = some l → l < a) (h : Memory.wfAbove (some a) m = true) :
    Memory.wfAbove lo (Memory.consByte a b m) = true := by
  unfold Memory.consByte
  split
  · exact wfAbove_weaken h (fun l hl => ⟨a, rfl, (hlo l hl).le⟩)
  · exact wfAbove_cons.2 ⟨hlo, ‹_›, h⟩

theorem readByte_consByte {a k : Nat} {b : Byte} {m : Memory} (h : Memory.wfAbove (some a) m = true) :
    (Memory.consByte a b m).readByte k = if k = a then b else m.readByte k := by
  unfold Memory.consByte
  split
  · subst b
    split
    · subst k; exact readByte_of_wfAbove h le_rfl
    · rfl
  · simp only [Memory.readByte, eq_comm]

theorem wfAbove_writeByte {m : Memory} {lo : Option Nat} {a : Nat} (b : Byte)
    (h : Memory.wfAbove lo m = true) (hlo : ∀ l, lo = some l → l < a) :
    Memory.wfAbove lo (m.writeByte a b) = true := by
  induction m generalizing lo with
  | nil => exact wfAbove_consByte hlo rfl
  | cons c rest ih =>
    obtain ⟨k, d⟩ := c
    have h' := wfAbove_cons.1 h
    simp only [Memory.writeByte]
    split
    · exact wfAbove_consByte hlo (wfAbove_cons.2 ⟨by simpa using ‹a < k›, h'.2⟩)
    · split
      · subst a; exact wfAbove_consByte hlo h'.2.2
      · exact wfAbove_cons.2 ⟨h'.1, h'.2.1, ih h'.2.2 (by simp; omega)⟩

/-- A byte store keeps memory canonical. -/
theorem wf_writeByte {m : Memory} (a : Nat) (b : Byte) (h : m.wf = true) : (m.writeByte a b).wf = true :=
  wfAbove_writeByte b h (by simp)

theorem readByte_writeByte_above {m : Memory} {lo : Option Nat} (a k : Nat) (b : Byte)
    (h : Memory.wfAbove lo m = true) :
    (m.writeByte a b).readByte k = if k = a then b else m.readByte k := by
  induction m generalizing lo with
  | nil => exact readByte_consByte rfl
  | cons c rest ih =>
    obtain ⟨j, d⟩ := c
    have h' := wfAbove_cons.1 h
    simp only [Memory.writeByte]
    split
    · exact readByte_consByte (wfAbove_cons.2 ⟨by simpa using ‹a < j›, h'.2⟩)
    · split
      · subst a
        rw [readByte_consByte h'.2.2]
        split
        · rfl
        · simp only [Memory.readByte]; rw [if_neg (by omega)]
      · simp only [Memory.readByte, ih h'.2.2]
        split <;> split <;> first | rfl | omega

/-- A read after a byte store. -/
theorem readByte_writeByte {m : Memory} (a k : Nat) (b : Byte) (h : m.wf = true) :
    (m.writeByte a b).readByte k = if k = a then b else m.readByte k :=
  readByte_writeByte_above a k b h

/-- A byte store leaves every other address as it was, in any list. -/
theorem readByte_writeByte_ne (m : Memory) {a k : Nat} (b : Byte) (h : k ≠ a) :
    (m.writeByte a b).readByte k = m.readByte k := by
  have hcons : ∀ n : Memory, (Memory.consByte a b n).readByte k = n.readByte k := by
    intro n
    unfold Memory.consByte
    split
    · rfl
    · simp [Memory.readByte, Ne.symm h]
  induction m with
  | nil => exact hcons []
  | cons c rest ih =>
    simp only [Memory.writeByte]
    split
    · exact hcons _
    · split
      · next e => rw [hcons, Memory.readByte, if_neg (e ▸ Ne.symm h)]
      · simp only [Memory.readByte, ih]

/-- A multi-byte store leaves every address outside its bytes as it was, in any list. -/
theorem readByte_writeBytes_outside (m : Memory) {a k : Nat} (bs : List Byte) (h : k < a ∨ a + bs.length ≤ k) :
    (m.writeBytes a bs).readByte k = m.readByte k := by
  induction bs generalizing m a with
  | nil => rfl
  | cons b rest ih =>
    simp only [List.length_cons] at h
    rw [Memory.writeBytes, ih _ (by omega), readByte_writeByte_ne _ _ (by omega)]

/-- A multi-byte store keeps memory canonical. -/
theorem wf_writeBytes {m : Memory} (a : Nat) (bs : List Byte) (h : m.wf = true) : (m.writeBytes a bs).wf = true := by
  induction bs generalizing m a with
  | nil => exact h
  | cons b rest ih => exact ih (a + 1) (wf_writeByte a b h)

/-- A read after a multi-byte store. -/
theorem readByte_writeBytes {m : Memory} (a k : Nat) (bs : List Byte) (h : m.wf = true) :
    (m.writeBytes a bs).readByte k =
      if a ≤ k ∧ k < a + bs.length then bs.getD (k - a) 0#8 else m.readByte k := by
  induction bs generalizing m a with
  | nil => simp only [Memory.writeBytes, List.length_nil]; rw [if_neg (by omega)]
  | cons b rest ih =>
    simp only [Memory.writeBytes, List.length_cons]
    rw [ih (a + 1) (wf_writeByte a b h), readByte_writeByte a k b h]
    by_cases hk : k = a
    · subst k; simp
    · by_cases hin : a + 1 ≤ k ∧ k < a + 1 + rest.length
      · rw [if_pos hin, if_pos (by omega)]
        obtain ⟨j, rfl⟩ : ∃ j, k = a + 1 + j := ⟨k - (a + 1), by omega⟩
        simp [show a + 1 + j - a = j + 1 by omega]
      · rw [if_neg hin, if_neg hk, if_neg (by omega)]

theorem wfAbove_filter {m : Memory} {lo : Option Nat} (p : Host.Cell → Bool) (h : Memory.wfAbove lo m = true) :
    Memory.wfAbove lo (m.filter p) = true := by
  induction m generalizing lo with
  | nil => rfl
  | cons c rest ih =>
    obtain ⟨k, b⟩ := c
    have h' := wfAbove_cons.1 h
    simp only [List.filter_cons]
    split
    · exact wfAbove_cons.2 ⟨h'.1, h'.2.1, ih h'.2.2⟩
    · exact wfAbove_weaken (ih h'.2.2) (fun l hl => ⟨k, rfl, (h'.1 l hl).le⟩)

/-- Zeroing a range keeps memory canonical. -/
theorem wf_zeroRange {m : Memory} (lo hi : Nat) (h : m.wf = true) : (m.zeroRange lo hi).wf = true :=
  wfAbove_filter _ h

/-- A read after zeroing a range. -/
theorem readByte_zeroRange (m : Memory) (lo hi a : Nat) :
    (m.zeroRange lo hi).readByte a = if lo ≤ a ∧ a < hi then 0#8 else m.readByte a := by
  induction m with
  | nil => simp [Memory.zeroRange, Memory.readByte]
  | cons c rest ih =>
    obtain ⟨k, b⟩ := c
    simp only [Memory.zeroRange, List.filter_cons] at ih ⊢
    by_cases hin : lo ≤ k ∧ k < hi
    · rw [if_neg (by simp [hin]), ih]
      simp only [Memory.readByte]
      split
      · rfl
      · rw [if_neg (by rintro rfl; exact absurd hin ‹_›)]
    · rw [if_pos (by simp only [Bool.not_eq_true', Bool.and_eq_false_iff, decide_eq_false_iff_not]; omega)]
      simp only [Memory.readByte, ih]
      split
      · subst k; rw [if_neg hin]
      · rfl

/-- Two canonical memories that read the same everywhere are the same list. -/
theorem memory_ext {m n : Memory} (hm : m.wf = true) (hn : n.wf = true) (h : ∀ a, m.readByte a = n.readByte a) :
    m = n := by
  suffices key : ∀ lo lo', Memory.wfAbove lo m = true → Memory.wfAbove lo' n = true → m = n from key _ _ hm hn
  clear hm hn
  induction m generalizing n with
  | nil =>
    intro _ lo' _ hn
    cases n with
    | nil => rfl
    | cons c rest =>
      obtain ⟨k, b⟩ := c
      exact absurd (by simpa [Memory.readByte] using (h k).symm) (wfAbove_cons.1 hn).2.1
  | cons c rest ih =>
    intro lo lo' hm hn
    obtain ⟨k, b⟩ := c
    have hm' := wfAbove_cons.1 hm
    cases n with
    | nil => exact absurd (by simpa [Memory.readByte] using h k) hm'.2.1
    | cons c' rest' =>
      obtain ⟨j, d⟩ := c'
      have hn' := wfAbove_cons.1 hn
      have hkj : k = j := by
        rcases Nat.lt_trichotomy k j with hlt | heq | hgt
        · have := h k
          simp only [Memory.readByte, if_true, if_neg (show ¬ j = k by omega)] at this
          exact absurd (this.trans (readByte_of_wfAbove hn'.2.2 hlt.le)) hm'.2.1
        · exact heq
        · have := h j
          simp only [Memory.readByte, if_true, if_neg (show ¬ k = j by omega)] at this
          exact absurd (this.symm.trans (readByte_of_wfAbove hm'.2.2 hgt.le)) hn'.2.1
      subst j
      have hbd : b = d := by simpa [Memory.readByte] using h k
      subst d
      congr 1
      refine ih (fun a => ?_) (some k) (some k) hm'.2.2 hn'.2.2
      by_cases ha : a = k
      · subst a
        rw [readByte_of_wfAbove hm'.2.2 le_rfl, readByte_of_wfAbove hn'.2.2 le_rfl]
      · simpa [Memory.readByte, Ne.symm ha] using h a

/-! ### Listed addresses -/

theorem mem_writeByte {m : Memory} {a : Nat} {b : Byte} {c : Host.Cell} (h : c ∈ m.writeByte a b) :
    c.1 = a ∨ c ∈ m := by
  have hcons : ∀ n : Memory, c ∈ Memory.consByte a b n → c.1 = a ∨ c ∈ n := by
    intro n hn
    unfold Memory.consByte at hn
    split at hn
    · exact .inr hn
    · rcases List.mem_cons.1 hn with rfl | hn
      · exact .inl rfl
      · exact .inr hn
  induction m with
  | nil => exact hcons _ h
  | cons d rest ih =>
    obtain ⟨k, e⟩ := d
    simp only [Memory.writeByte] at h
    split at h
    · exact hcons _ h
    · split at h
      · rcases hcons _ h with h | h
        · exact .inl h
        · exact .inr (List.mem_cons_of_mem _ h)
      · rcases List.mem_cons.1 h with rfl | h
        · exact .inr (List.mem_cons_self ..)
        · rcases ih h with h | h
          · exact .inl h
          · exact .inr (List.mem_cons_of_mem _ h)

/-- An address listed after a multi-byte store was stored to or was listed before. -/
theorem mem_writeBytes {m : Memory} {a : Nat} {bs : List Byte} {c : Host.Cell} (h : c ∈ m.writeBytes a bs) :
    (a ≤ c.1 ∧ c.1 < a + bs.length) ∨ c ∈ m := by
  induction bs generalizing m a with
  | nil => exact .inr h
  | cons b rest ih =>
    rcases ih h with h | h
    · left; simp only [List.length_cons]; omega
    · rcases mem_writeByte h with h | h
      · left; simp only [List.length_cons]; omega
      · exact .inr h

theorem mem_zeroRange {m : Memory} {lo hi : Nat} {c : Host.Cell} (h : c ∈ m.zeroRange lo hi) : c ∈ m :=
  List.mem_of_mem_filter h

/-! ### Values and bytes -/

@[simp] theorem length_readBytes (m : Memory) (a n : Nat) : (m.readBytes a n).length = n := by
  induction n generalizing a with
  | zero => rfl
  | succ n ih => simp [Memory.readBytes, ih]

theorem getD_readBytes (m : Memory) (a n i : Nat) (h : i < n) :
    (m.readBytes a n).getD i 0#8 = m.readByte (a + i) := by
  induction n generalizing a i with
  | zero => omega
  | succ n ih =>
    cases i with
    | zero => simp [Memory.readBytes]
    | succ i =>
      simp only [Memory.readBytes, List.getD_cons_succ]
      rw [ih (a + 1) i (by omega)]
      congr 1; omega

@[simp] theorem length_disassemble (v : Word) (n : Nat) : (disassemble v n).length = n := by simp [disassemble]

theorem getElem_disassemble (v : Word) (n i : Nat) (h : i < (disassemble v n).length) :
    (disassemble v n)[i] = v.extractLsb' (8 * i) 8 := by simp [disassemble]

theorem getD_disassemble (v : Word) (n i : Nat) (h : i < n) :
    (disassemble v n).getD i 0#8 = v.extractLsb' (8 * i) 8 := by
  rw [List.getD_eq_getElem _ _ (by simpa using h), getElem_disassemble]

/-- Bit i of an assembled value is bit i mod 8 of byte i / 8 (R55). -/
theorem getLsbD_assemble (bs : List Byte) (i : Nat) (hi : i < 64) :
    (assemble bs).getLsbD i = (bs.getD (i / 8) 0#8).getLsbD (i % 8) := by
  induction bs generalizing i with
  | nil => simp [assemble]
  | cons b rest ih =>
    simp only [assemble, BitVec.getLsbD_or, BitVec.getLsbD_setWidth, BitVec.getLsbD_shiftLeft]
    by_cases h8 : i < 8
    · simp [h8, hi, Nat.div_eq_of_lt h8, Nat.mod_eq_of_lt h8]
    · rw [ih (i - 8) (by omega)]
      obtain ⟨j, rfl⟩ : ∃ j, i = j + 8 := ⟨i - 8, by omega⟩
      rw [BitVec.getLsbD_of_ge b (j + 8) (by omega)]
      simp [hi]

/-- Assembling the low n bytes of a value gives them zero-extended. -/
theorem assemble_disassemble (v : Word) (n : Nat) :
    assemble (disassemble v n) = (v.setWidth (8 * n)).setWidth 64 := by
  apply BitVec.eq_of_getLsbD_eq
  intro i hi
  rw [getLsbD_assemble _ _ hi, BitVec.getLsbD_setWidth, BitVec.getLsbD_setWidth]
  by_cases h : i / 8 < n
  · rw [getD_disassemble _ _ _ h, BitVec.getLsbD_extractLsb']
    have h1 : i % 8 < 8 := Nat.mod_lt _ (by decide)
    have h2 : i < 8 * n := by omega
    simp [h1, h2, hi, Nat.div_add_mod]
  · have h2 : ¬ i < 8 * n := by omega
    rw [List.getD_eq_default _ _ (by simpa using h)]
    simp [h2]

/-- The assembled value of n bytes is the number they spell (R55, R60). -/
theorem assemble_readBytes (m : Memory) (a n : Nat) (hn : n ≤ 8) :
    assemble (m.readBytes a n) = BitVec.ofNat 64 (littleEndian m a n) := by
  suffices key : ∀ n a, n ≤ 8 → (assemble (m.readBytes a n)).toNat = littleEndian m a n ∧
      littleEndian m a n < 256 ^ n by
    have h := key n a hn
    apply BitVec.eq_of_toNat_eq
    rw [h.1, BitVec.toNat_ofNat, Nat.mod_eq_of_lt]
    exact lt_of_lt_of_le h.2 (le_trans (Nat.pow_le_pow_right (by decide) hn) (by decide))
  intro n
  induction n with
  | zero => intro a _; simp [Memory.readBytes, assemble, littleEndian]
  | succ n ih =>
    intro a h
    obtain ⟨h1, h2⟩ := ih (a + 1) (by omega)
    have hb := (m.readByte a).isLt
    have hlt : littleEndian m (a + 1) n * 256 < 18446744073709551616 := by
      have h3 : 256 ^ (n + 1) ≤ 256 ^ 8 := Nat.pow_le_pow_right (by decide) h
      rw [pow_succ] at h3
      have : littleEndian m (a + 1) n * 256 < 256 ^ n * 256 := by omega
      exact lt_of_lt_of_le this (le_trans h3 (by decide))
    refine ⟨?_, ?_⟩
    · simp only [Memory.readBytes, assemble, littleEndian, BitVec.toNat_or, BitVec.toNat_shiftLeft, h1,
        BitVec.toNat_setWidth, Nat.shiftLeft_eq]
      rw [Nat.mod_eq_of_lt (a := (m.readByte a).toNat) (by omega), Nat.mod_eq_of_lt (by simpa using hlt), Nat.or_comm,
        show (2 : Nat) ^ 8 = 256 from rfl, Nat.mul_comm _ 256, show (256 : Nat) = 2 ^ 8 from rfl,
        ← Nat.two_pow_add_eq_or_of_lt (by simpa using hb)]
      omega
    · simp only [littleEndian, pow_succ]; omega

end Sys2Proof.Machine
end

