-- ==== Sys2Proof/Laws/State.lean ====
section
/-! SUPPORT. One lemma per field per named update of State, each true by rfl, so that no later proof unfolds
a record update. -/

namespace Sys2Proof.Machine

section
variable (s : State) (r : RegIdx) (v : Word) (k w : Nat)

@[simp] theorem writeX_params : (s.writeX r v).params = s.params := rfl
@[simp] theorem writeX_clock : (s.writeX r v).clock = s.clock := rfl
@[simp] theorem writeX_pc : (s.writeX r v).pc = s.pc := rfl
@[simp] theorem writeX_x : (s.writeX r v).x = s.x.write r v := rfl
@[simp] theorem writeX_f : (s.writeX r v).f = s.f := rfl
@[simp] theorem writeX_mode : (s.writeX r v).mode = s.mode := rfl
@[simp] theorem writeX_xlen : (s.writeX r v).xlen = s.xlen := rfl
@[simp] theorem writeX_mem : (s.writeX r v).mem = s.mem := rfl
@[simp] theorem writeX_dramImageLen : (s.writeX r v).dramImageLen = s.dramImageLen := rfl

@[simp] theorem writeF_params : (s.writeF r v).params = s.params := rfl
@[simp] theorem writeF_clock : (s.writeF r v).clock = s.clock := rfl
@[simp] theorem writeF_pc : (s.writeF r v).pc = s.pc := rfl
@[simp] theorem writeF_x : (s.writeF r v).x = s.x := rfl
@[simp] theorem writeF_f : (s.writeF r v).f = s.f.write r v := rfl
@[simp] theorem writeF_mode : (s.writeF r v).mode = s.mode := rfl
@[simp] theorem writeF_xlen : (s.writeF r v).xlen = s.xlen := rfl
@[simp] theorem writeF_mem : (s.writeF r v).mem = s.mem := rfl
@[simp] theorem writeF_dramImageLen : (s.writeF r v).dramImageLen = s.dramImageLen := rfl

@[simp] theorem advance_params : s.advance.params = s.params := rfl
@[simp] theorem advance_clock : s.advance.clock = s.clock := rfl
@[simp] theorem advance_pc : s.advance.pc = s.pc + 4#64 := rfl
@[simp] theorem advance_x : s.advance.x = s.x := rfl
@[simp] theorem advance_f : s.advance.f = s.f := rfl
@[simp] theorem advance_mode : s.advance.mode = s.mode := rfl
@[simp] theorem advance_xlen : s.advance.xlen = s.xlen := rfl
@[simp] theorem advance_mem : s.advance.mem = s.mem := rfl
@[simp] theorem advance_dramImageLen : s.advance.dramImageLen = s.dramImageLen := rfl

@[simp] theorem tick_params : s.tick.params = s.params := rfl
@[simp] theorem tick_clock : s.tick.clock = s.clock + 1#64 := rfl
@[simp] theorem tick_pc : s.tick.pc = s.pc := rfl
@[simp] theorem tick_x : s.tick.x = s.x := rfl
@[simp] theorem tick_f : s.tick.f = s.f := rfl
@[simp] theorem tick_mode : s.tick.mode = s.mode := rfl
@[simp] theorem tick_xlen : s.tick.xlen = s.xlen := rfl
@[simp] theorem tick_mem : s.tick.mem = s.mem := rfl
@[simp] theorem tick_dramImageLen : s.tick.dramImageLen = s.dramImageLen := rfl

@[simp] theorem withFetchWord_params : (s.withFetchWord k w).params = s.params := rfl
@[simp] theorem withFetchWord_clock : (s.withFetchWord k w).clock = s.clock := rfl
@[simp] theorem withFetchWord_pc : (s.withFetchWord k w).pc = s.pc := rfl
@[simp] theorem withFetchWord_x : (s.withFetchWord k w).x = s.x := rfl
@[simp] theorem withFetchWord_f : (s.withFetchWord k w).f = s.f := rfl
@[simp] theorem withFetchWord_mode : (s.withFetchWord k w).mode = s.mode := rfl
@[simp] theorem withFetchWord_xlen : (s.withFetchWord k w).xlen = s.xlen := rfl
@[simp] theorem withFetchWord_dramImageLen : (s.withFetchWord k w).dramImageLen = s.dramImageLen := rfl
theorem withFetchWord_mem : (s.withFetchWord k w).mem =
    s.mem.writeBytes (s.effectiveAddress s.pc).toNat (bytesOfWord (BitVec.ofNat 32 (w % 2 ^ k))) := rfl

@[simp] theorem rom_base : s.rom.base = Config.romBase := rfl
@[simp] theorem rom_len : s.rom.len = s.params.romSize.bytes := rfl
@[simp] theorem dram_base : s.dram.base = Config.dramBase := rfl
@[simp] theorem dram_len : s.dram.len = s.params.dramSize := rfl

theorem readX_eq : s.readX r = s.x.read r := rfl
theorem readF_eq : s.readF r = s.f.read r := rfl

end

end Sys2Proof.Machine
end

