-- ==== Sys2Proof/Laws/Registers.lean ====
section
/-! SUPPORT. The register files: what a read gives after a write (R22, R23). -/

namespace Sys2Proof.Machine

@[simp] theorem read_zero (rf : RegFile) : rf.read 0 = 0#64 := rfl

@[simp] theorem write_zero (rf : RegFile) (v : Word) : rf.write 0 v = rf := rfl

theorem read_write_same (rf : RegFile) {i : RegIdx} (v : Word) (h : i ≠ 0) : (rf.write i v).read i = v := by
  simp [RegFile.read, RegFile.write, h]

theorem read_write_other (rf : RegFile) {i j : RegIdx} (v : Word) (h : j ≠ i) :
    (rf.write i v).read j = rf.read j := by
  unfold RegFile.read RegFile.write
  split
  · rfl
  · split
    · rfl
    · have : i.val - 1 ≠ j.val - 1 := by
        intro e
        apply h
        apply Fin.ext
        have hi : i.val ≠ 0 := fun c => ‹¬ i = 0› (Fin.ext c)
        have hj : j.val ≠ 0 := fun c => ‹¬ j = 0› (Fin.ext c)
        omega
      exact Vector.getElem_set_ne (slotIndex_lt i) (slotIndex_lt j) this

/-- The one statement about a read after a write: the value for the written register (0 for x0). -/
theorem read_write (rf : RegFile) (i j : RegIdx) (v : Word) :
    (rf.write i v).read j = if j = i ∧ i ≠ 0 then v else rf.read j := by
  by_cases h : j = i
  · subst h
    by_cases hz : j = 0
    · subst hz; simp
    · simp [read_write_same rf v hz, hz]
  · simp [read_write_other rf v h, h]

@[simp] theorem read_zeroFile (r : RegIdx) : RegFile.zero.read r = 0#64 := by
  unfold RegFile.read RegFile.zero
  split <;> simp

theorem writeAt_of_lt (rf : RegFile) (i : RegIdx) (v : Word) : rf.writeAt i.val v = .ok (rf.write i v) := by
  simp [RegFile.writeAt, i.isLt]

theorem readAt_of_lt (rf : RegFile) (i : RegIdx) : rf.readAt i.val = .ok (rf.read i) := by
  simp [RegFile.readAt, i.isLt]

end Sys2Proof.Machine
end

