-- ==== Sys2Proof/Laws/Access.lean ====
section
/-! SUPPORT. Devices, bus and MMU: one spec lemma for each, in terms of the address as a number. -/

namespace Sys2Proof.Machine

theorem sizeBytes_pos (n : AccessSize) : 1 ≤ sizeBytes n := by cases n <;> decide

theorem sizeBytes_le (n : AccessSize) : sizeBytes n ≤ 8 := by cases n <;> decide

theorem valid_iff (p : Params) : p.valid = true ↔
    1 ≤ p.dramSize ∧ Config.dramBase + p.dramSize + 8 ≤ 18446744073709551616 := by
  simp [Params.valid]

theorem romSize_le (r : RomSize) : r.bytes ≤ 0xF000 := by cases r <;> decide

theorem romSize_ge (r : RomSize) : 0xE000 ≤ r.bytes := by cases r <;> decide

/-! ### Devices (R52, R54, R55, R59) -/

theorem contains_iff (d : Device) (a : Word) :
    d.contains a = true ↔ d.base ≤ a.toNat ∧ a.toNat < d.base + d.len := by
  simp [Device.contains]

/-- The A + S window as numbers: no sum wraps in a device that ends 8 or more below 2^64. -/
theorem legal_iff (d : Device) (a : Word) (n : AccessSize) (hd : d.base + d.len + 8 ≤ 18446744073709551616) :
    d.legal a n = true ↔ d.base ≤ a.toNat ∧ a.toNat + sizeBytes n < d.base + d.len := by
  have h1 := sizeBytes_le n
  simp only [Device.legal, Bool.and_eq_true, contains_iff, BitVec.toNat_add, BitVec.toNat_ofNat]
  omega

theorem read_of_legal {d : Device} {m : Memory} {a : Word} {n : AccessSize} (h : d.legal a n = true) :
    d.read m a n = .ok (BitVec.ofNat 64 (littleEndian m a.toNat (sizeBytes n))) := by
  simp [Device.read, h, assemble_readBytes _ _ _ (sizeBytes_le n)]

theorem read_of_illegal {d : Device} {m : Memory} {a : Word} {n : AccessSize} (h : d.legal a n = false) :
    d.read m a n = .err .loadAccessFault := by simp [Device.read, h]

/-! ### The bus (R68 to R72) -/

theorem rom_contains_iff (s : State) (a : Word) : s.rom.contains a = true ↔
    Config.romBase ≤ a.toNat ∧ a.toNat < Config.romBase + s.params.romSize.bytes := contains_iff _ _

theorem dram_contains_iff (s : State) (a : Word) : s.dram.contains a = true ↔
    Config.dramBase ≤ a.toNat ∧ a.toNat < Config.dramBase + s.params.dramSize := contains_iff _ _

theorem rom_legal_iff (s : State) (a : Word) (n : AccessSize) : s.rom.legal a n = true ↔
    Config.romBase ≤ a.toNat ∧ a.toNat + sizeBytes n < Config.romBase + s.params.romSize.bytes := by
  refine legal_iff _ _ _ ?_
  have := romSize_le s.params.romSize
  simp only [State.rom, Config.romBase]
  omega

theorem dram_legal_iff (s : State) (a : Word) (n : AccessSize) (hp : s.params.valid = true) :
    s.dram.legal a n = true ↔
      Config.dramBase ≤ a.toNat ∧ a.toNat + sizeBytes n < Config.dramBase + s.params.dramSize :=
  legal_iff _ _ _ ((valid_iff _).1 hp).2

/-- A bus read inside a legal window. -/
theorem busRead_ok {s : State} {a : Word} {n : AccessSize} (hp : s.params.valid = true)
    (h : LegalWindow s a.toNat (sizeBytes n)) :
    s.busRead a n = .ok (BitVec.ofNat 64 (littleEndian s.mem a.toNat (sizeBytes n))) := by
  unfold State.busRead
  have h1 := romSize_le s.params.romSize
  rcases h with h | h
  · rw [if_pos ((rom_contains_iff s a).2 ⟨h.1, by omega⟩)]
    exact read_of_legal ((rom_legal_iff s a n).2 h)
  · rw [if_neg]
    · exact read_of_legal ((dram_legal_iff s a n hp).2 h)
    · rw [rom_contains_iff]
      simp only [Config.romBase, Config.dramBase] at *
      omega

/-- A bus read outside every legal window. -/
theorem busRead_err {s : State} {a : Word} {n : AccessSize} (hp : s.params.valid = true)
    (h : ¬ LegalWindow s a.toNat (sizeBytes n)) : s.busRead a n = .err .loadAccessFault := by
  rw [LegalWindow, not_or] at h
  unfold State.busRead
  split
  · exact read_of_illegal (Bool.eq_false_iff.2 fun c => h.1 ((rom_legal_iff s a n).1 c))
  · exact read_of_illegal (Bool.eq_false_iff.2 fun c => h.2 ((dram_legal_iff s a n hp).1 c))

/-- What a bus write of a buffer of the right length can do, in one statement. -/
theorem busWrite_eq {s : State} {a : Word} {n : AccessSize} {bytes : List Byte} (hp : s.params.valid = true)
    (hl : bytes.length = sizeBytes n) :
    (DramWindow s a.toNat (sizeBytes n) → s.busWrite a n bytes = .ok (s.mem.writeBytes a.toNat bytes)) ∧
      (¬ DramWindow s a.toNat (sizeBytes n) → s.busWrite a n bytes = .err .storeAccessFault) := by
  have h1 := romSize_le s.params.romSize
  unfold DramWindow State.busWrite
  by_cases hr : s.rom.contains a = true
  · have hr' := (rom_contains_iff s a).1 hr
    simp only [Config.romBase] at hr'
    refine ⟨fun h => ?_, fun _ => ?_⟩
    · simp only [Config.dramBase] at h; omega
    · simp [hr, romWrite, hl]
  · rw [if_neg hr]
    refine ⟨fun h => ?_, fun h => ?_⟩
    · simp [Device.writeRam, hl, (dram_legal_iff s a n hp).2 h]
    · have : s.dram.legal a n = false := Bool.eq_false_iff.2 fun c => h ((dram_legal_iff s a n hp).1 c)
      simp [Device.writeRam, hl, this]

/-! ### The MMU (R75 to R82) -/

theorem translate_machine {s : State} (h : s.mode = .machine) (ea : Word) : s.translate ea = .ok ea := by
  simp [State.translate, h]

theorem translate_other {s : State} (h : s.mode ≠ .machine) (ea : Word) :
    s.translate ea = .refuse .translationUnimplemented := by
  unfold State.translate
  split <;> simp_all

theorem effectiveAddress_x64 {s : State} (h : s.xlen = .x64) (va : Word) : s.effectiveAddress va = va := by
  simp [State.effectiveAddress, h]

theorem effectiveAddress_x32 {s : State} (h : s.xlen = .x32) (va : Word) :
    s.effectiveAddress va = (va.setWidth 32).setWidth 64 := by
  simp only [State.effectiveAddress, h]
  apply BitVec.eq_of_toNat_eq
  rw [BitVec.toNat_and]
  have := Nat.and_two_pow_sub_one_eq_mod va.toNat 32
  simp only [BitVec.toNat_setWidth, BitVec.toNat_ofNat]
  norm_num at this ⊢
  omega

theorem mmuLoad_machine {s : State} (h : s.mode = .machine) (va : Word) (n : AccessSize) :
    s.mmuLoad va n = s.busRead (s.effectiveAddress va) n := by
  simp [State.mmuLoad, translate_machine h]

theorem mmuLoad_other {s : State} (h : s.mode ≠ .machine) (va : Word) (n : AccessSize) :
    s.mmuLoad va n = .refuse .translationUnimplemented := by
  simp [State.mmuLoad, translate_other h]

/-- A load never changes what it reads for by anything but memory, parameters and the MMU's modes. -/
theorem mmuLoad_congr {s t : State} (hm : t.mem = s.mem) (hp : t.params = s.params) (hmode : t.mode = s.mode)
    (hx : t.xlen = s.xlen) (va : Word) (n : AccessSize) : t.mmuLoad va n = s.mmuLoad va n := by
  simp only [State.mmuLoad, State.translate, State.effectiveAddress, State.busRead, State.rom, State.dram,
    hm, hp, hmode, hx]
  rfl

/-- `MemRead` in Machine mode inside and outside the window. -/
theorem memRead_ok {s : State} {va : Word} {n : AccessSize} (hmode : s.mode = .machine)
    (hp : s.params.valid = true) (h : LegalWindow s (s.effectiveAddress va).toNat (sizeBytes n)) :
    s.memRead va n = .ok (BitVec.ofNat 64 (littleEndian s.mem (s.effectiveAddress va).toNat (sizeBytes n))) := by
  rw [State.memRead, mmuLoad_machine hmode, busRead_ok hp h]

theorem memRead_err {s : State} {va : Word} {n : AccessSize} (hmode : s.mode = .machine)
    (hp : s.params.valid = true) (h : ¬ LegalWindow s (s.effectiveAddress va).toNat (sizeBytes n)) :
    s.memRead va n = .err .loadAccessFault := by
  rw [State.memRead, mmuLoad_machine hmode, busRead_err hp h]

/-- `MemWrite` in Machine mode inside and outside the window. -/
theorem memWrite_ok {s : State} {va v : Word} {n : AccessSize} (hmode : s.mode = .machine)
    (hp : s.params.valid = true) (h : DramWindow s (s.effectiveAddress va).toNat (sizeBytes n)) :
    s.memWrite va n v =
      .ok { s with mem := s.mem.writeBytes (s.effectiveAddress va).toNat (disassemble v (sizeBytes n)) } := by
  rw [State.memWrite, State.mmuStore, translate_machine hmode]
  simp only []
  rw [(busWrite_eq hp (length_disassemble v _)).1 h]

theorem memWrite_err {s : State} {va v : Word} {n : AccessSize} (hmode : s.mode = .machine)
    (hp : s.params.valid = true) (h : ¬ DramWindow s (s.effectiveAddress va).toNat (sizeBytes n)) :
    s.memWrite va n v = .err .storeAccessFault := by
  rw [State.memWrite, State.mmuStore, translate_machine hmode]
  simp only []
  rw [(busWrite_eq hp (length_disassemble v _)).2 h]

theorem memWrite_other {s : State} (h : s.mode ≠ .machine) (va v : Word) (n : AccessSize) :
    s.memWrite va n v = .refuse .translationUnimplemented := by
  simp [State.memWrite, State.mmuStore, translate_other h]

/-! ### The fetched word (R60, R141) -/

theorem toNat_append_eq {n m : Nat} (a : BitVec n) (b : BitVec m) :
    (a ++ b).toNat = a.toNat * 2 ^ m + b.toNat := by
  rw [BitVec.toNat_append, Nat.shiftLeft_eq, Nat.mul_comm, ← Nat.two_pow_add_eq_or_of_lt b.isLt]

/-- The low 32 bits of four bytes read little-endian are the word of those bytes. -/
theorem low32_littleEndian (m : Memory) (a : Nat) : low32 (BitVec.ofNat 64 (littleEndian m a 4)) =
    wordOfBytes (m.readByte a) (m.readByte (a + 1)) (m.readByte (a + 2)) (m.readByte (a + 3)) := by
  apply BitVec.eq_of_toNat_eq
  rw [wordOfBytes, toNat_append_eq, toNat_append_eq, toNat_append_eq, low32]
  simp only [littleEndian, BitVec.extractLsb'_toNat, BitVec.toNat_ofNat, Nat.add_assoc]
  have h0 := (m.readByte a).isLt
  have h1 := (m.readByte (a + 1)).isLt
  have h2 := (m.readByte (a + 2)).isLt
  have h3 := (m.readByte (a + 3)).isLt
  norm_num at *
  omega

/-! ### What an access can answer, whatever the state -/

/-- Every MMU load answers a value, LoadAccessFault, or a refusal outside Machine mode. -/
theorem mmuLoad_cases (s : State) (va : Word) (n : AccessSize) :
    (∃ v, s.mmuLoad va n = .ok v) ∨ s.mmuLoad va n = .err .loadAccessFault ∨
      (s.mode ≠ .machine ∧ s.mmuLoad va n = .refuse .translationUnimplemented) := by
  by_cases h : s.mode = .machine
  · rw [mmuLoad_machine h]
    unfold State.busRead Device.read
    split <;> split <;> simp
  · exact .inr (.inr ⟨h, mmuLoad_other h va n⟩)

/-- Every store of a value's low bytes answers the state with exactly those bytes stored in DRAM,
StoreAccessFault, or a refusal outside Machine mode. -/
theorem memWrite_cases (s : State) (va v : Word) (n : AccessSize) :
    (s.mode = .machine ∧ s.rom.contains (s.effectiveAddress va) = false ∧
      s.dram.legal (s.effectiveAddress va) n = true ∧ s.memWrite va n v =
        .ok { s with mem := s.mem.writeBytes (s.effectiveAddress va).toNat (disassemble v (sizeBytes n)) }) ∨
      s.memWrite va n v = .err .storeAccessFault ∨
      (s.mode ≠ .machine ∧ s.memWrite va n v = .refuse .translationUnimplemented) := by
  by_cases h : s.mode = .machine
  · rw [State.memWrite, State.mmuStore, translate_machine h]
    simp only [State.busWrite, romWrite, Device.writeRam, length_disassemble, ne_eq, not_true, if_false]
    by_cases hr : s.rom.contains (s.effectiveAddress va) = true
    · simp [hr]
    · by_cases hl : s.dram.legal (s.effectiveAddress va) n = true
      · left; simp [hl, h, Bool.eq_false_iff.2 hr]
      · simp [hr, hl]
  · exact .inr (.inr ⟨h, memWrite_other h va v n⟩)

end Sys2Proof.Machine
end

