-- ==== Sys2Proof/Laws/Boot.lean ====
section
/-! SUPPORT. The image loads the host makes before the first cycle (R64 to R66): one spec lemma for the
load of any device. -/

namespace Sys2Proof.Machine

theorem wf_loadImage (d : Device) (z : Bool) {m : Memory} (image : List Byte) (hw : m.wf = true) :
    (d.loadImage z m image).wf = true := by
  unfold Device.loadImage
  split
  · exact wf_writeBytes _ _ (wf_zeroRange _ _ hw)
  · exact wf_writeBytes _ _ hw

/-- The three parts of memory after an image load: the image, the device's tail, and every other address. -/
theorem readByte_loadImage (d : Device) (z : Bool) {m : Memory} (image : List Byte) (hw : m.wf = true) (a : Nat) :
    (d.base ≤ a → a < d.base + image.length → (d.loadImage z m image).readByte a = image.getD (a - d.base) 0#8) ∧
      (d.base + image.length ≤ a → a < d.base + d.len →
        (d.loadImage z m image).readByte a = if z = true then 0#8 else m.readByte a) ∧
      ((a < d.base ∨ d.base + d.len ≤ a) → image.length ≤ d.len →
        (d.loadImage z m image).readByte a = m.readByte a) := by
  have hz : (if z then m.zeroRange (d.base + image.length) (d.base + d.len) else m).wf = true := by
    split
    · exact wf_zeroRange _ _ hw
    · exact hw
  simp only [Device.loadImage, readByte_writeBytes _ _ _ hz]
  refine ⟨fun h1 h2 => if_pos ⟨h1, h2⟩, fun h1 h2 => ?_, fun h1 h2 => ?_⟩ <;> rw [if_neg (by omega)]
  · cases z with
    | false => rfl
    | true => simp only [if_true, readByte_zeroRange]; rw [if_pos ⟨h1, h2⟩]
  · cases z with
    | false => rfl
    | true => simp only [if_true, readByte_zeroRange]; rw [if_neg (by omega)]

/-- An image load lists only bytes listed before and bytes of its device. -/
theorem mem_loadImage {d : Device} {z : Bool} {m : Memory} {image : List Byte} {c : Host.Cell}
    (h : c ∈ d.loadImage z m image) (hl : image.length ≤ d.len) :
    c ∈ m ∨ (d.base ≤ c.1 ∧ c.1 < d.base + d.len) := by
  unfold Device.loadImage at h
  rcases mem_writeBytes h with h | h
  · right; omega
  · split at h
    · exact .inl (mem_zeroRange h)
    · exact .inl h

theorem loadRomImage_ok {s : State} {image : List Byte} (h : image.length ≤ s.params.romSize.bytes) :
    Boot.loadRomImage image s =
      .next { s with mem := s.rom.loadImage s.params.imageLoadZeroesTail s.mem image } := by
  rw [Boot.loadRomImage, if_neg]
  simp only [rom_len]; omega

theorem loadRomImage_long {s : State} {image : List Byte} (h : s.params.romSize.bytes < image.length) :
    Boot.loadRomImage image s = .refused .imageTooLong := by
  rw [Boot.loadRomImage, if_pos]
  simpa only [rom_len] using h

theorem loadDramImage_ok {s : State} {image : List Byte} (h : image.length ≤ s.params.dramSize) :
    Boot.loadDramImage image s =
      .next { s with mem := s.dram.loadImage s.params.imageLoadZeroesTail s.mem image
                     dramImageLen := BitVec.ofNat 64 image.length } := by
  rw [Boot.loadDramImage, if_neg]
  simp only [dram_len]; omega

theorem loadDramImage_long {s : State} {image : List Byte} (h : s.params.dramSize < image.length) :
    Boot.loadDramImage image s = .refused .imageTooLong := by
  rw [Boot.loadDramImage, if_pos]
  simpa only [dram_len] using h

end Sys2Proof.Machine
end

