-- ==== Sys2Proof/Laws/Decode.lean ====
section
/-! SUPPORT. The decoder and the encoder: which field of an encoded word is what, the mask form of each
format's match, and that the first pattern that matches is the only one. -/

namespace Sys2Proof

/-! ### Register fields -/

@[simp] theorem regOfBits_bitsOfReg (r : RegIdx) : regOfBits (bitsOfReg r) = r := by
  apply Fin.ext
  have := r.isLt
  simp only [regOfBits, bitsOfReg, BitVec.toNat_ofNat]
  omega

@[simp] theorem bitsOfReg_regOfBits (b : BitVec 5) : bitsOfReg (regOfBits b) = b := by
  apply BitVec.eq_of_toNat_eq
  have := b.isLt
  simp only [regOfBits, bitsOfReg, BitVec.toNat_ofNat]
  omega

/-! ### Fields of encoded words -/

section
variable (op : BitVec 7) (f3 : BitVec 3) (f7 : BitVec 7) (rd rs1 rs2 : RegIdx) (imm : Word) (imm20 : BitVec 20)

theorem encodeR_fields : opcodeOf (encodeR op f3 f7 rd rs1 rs2) = op ∧
    funct3Of (encodeR op f3 f7 rd rs1 rs2) = f3 ∧ funct7Of (encodeR op f3 f7 rd rs1 rs2) = f7 ∧
    rdOf (encodeR op f3 f7 rd rs1 rs2) = rd ∧ rs1Of (encodeR op f3 f7 rd rs1 rs2) = rs1 ∧
    rs2Of (encodeR op f3 f7 rd rs1 rs2) = rs2 := by
  have key : ∀ (a b c : BitVec 5), let w : IWord := f7 ++ a ++ b ++ f3 ++ c ++ op
      w.extractLsb' 0 7 = op ∧ w.extractLsb' 12 3 = f3 ∧ w.extractLsb' 25 7 = f7 ∧ w.extractLsb' 7 5 = c ∧
        w.extractLsb' 15 5 = b ∧ w.extractLsb' 20 5 = a := by
    intro a b c
    refine ⟨?_, ?_, ?_, ?_, ?_, ?_⟩ <;>
      (apply BitVec.eq_of_getLsbD_eq; intro i hi
       simp only [BitVec.getLsbD_extractLsb', BitVec.getLsbD_append]; grind)
  obtain ⟨h1, h2, h3, h4, h5, h6⟩ := key (bitsOfReg rs2) (bitsOfReg rs1) (bitsOfReg rd)
  refine ⟨h1, h2, h3, ?_, ?_, ?_⟩
  · rw [rdOf, encodeR, h4, regOfBits_bitsOfReg]
  · rw [rs1Of, encodeR, h5, regOfBits_bitsOfReg]
  · rw [rs2Of, encodeR, h6, regOfBits_bitsOfReg]

theorem encodeI_fields : opcodeOf (encodeI op f3 rd rs1 imm) = op ∧ funct3Of (encodeI op f3 rd rs1 imm) = f3 ∧
    rdOf (encodeI op f3 rd rs1 imm) = rd ∧ rs1Of (encodeI op f3 rd rs1 imm) = rs1 ∧
    immIOf (encodeI op f3 rd rs1 imm) = (imm.setWidth 12).signExtend 64 := by
  have key : ∀ (a : BitVec 12) (b c : BitVec 5), let w : IWord := a ++ b ++ f3 ++ c ++ op
      w.extractLsb' 0 7 = op ∧ w.extractLsb' 12 3 = f3 ∧ w.extractLsb' 7 5 = c ∧ w.extractLsb' 15 5 = b ∧
        w.extractLsb' 20 12 = a := by
    intro a b c
    refine ⟨?_, ?_, ?_, ?_, ?_⟩ <;>
      (apply BitVec.eq_of_getLsbD_eq; intro i hi
       simp only [BitVec.getLsbD_extractLsb', BitVec.getLsbD_append]; grind)
  obtain ⟨h1, h2, h4, h5, h6⟩ := key (imm.extractLsb' 0 12) (bitsOfReg rs1) (bitsOfReg rd)
  refine ⟨h1, h2, ?_, ?_, ?_⟩
  · rw [rdOf, encodeI, h4, regOfBits_bitsOfReg]
  · rw [rs1Of, encodeI, h5, regOfBits_bitsOfReg]
  · rw [immIOf, encodeI, h6]
    congr 1

theorem encodeS_fields : opcodeOf (encodeS op f3 rs1 rs2 imm) = op ∧ funct3Of (encodeS op f3 rs1 rs2 imm) = f3 ∧
    rs1Of (encodeS op f3 rs1 rs2 imm) = rs1 ∧ rs2Of (encodeS op f3 rs1 rs2 imm) = rs2 ∧
    immSOf (encodeS op f3 rs1 rs2 imm) = (imm.setWidth 12).signExtend 64 := by
  have key : ∀ (a b : BitVec 5), let w : IWord := imm.extractLsb' 5 7 ++ a ++ b ++ f3 ++ imm.extractLsb' 0 5 ++ op
      w.extractLsb' 0 7 = op ∧ w.extractLsb' 12 3 = f3 ∧ w.extractLsb' 15 5 = b ∧ w.extractLsb' 20 5 = a ∧
        (w.extractLsb' 25 7 ++ w.extractLsb' 7 5 : BitVec 12) = imm.setWidth 12 := by
    intro a b
    refine ⟨?_, ?_, ?_, ?_, ?_⟩ <;>
      (apply BitVec.eq_of_getLsbD_eq; intro i hi
       simp only [BitVec.getLsbD_extractLsb', BitVec.getLsbD_append, BitVec.getLsbD_setWidth]; grind)
  obtain ⟨h1, h2, h5, h6, h7⟩ := key (bitsOfReg rs2) (bitsOfReg rs1)
  refine ⟨h1, h2, ?_, ?_, ?_⟩
  · rw [rs1Of, encodeS, h5, regOfBits_bitsOfReg]
  · rw [rs2Of, encodeS, h6, regOfBits_bitsOfReg]
  · rw [immSOf, immSBits, encodeS, h7]

theorem encodeB_fields (hev : imm.getLsbD 0 = false) : opcodeOf (encodeB op f3 rs1 rs2 imm) = op ∧
    funct3Of (encodeB op f3 rs1 rs2 imm) = f3 ∧
    rs1Of (encodeB op f3 rs1 rs2 imm) = rs1 ∧ rs2Of (encodeB op f3 rs1 rs2 imm) = rs2 ∧
    immBOf (encodeB op f3 rs1 rs2 imm) = (imm.setWidth 13).signExtend 64 := by
  have key : ∀ (a b : BitVec 5), let w : IWord :=
        (imm.extractLsb' 12 1 ++ imm.extractLsb' 5 6 ++ a ++ b ++ f3 ++ imm.extractLsb' 1 4 ++ imm.extractLsb' 11 1 ++ op)
      w.extractLsb' 0 7 = op ∧ w.extractLsb' 12 3 = f3 ∧ w.extractLsb' 15 5 = b ∧ w.extractLsb' 20 5 = a ∧
        (w.extractLsb' 31 1 ++ w.extractLsb' 7 1 ++ w.extractLsb' 25 6 ++ w.extractLsb' 8 4 ++ 0#1 : BitVec 13) =
          imm.setWidth 13 := by
    intro a b
    refine ⟨?_, ?_, ?_, ?_, ?_⟩ <;>
      (apply BitVec.eq_of_getLsbD_eq; intro i hi
       simp only [BitVec.getLsbD_extractLsb', BitVec.getLsbD_append, BitVec.getLsbD_setWidth]; grind)
  obtain ⟨h1, h2, h5, h6, h7⟩ := key (bitsOfReg rs2) (bitsOfReg rs1)
  refine ⟨h1, h2, ?_, ?_, ?_⟩
  · rw [rs1Of, encodeB, h5, regOfBits_bitsOfReg]
  · rw [rs2Of, encodeB, h6, regOfBits_bitsOfReg]
  · rw [immBOf, immBBits, encodeB, h7]

theorem encodeU_fields : opcodeOf (encodeU op rd imm20) = op ∧ rdOf (encodeU op rd imm20) = rd ∧
    immUOf (encodeU op rd imm20) = imm20 := by
  have key : ∀ c : BitVec 5, let w : IWord := imm20 ++ c ++ op
      w.extractLsb' 0 7 = op ∧ w.extractLsb' 7 5 = c ∧ w.extractLsb' 12 20 = imm20 := by
    intro c
    refine ⟨?_, ?_, ?_⟩ <;>
      (apply BitVec.eq_of_getLsbD_eq; intro i hi
       simp only [BitVec.getLsbD_extractLsb', BitVec.getLsbD_append]; grind)
  obtain ⟨h1, h2, h3⟩ := key (bitsOfReg rd)
  exact ⟨h1, by rw [rdOf, encodeU, h2, regOfBits_bitsOfReg], h3⟩

theorem encodeJ_fields (hev : imm.getLsbD 0 = false) : opcodeOf (encodeJ op rd imm) = op ∧
    rdOf (encodeJ op rd imm) = rd ∧ immJOf (encodeJ op rd imm) = (imm.setWidth 21).signExtend 64 := by
  have key : ∀ c : BitVec 5, let w : IWord :=
        (imm.extractLsb' 20 1 ++ imm.extractLsb' 1 10 ++ imm.extractLsb' 11 1 ++ imm.extractLsb' 12 8 ++ c ++ op)
      w.extractLsb' 0 7 = op ∧ w.extractLsb' 7 5 = c ∧
        (w.extractLsb' 31 1 ++ w.extractLsb' 12 8 ++ w.extractLsb' 20 1 ++ w.extractLsb' 21 10 ++ 0#1 : BitVec 21) =
          imm.setWidth 21 := by
    intro c
    refine ⟨?_, ?_, ?_⟩ <;>
      (apply BitVec.eq_of_getLsbD_eq; intro i hi
       simp only [BitVec.getLsbD_extractLsb', BitVec.getLsbD_append, BitVec.getLsbD_setWidth]; grind)
  obtain ⟨h1, h2, h3⟩ := key (bitsOfReg rd)
  exact ⟨h1, by rw [rdOf, encodeJ, h2, regOfBits_bitsOfReg], by rw [immJOf, immJBits, encodeJ, h3]⟩

end

/-- Cutting a sign extension back gives the field. -/
theorem setWidth_signExtend {n : Nat} (b : BitVec n) (h : n ≤ 64) : (b.signExtend 64).setWidth n = b := by
  apply BitVec.eq_of_getLsbD_eq
  intro i hi
  simp only [BitVec.getLsbD_setWidth, BitVec.getLsbD_signExtend]
  simp [hi, show i < 64 by omega]

/-! ### The predicate over the parsed immediate (R114, R115) -/

/-- `imm[11:5]` of the parsed I immediate is word[31:25]. -/
theorem immIOf_upperSeven (w : IWord) : (immIOf w).extractLsb' 5 7 = w.extractLsb' 25 7 := by
  apply BitVec.eq_of_getLsbD_eq
  intro i hi
  simp only [immIOf, BitVec.getLsbD_extractLsb', BitVec.getLsbD_signExtend]
  grind

/-- The parsed I immediate equals a small non-negative literal when word[31:20] does. -/
theorem immIOf_eq_iff (w : IWord) (v : BitVec 12) (hv : v.toNat < 2048) :
    immIOf w = v.setWidth 64 ↔ w.extractLsb' 20 12 = v := by
  have hmsb : v.msb = false := by rw [BitVec.msb_eq_decide]; simp; omega
  have h1 : v.setWidth 64 = v.signExtend 64 := by rw [BitVec.signExtend_eq_setWidth_of_msb_false hmsb]
  rw [immIOf, h1]
  constructor
  · intro h
    have := congrArg (BitVec.setWidth 12) h
    rwa [setWidth_signExtend _ (by decide), setWidth_signExtend _ (by decide)] at this
  · intro h; rw [h]

/-! ### Matching -/

/-- The fields a pattern compares, as one mask compare: equal masked words have equal fields. -/
theorem masked_fields (w : IWord) :
    (∀ v : IWord, w &&& 0xFE00707F#32 = v ↔ v = (w.extractLsb' 25 7 ++ 0#10 ++ w.extractLsb' 12 3 ++ 0#5 ++ w.extractLsb' 0 7 : IWord)) ∧
    (∀ v : IWord, w &&& 0xFFF0707F#32 = v ↔ v = (w.extractLsb' 20 12 ++ 0#5 ++ w.extractLsb' 12 3 ++ 0#5 ++ w.extractLsb' 0 7 : IWord)) ∧
    (∀ v : IWord, w &&& 0x0000707F#32 = v ↔ v = (0#17 ++ w.extractLsb' 12 3 ++ 0#5 ++ w.extractLsb' 0 7 : IWord)) ∧
    (∀ v : IWord, w &&& 0x0000007F#32 = v ↔ v = (0#25 ++ w.extractLsb' 0 7 : IWord)) := by
  have hm : ∀ (m : IWord) (i : Nat), (w &&& m).getLsbD i = (w.getLsbD i && m.getLsbD i) := by simp
  refine ⟨fun v => ?_, fun v => ?_, fun v => ?_, fun v => ?_⟩ <;>
    (rw [eq_comm (b := v)]
     apply Eq.congr_right
     apply BitVec.eq_of_getLsbD_eq
     intro i hi
     simp only [hm, BitVec.getLsbD_append, BitVec.getLsbD_extractLsb']
     interval_cases i <;> simp)

theorem append_inj5 {a a' : BitVec 7} {b b' : BitVec 3} {c c' : BitVec 7} :
    (a ++ 0#10 ++ b ++ 0#5 ++ c : IWord) = a' ++ 0#10 ++ b' ++ 0#5 ++ c' ↔ a = a' ∧ b = b' ∧ c = c' := by
  have key : ∀ (a : BitVec 7) (b : BitVec 3) (c : BitVec 7), let w : IWord := a ++ 0#10 ++ b ++ 0#5 ++ c
      w.extractLsb' 25 7 = a ∧ w.extractLsb' 12 3 = b ∧ w.extractLsb' 0 7 = c := by
    intro a b c
    refine ⟨?_, ?_, ?_⟩ <;>
      (apply BitVec.eq_of_getLsbD_eq; intro i hi
       simp only [BitVec.getLsbD_extractLsb', BitVec.getLsbD_append]; grind)
  refine ⟨fun h => ?_, fun ⟨h1, h2, h3⟩ => by rw [h1, h2, h3]⟩
  obtain ⟨h1, h2, h3⟩ := key a b c
  obtain ⟨k1, k2, k3⟩ := key a' b' c'
  rw [h] at h1 h2 h3
  exact ⟨h1.symm.trans k1, h2.symm.trans k2, h3.symm.trans k3⟩

theorem append_inj5i {a a' : BitVec 12} {b b' : BitVec 3} {c c' : BitVec 7} :
    (a ++ 0#5 ++ b ++ 0#5 ++ c : IWord) = a' ++ 0#5 ++ b' ++ 0#5 ++ c' ↔ a = a' ∧ b = b' ∧ c = c' := by
  have key : ∀ (a : BitVec 12) (b : BitVec 3) (c : BitVec 7), let w : IWord := a ++ 0#5 ++ b ++ 0#5 ++ c
      w.extractLsb' 20 12 = a ∧ w.extractLsb' 12 3 = b ∧ w.extractLsb' 0 7 = c := by
    intro a b c
    refine ⟨?_, ?_, ?_⟩ <;>
      (apply BitVec.eq_of_getLsbD_eq; intro i hi
       simp only [BitVec.getLsbD_extractLsb', BitVec.getLsbD_append]; grind)
  refine ⟨fun h => ?_, fun ⟨h1, h2, h3⟩ => by rw [h1, h2, h3]⟩
  obtain ⟨h1, h2, h3⟩ := key a b c
  obtain ⟨k1, k2, k3⟩ := key a' b' c'
  rw [h] at h1 h2 h3
  exact ⟨h1.symm.trans k1, h2.symm.trans k2, h3.symm.trans k3⟩

/-- With the upper bits 0 only funct3 and the opcode are left. -/
theorem append_inj3 {b b' : BitVec 3} {c c' : BitVec 7} :
    (0#17 ++ b ++ 0#5 ++ c : IWord) = 0#17 ++ b' ++ 0#5 ++ c' ↔ b = b' ∧ c = c' := by
  have e : ∀ (b : BitVec 3) (c : BitVec 7), (0#17 ++ b ++ 0#5 ++ c : IWord) = 0#7 ++ 0#10 ++ b ++ 0#5 ++ c :=
    fun _ _ => rfl
  rw [e, e, append_inj5]
  simp

theorem append_inj1 {c c' : BitVec 7} : (0#25 ++ c : IWord) = 0#25 ++ c' ↔ c = c' := by
  have e : ∀ c : BitVec 7, (0#25 ++ c : IWord) = 0#7 ++ 0#10 ++ 0#3 ++ 0#5 ++ c := fun _ => rfl
  rw [e, e, append_inj5]
  simp

/-- The literal of an `equals` predicate is non-negative as a 12-bit number; every row of the table is so. -/
def hasSmallLiteral : Pattern → Bool
  | .i _ _ (some (.equals v)) _ => decide (v.toNat < 2048)
  | _ => true

theorem patterns_smallLiterals : patterns.all hasSmallLiteral = true := by decide

/-- One mask compare per pattern (R113), for any pattern whose literal is small. -/
theorem isMatch_iff_mask (p : Pattern) (hp : hasSmallLiteral p = true) (w : IWord) :
    p.isMatch w = true ↔ w &&& p.mask = p.value := by
  obtain ⟨m1, m2, m3, m4⟩ := masked_fields w
  cases p with
  | r op f3 f7 c =>
    simp only [Pattern.isMatch, Pattern.mask, Pattern.value, m1, append_inj5, Bool.and_eq_true, beq_iff_eq,
      opcodeOf, funct3Of, funct7Of]
    grind
  | s op f3 c =>
    simp only [Pattern.isMatch, Pattern.mask, Pattern.value, m3, append_inj3, Bool.and_eq_true, beq_iff_eq,
      opcodeOf, funct3Of]
    grind
  | b op f3 c =>
    simp only [Pattern.isMatch, Pattern.mask, Pattern.value, m3, append_inj3, Bool.and_eq_true, beq_iff_eq,
      opcodeOf, funct3Of]
    grind
  | u op c =>
    simp only [Pattern.isMatch, Pattern.mask, Pattern.value, m4, append_inj1, beq_iff_eq, opcodeOf]
    exact eq_comm
  | j op c =>
    simp only [Pattern.isMatch, Pattern.mask, Pattern.value, m4, append_inj1, beq_iff_eq, opcodeOf]
    exact eq_comm
  | i op f3 q c =>
    match q, hp with
    | none, _ =>
      simp only [Pattern.isMatch, Pattern.mask, Pattern.value, m3, append_inj3, Bool.and_eq_true, beq_iff_eq,
        opcodeOf, funct3Of]
      grind
    | some (.upperSeven v), _ =>
      simp only [Pattern.isMatch, Pattern.mask, Pattern.value, Predicate.holds, m1, append_inj5, Bool.and_eq_true,
        beq_iff_eq, opcodeOf, funct3Of, immIOf_upperSeven]
      grind
    | some (.equals v), hp =>
      simp only [hasSmallLiteral, decide_eq_true_eq] at hp
      simp only [Pattern.isMatch, Pattern.mask, Pattern.value, Predicate.holds, m2, append_inj5i, Bool.and_eq_true,
        beq_iff_eq, opcodeOf, funct3Of, immIOf_eq_iff w v hp]
      grind

/-! ### The first match is the only match -/

/-- The check of R116 is pairwise. -/
theorem allClash_iff (ps : List Pattern) : allClash ps = true ↔ ps.Pairwise (fun p q => p.clash q = true) := by
  induction ps with
  | nil => simp [allClash]
  | cons p rest ih => simp [allClash, ih]

/-- Patterns that clash match no word in common. -/
theorem not_both_of_clash {p q : Pattern} (hp : hasSmallLiteral p = true) (hq : hasSmallLiteral q = true)
    (h : p.clash q = true) (w : IWord) : ¬ (p.isMatch w = true ∧ q.isMatch w = true) := by
  rw [isMatch_iff_mask p hp, isMatch_iff_mask q hq]
  rintro ⟨h1, h2⟩
  simp only [Pattern.clash, bne_iff_ne, ne_eq] at h
  apply h
  rw [← h1, ← h2]
  apply BitVec.eq_of_getLsbD_eq
  intro i hi
  simp only [BitVec.getLsbD_and, BitVec.getLsbD_xor, BitVec.getLsbD_zero]
  cases w.getLsbD i <;> cases p.mask.getLsbD i <;> cases q.mask.getLsbD i <;> rfl

/-- Any two rows of the table clash: 2016 comparisons of numerals. -/
theorem patterns_clash : patterns.Pairwise (fun p q => p.clash q = true) := by decide

/-- In a list of pairwise exclusive patterns, a pattern that matches is the one the scan finds. -/
theorem decodeWith_of_match {ps : List Pattern} {w : IWord} {p : Pattern}
    (hx : ps.Pairwise (fun p q => ¬ (p.isMatch w = true ∧ q.isMatch w = true))) (hp : p ∈ ps)
    (hm : p.isMatch w = true) : decodeWith ps w = .instruction (p.parse w) := by
  induction ps with
  | nil => cases hp
  | cons q rest ih =>
    rw [List.pairwise_cons] at hx
    simp only [decodeWith]
    rcases List.mem_cons.1 hp with rfl | hp'
    · rw [if_pos hm]
    · rw [if_neg (fun c => hx.1 p hp' ⟨c, hm⟩)]
      exact ih hx.2 hp'

theorem decodeWith_of_noMatch {ps : List Pattern} {w : IWord} (h : ∀ p ∈ ps, p.isMatch w = false) :
    decodeWith ps w = .undef := by
  induction ps with
  | nil => rfl
  | cons q rest ih =>
    simp only [decodeWith]
    rw [if_neg (by simp [h q (List.mem_cons_self ..)])]
    exact ih fun p hp => h p (List.mem_cons_of_mem _ hp)

/-- An instruction comes from a pattern of the list that matches. -/
theorem exists_of_decodeWith {ps : List Pattern} {w : IWord} {i : Instr}
    (h : decodeWith ps w = .instruction i) : ∃ p ∈ ps, p.isMatch w = true ∧ p.parse w = i := by
  induction ps with
  | nil => cases h
  | cons q rest ih =>
    simp only [decodeWith] at h
    split at h
    · exact ⟨q, List.mem_cons_self .., ‹_›, by simpa using h⟩
    · obtain ⟨p, hp, h'⟩ := ih h
      exact ⟨p, List.mem_cons_of_mem _ hp, h'⟩

/-- A row that matches decides the decoding (R112, R116). -/
theorem decode_of_match {p : Pattern} {w : IWord} (hp : p ∈ patterns) (hm : p.isMatch w = true) :
    decode w = .instruction (p.parse w) := by
  have hs := List.all_eq_true.1 patterns_smallLiterals
  refine decodeWith_of_match (patterns_clash.imp_of_mem ?_) hp hm
  intro a b ha hb hab
  exact not_both_of_clash (hs a ha) (hs b hb) hab w

/-- A row whose masked value the word has decides the decoding. -/
theorem decode_of_mask {p : Pattern} {w : IWord} (hp : p ∈ patterns) (hm : w &&& p.mask = p.value) :
    decode w = .instruction (p.parse w) :=
  decode_of_match hp ((isMatch_iff_mask p (List.all_eq_true.1 patterns_smallLiterals p hp) w).2 hm)

/-! ### Encoding what was parsed gives the word back -/

theorem encodeR_parse (w : IWord) :
    encodeR (opcodeOf w) (funct3Of w) (funct7Of w) (rdOf w) (rs1Of w) (rs2Of w) = w := by
  simp only [encodeR, opcodeOf, funct3Of, funct7Of, rdOf, rs1Of, rs2Of, bitsOfReg_regOfBits]
  apply BitVec.eq_of_getLsbD_eq
  intro i hi
  simp only [BitVec.getLsbD_extractLsb', BitVec.getLsbD_append]
  grind

theorem encodeI_parse (w : IWord) : encodeI (opcodeOf w) (funct3Of w) (rdOf w) (rs1Of w) (immIOf w) = w := by
  simp only [encodeI, opcodeOf, funct3Of, rdOf, rs1Of, immIOf, bitsOfReg_regOfBits]
  apply BitVec.eq_of_getLsbD_eq
  intro i hi
  simp only [BitVec.getLsbD_extractLsb', BitVec.getLsbD_append, BitVec.getLsbD_signExtend]
  grind

theorem encodeS_parse (w : IWord) : encodeS (opcodeOf w) (funct3Of w) (rs1Of w) (rs2Of w) (immSOf w) = w := by
  simp only [encodeS, opcodeOf, funct3Of, rs1Of, rs2Of, immSOf, immSBits, bitsOfReg_regOfBits]
  apply BitVec.eq_of_getLsbD_eq
  intro i hi
  simp only [BitVec.getLsbD_extractLsb', BitVec.getLsbD_append, BitVec.getLsbD_signExtend]
  grind

theorem encodeB_parse (w : IWord) : encodeB (opcodeOf w) (funct3Of w) (rs1Of w) (rs2Of w) (immBOf w) = w := by
  simp only [encodeB, opcodeOf, funct3Of, rs1Of, rs2Of, immBOf, immBBits, bitsOfReg_regOfBits]
  apply BitVec.eq_of_getLsbD_eq
  intro i hi
  simp only [BitVec.getLsbD_extractLsb', BitVec.getLsbD_append, BitVec.getLsbD_signExtend]
  grind

theorem encodeU_parse (w : IWord) : encodeU (opcodeOf w) (rdOf w) (immUOf w) = w := by
  simp only [encodeU, opcodeOf, rdOf, immUOf, bitsOfReg_regOfBits]
  apply BitVec.eq_of_getLsbD_eq
  intro i hi
  simp only [BitVec.getLsbD_extractLsb', BitVec.getLsbD_append]
  grind

theorem encodeJ_parse (w : IWord) : encodeJ (opcodeOf w) (rdOf w) (immJOf w) = w := by
  simp only [encodeJ, opcodeOf, rdOf, immJOf, immJBits, bitsOfReg_regOfBits]
  apply BitVec.eq_of_getLsbD_eq
  intro i hi
  simp only [BitVec.getLsbD_extractLsb', BitVec.getLsbD_append, BitVec.getLsbD_signExtend]
  grind

/-! ### Bytes -/

/-- A word is put together again from its four bytes (R60). -/
theorem wordOfBytes_bytesOfWord (w : IWord) :
    wordOfBytes (w.extractLsb' 0 8) (w.extractLsb' 8 8) (w.extractLsb' 16 8) (w.extractLsb' 24 8) = w := by
  have key : (w.extractLsb' 24 8 ++ w.extractLsb' 16 8 ++ w.extractLsb' 8 8 ++ w.extractLsb' 0 8 : BitVec (8 + 8 + 8 + 8)) =
      w.setWidth (8 + 8 + 8 + 8) := by
    apply BitVec.eq_of_getLsbD_eq
    intro i hi
    simp only [BitVec.getLsbD_append, BitVec.getLsbD_extractLsb', BitVec.getLsbD_setWidth]
    grind
  exact key.trans (BitVec.setWidth_eq w)

/-- The decoder on a whole 32-bit word of the opcode table's numbering is `decode`. -/
theorem decodeTableWord_eq (w : IWord) : decodeTableWord 32 w.toNat =
    match decode w with
    | .instruction i => some i
    | .undef => none := by
  have e : BitVec.ofNat 32 (w.toNat % 2 ^ 32) = w := by
    rw [Nat.mod_eq_of_lt w.isLt, BitVec.ofNat_toNat, BitVec.setWidth_eq]
  simp only [decodeTableWord, e, bytesOfWord, decodeBytes, wordOfBytes_bytesOfWord]
  cases decode w <;> rfl
end Sys2Proof
end

