-- ==== Sys2Proof/Laws/Exec.lean ====
section
/-! SUPPORT. What an instruction can do, said once: the inversion of `exec` into seven cases, from the spec
lemma of each shared operation. Invariants and frames follow from it without unfolding a meaning. -/

namespace Sys2Proof.Machine

open Host (Outcome)

theorem isMisaligned_iff (t : Word) : isMisaligned t = true ↔ t.toNat % 4 ≠ 0 := by
  simp only [isMisaligned, bne_iff_ne, ne_eq, ← BitVec.toNat_inj, BitVec.extractLsb'_toNat, BitVec.toNat_ofNat]
  simp

/-- The outcomes an instruction can have from a state. -/
inductive ExecCase (i : Instr) (s : State) : Outcome State Fault Refusal → Prop where
  /-- It writes a value to its destination and advances. -/
  | wrote (rd : RegIdx) (v : Word) (hd : destOf i = some rd) (hs : storeOf i = none)
      (ht : isTransfer i = false) : ExecCase i s (.next (s.writeX rd v).advance)
  /-- It stores the low bytes of its source register at its effective address, in DRAM, and advances. -/
  | stored (n : AccessSize) (rs1 rs2 : RegIdx) (imm : Word) (hi : storeOf i = some (n, rs1, rs2, imm))
      (hd : destOf i = none) (ht : isTransfer i = false) (hm : s.mode = .machine)
      (hr : s.rom.contains (s.effectiveAddress (addressOf (s.readX rs1) imm)) = false)
      (hl : s.dram.legal (s.effectiveAddress (addressOf (s.readX rs1) imm)) n = true) :
      ExecCase i s (.next { s with
        mem := s.mem.writeBytes (s.effectiveAddress (addressOf (s.readX rs1) imm)).toNat
                 (disassemble (s.readX rs2) (sizeBytes n)),
        pc := s.pc + 4#64 })
  /-- A branch that is not taken. -/
  | fellThrough (hd : destOf i = none) (hs : storeOf i = none) (ht : isTransfer i = true) :
      ExecCase i s (.next s.advance)
  /-- A taken branch. -/
  | branched (target : Word) (hd : destOf i = none) (hs : storeOf i = none) (ht : isTransfer i = true)
      (ha : s.params.checkTargetAlign = true → target.toNat % 4 = 0) :
      ExecCase i s (.next { s with pc := target })
  /-- A jump with its link. -/
  | linked (rd : RegIdx) (target : Word) (hd : destOf i = some rd) (hs : storeOf i = none)
      (ht : isTransfer i = true) (ha : s.params.checkTargetAlign = true → target.toNat % 4 = 0) :
      ExecCase i s (.next { s.writeX rd (s.pc + 4#64) with pc := target })
  /-- It stops with the one trap it can raise. -/
  | trapped (t : Trap) (h : trapOf i = some t) : ExecCase i s (.fault (.trapped t s))
  /-- A load or store outside Machine mode. -/
  | refused (hm : s.mode ≠ .machine) : ExecCase i s (.refused .translationUnimplemented)

theorem writeRd_eq (rd : RegIdx) (v : Word) (s : State) : writeRd rd v s = .next (s.writeX rd v).advance := rfl

theorem transferTo_ok {target : Word} {linked s : State}
    (h : s.params.checkTargetAlign = false ∨ target.toNat % 4 = 0) :
    transferTo target linked s = .next { linked with pc := target } := by
  unfold transferTo
  rw [if_neg]
  rw [Bool.and_eq_true, isMisaligned_iff]
  rcases h with h | h <;> simp [h]

theorem transferTo_trap {target : Word} {linked s : State}
    (h1 : s.params.checkTargetAlign = true) (h2 : target.toNat % 4 ≠ 0) :
    transferTo target linked s = .fault (.trapped .instructionAddressMisaligned s) := by
  unfold transferTo
  rw [if_pos]
  · rfl
  · rw [Bool.and_eq_true, isMisaligned_iff]; exact ⟨h1, h2⟩

section
variable {i : Instr} {s : State}

theorem execCase_write {rd : RegIdx} {v : Word} (hd : destOf i = some rd) (hs : storeOf i = none)
    (ht : isTransfer i = false) : ExecCase i s (writeRd rd v s) := .wrote rd v hd hs ht

theorem execCase_load {n : AccessSize} {ext : Word → Word} {rd rs1 : RegIdx} {imm : Word}
    (hd : destOf i = some rd) (hs : storeOf i = none) (ht : isTransfer i = false)
    (htrap : trapOf i = some .loadAccessFault) : ExecCase i s (loadInto n ext rd rs1 imm s) := by
  unfold loadInto State.memRead
  rcases mmuLoad_cases s (addressOf (s.readX rs1) imm) n with ⟨v, h⟩ | h | ⟨hm, h⟩ <;> rw [h]
  · exact .wrote rd (ext v) hd hs ht
  · exact .trapped _ htrap
  · exact .refused hm

theorem execCase_store {n : AccessSize} {rs1 rs2 : RegIdx} {imm : Word}
    (hi : storeOf i = some (n, rs1, rs2, imm)) (hd : destOf i = none) (ht : isTransfer i = false)
    (htrap : trapOf i = some .storeAccessFault) : ExecCase i s (storeFrom n rs1 rs2 imm s) := by
  unfold storeFrom
  rcases memWrite_cases s (addressOf (s.readX rs1) imm) (s.readX rs2) n with ⟨hm, hr, hl, h⟩ | h | ⟨hm, h⟩ <;> rw [h]
  · exact .stored n rs1 rs2 imm hi hd ht hm hr hl
  · exact .trapped _ htrap
  · exact .refused hm

theorem execCase_branch {taken : Bool} {imm : Word} (hd : destOf i = none) (hs : storeOf i = none)
    (ht : isTransfer i = true) (htrap : trapOf i = some .instructionAddressMisaligned) :
    ExecCase i s (branchIf taken imm s) := by
  unfold branchIf
  split
  · by_cases h : s.params.checkTargetAlign = false ∨ (relativeTarget s.pc imm).toNat % 4 = 0
    · rw [transferTo_ok h]
      exact .branched _ hd hs ht fun c => by simpa [c] using h
    · rw [not_or] at h
      rw [transferTo_trap (by simpa using h.1) h.2]
      exact .trapped _ htrap
  · exact .fellThrough hd hs ht

theorem execCase_jump {rd : RegIdx} {target : Word} (hd : destOf i = some rd) (hs : storeOf i = none)
    (ht : isTransfer i = true) (htrap : trapOf i = some .instructionAddressMisaligned) :
    ExecCase i s (transferTo target (s.writeX rd (s.pc + 4#64)) s) := by
  by_cases h : s.params.checkTargetAlign = false ∨ target.toNat % 4 = 0
  · rw [transferTo_ok h]
    exact .linked rd target hd hs ht fun c => by simpa [c] using h
  · rw [not_or] at h
    rw [transferTo_trap (by simpa using h.1) h.2]
    exact .trapped _ htrap

end

/-- Every instruction, from every state, has one of the seven outcomes. -/
theorem exec_cases (i : Instr) (s : State) : ExecCase i s (exec i s) := by
  cases i <;>
    first
      | exact execCase_write rfl rfl rfl
      | exact execCase_load rfl rfl rfl rfl
      | exact execCase_store rfl rfl rfl rfl
      | exact execCase_branch rfl rfl rfl rfl
      | exact execCase_jump rfl rfl rfl rfl
      | exact .trapped _ rfl

/-- A branch whose condition does not hold only advances the pc. -/
theorem exec_untaken {i : Instr} {s : State} (h : isTransfer i = true) (hn : isTakenTransfer i s = false) : exec i s = .next s.advance := by
  have hb : ∀ (taken : Bool) (imm : Word), taken = false → branchIf taken imm s = .next s.advance := by
    rintro _ _ rfl
    rfl
  cases i with
  | beq rs1 rs2 imm => exact hb _ _ hn
  | bne rs1 rs2 imm => exact hb _ _ hn
  | blt rs1 rs2 imm => exact hb _ _ hn
  | bge rs1 rs2 imm => exact hb _ _ (by simpa [isTakenTransfer, ltSigned] using hn)
  | bltu rs1 rs2 imm => exact hb _ _ hn
  | bgeu rs1 rs2 imm => exact hb _ _ (by simpa [isTakenTransfer, ltUnsigned] using hn)
  | jal rd imm => cases hn
  | jalr rd rs1 imm => cases hn
  | _ => cases h

end Sys2Proof.Machine
end

