-- ==== Sys2Proof/Laws/PerInstr.lean ====
section
/-! SUPPORT. The family `EncodedRow`: the word of a well-formed instruction matches a row of the pattern
table, and that row's parser gives the instruction back. One lemma per constructor, from one lemma per
format. -/

namespace Sys2Proof.Laws.EncodedRow

/-- `i` is ill-formed, or its word matches a row whose parser gives `i` back. -/
def Statement (i : Instr) : Prop :=
  i.wf = false ∨ ∃ p ∈ patterns, p.isMatch (encode i) = true ∧ p.parse (encode i) = i

theorem of_wf {i : Instr} (h : i.wf = true → ∃ p ∈ patterns, p.isMatch (encode i) = true ∧ p.parse (encode i) = i) :
    Statement i := by
  cases hw : i.wf with
  | false => exact .inl hw
  | true => exact .inr (h hw)

section
variable {op : BitVec 7} {f3 : BitVec 3} {f7 : BitVec 7} {rd rs1 rs2 : RegIdx} {imm : Word} {imm20 : BitVec 20}

theorem rowR {c : RegIdx → RegIdx → RegIdx → Instr} (hp : .r op f3 f7 c ∈ patterns) :
    ∃ p ∈ patterns, p.isMatch (encodeR op f3 f7 rd rs1 rs2) = true ∧
      p.parse (encodeR op f3 f7 rd rs1 rs2) = c rd rs1 rs2 := by
  obtain ⟨h1, h2, h3, h4, h5, h6⟩ := encodeR_fields op f3 f7 rd rs1 rs2
  exact ⟨_, hp, by simp [Pattern.isMatch, h1, h2, h3], by simp [Pattern.parse, h4, h5, h6]⟩

theorem rowI {c : RegIdx → RegIdx → Word → Instr} (hp : .i op f3 none c ∈ patterns) (hi : immFits 12 imm = true) :
    ∃ p ∈ patterns, p.isMatch (encodeI op f3 rd rs1 imm) = true ∧
      p.parse (encodeI op f3 rd rs1 imm) = c rd rs1 imm := by
  obtain ⟨h1, h2, h3, h4, h5⟩ := encodeI_fields op f3 rd rs1 imm
  simp only [immFits, beq_iff_eq] at hi
  exact ⟨_, hp, by simp [Pattern.isMatch, h1, h2], by simp [Pattern.parse, h3, h4, h5, hi]⟩

theorem rowP {q : Predicate} {c : RegIdx → RegIdx → Word → Instr} (hp : .i op f3 (some q) c ∈ patterns)
    (hi : (imm.setWidth 12).signExtend 64 = imm) (hq : q.holds imm = true) :
    ∃ p ∈ patterns, p.isMatch (encodeI op f3 rd rs1 imm) = true ∧
      p.parse (encodeI op f3 rd rs1 imm) = c rd rs1 imm := by
  obtain ⟨h1, h2, h3, h4, h5⟩ := encodeI_fields op f3 rd rs1 imm
  exact ⟨_, hp, by simp [Pattern.isMatch, h1, h2, h5, hi, hq], by simp [Pattern.parse, h3, h4, h5, hi]⟩

theorem rowS {c : RegIdx → RegIdx → Word → Instr} (hp : .s op f3 c ∈ patterns) (hi : immFits 12 imm = true) :
    ∃ p ∈ patterns, p.isMatch (encodeS op f3 rs1 rs2 imm) = true ∧
      p.parse (encodeS op f3 rs1 rs2 imm) = c rs1 rs2 imm := by
  obtain ⟨h1, h2, h3, h4, h5⟩ := encodeS_fields op f3 rs1 rs2 imm
  simp only [immFits, beq_iff_eq] at hi
  exact ⟨_, hp, by simp [Pattern.isMatch, h1, h2], by simp [Pattern.parse, h3, h4, h5, hi]⟩

theorem rowB {c : RegIdx → RegIdx → Word → Instr} (hp : .b op f3 c ∈ patterns) (hi : immFitsEven 13 imm = true) :
    ∃ p ∈ patterns, p.isMatch (encodeB op f3 rs1 rs2 imm) = true ∧
      p.parse (encodeB op f3 rs1 rs2 imm) = c rs1 rs2 imm := by
  simp only [immFitsEven, immFits, Bool.and_eq_true, beq_iff_eq, Bool.not_eq_true'] at hi
  obtain ⟨h1, h2, h3, h4, h5⟩ := encodeB_fields op f3 rs1 rs2 imm hi.2
  exact ⟨_, hp, by simp [Pattern.isMatch, h1, h2], by simp [Pattern.parse, h3, h4, h5, hi.1]⟩

theorem rowU {c : RegIdx → BitVec 20 → Instr} (hp : .u op c ∈ patterns) :
    ∃ p ∈ patterns, p.isMatch (encodeU op rd imm20) = true ∧ p.parse (encodeU op rd imm20) = c rd imm20 := by
  obtain ⟨h1, h2, h3⟩ := encodeU_fields op rd imm20
  exact ⟨_, hp, by simp [Pattern.isMatch, h1], by simp [Pattern.parse, h2, h3]⟩

theorem rowJ {c : RegIdx → Word → Instr} (hp : .j op c ∈ patterns) (hi : immFitsEven 21 imm = true) :
    ∃ p ∈ patterns, p.isMatch (encodeJ op rd imm) = true ∧ p.parse (encodeJ op rd imm) = c rd imm := by
  simp only [immFitsEven, immFits, Bool.and_eq_true, beq_iff_eq, Bool.not_eq_true'] at hi
  obtain ⟨h1, h2, h3⟩ := encodeJ_fields op rd imm hi.2
  exact ⟨_, hp, by simp [Pattern.isMatch, h1], by simp [Pattern.parse, h2, h3, hi.1]⟩

end

/-- A well-formed shift immediate is one of the 32 numbers from its tag upward. -/
theorem shift_cases {tag : Nat} {imm : Word} (h : immFitsShift tag imm = true) :
    ∃ k : Fin 32, imm = BitVec.ofNat 64 (tag + k.val) := by
  simp only [immFitsShift, Bool.and_eq_true, decide_eq_true_eq] at h
  refine ⟨⟨imm.toNat - tag, by omega⟩, ?_⟩
  apply BitVec.eq_of_toNat_eq
  simp only [BitVec.toNat_ofNat]
  omega

/-- What the two shift tags make of the parsed immediate, checked on the 32 numbers. -/
theorem shift_logical {imm : Word} (h : immFitsShift 0 imm = true) :
    (imm.setWidth 12).signExtend 64 = imm ∧ (Predicate.upperSeven 0b0000000#7).holds imm = true := by
  obtain ⟨k, rfl⟩ := shift_cases h
  revert k
  decide

theorem shift_arithmetic {imm : Word} (h : immFitsShift 0x400 imm = true) :
    (imm.setWidth 12).signExtend 64 = imm ∧ (Predicate.upperSeven 0b0100000#7).holds imm = true := by
  obtain ⟨k, rfl⟩ := shift_cases h
  revert k
  decide

theorem add (a b c : RegIdx) : Statement (.add a b c) := of_wf (fun _ => rowR (List.mem_of_getElem? (i := 0) rfl))

theorem sub (a b c : RegIdx) : Statement (.sub a b c) := of_wf (fun _ => rowR (List.mem_of_getElem? (i := 1) rfl))

theorem sll (a b c : RegIdx) : Statement (.sll a b c) := of_wf (fun _ => rowR (List.mem_of_getElem? (i := 2) rfl))

theorem slt (a b c : RegIdx) : Statement (.slt a b c) := of_wf (fun _ => rowR (List.mem_of_getElem? (i := 3) rfl))

theorem sltu (a b c : RegIdx) : Statement (.sltu a b c) := of_wf (fun _ => rowR (List.mem_of_getElem? (i := 4) rfl))

theorem xor (a b c : RegIdx) : Statement (.xor a b c) := of_wf (fun _ => rowR (List.mem_of_getElem? (i := 5) rfl))

theorem srl (a b c : RegIdx) : Statement (.srl a b c) := of_wf (fun _ => rowR (List.mem_of_getElem? (i := 6) rfl))

theorem sra (a b c : RegIdx) : Statement (.sra a b c) := of_wf (fun _ => rowR (List.mem_of_getElem? (i := 7) rfl))

theorem or (a b c : RegIdx) : Statement (.or a b c) := of_wf (fun _ => rowR (List.mem_of_getElem? (i := 8) rfl))

theorem and (a b c : RegIdx) : Statement (.and a b c) := of_wf (fun _ => rowR (List.mem_of_getElem? (i := 9) rfl))

theorem addw (a b c : RegIdx) : Statement (.addw a b c) := of_wf (fun _ => rowR (List.mem_of_getElem? (i := 10) rfl))

theorem subw (a b c : RegIdx) : Statement (.subw a b c) := of_wf (fun _ => rowR (List.mem_of_getElem? (i := 11) rfl))

theorem sllw (a b c : RegIdx) : Statement (.sllw a b c) := of_wf (fun _ => rowR (List.mem_of_getElem? (i := 12) rfl))

theorem srlw (a b c : RegIdx) : Statement (.srlw a b c) := of_wf (fun _ => rowR (List.mem_of_getElem? (i := 13) rfl))

theorem sraw (a b c : RegIdx) : Statement (.sraw a b c) := of_wf (fun _ => rowR (List.mem_of_getElem? (i := 14) rfl))

theorem addi (a b : RegIdx) (c : Word) : Statement (.addi a b c) := of_wf (rowI (List.mem_of_getElem? (i := 15) rfl))

theorem slti (a b : RegIdx) (c : Word) : Statement (.slti a b c) := of_wf (rowI (List.mem_of_getElem? (i := 16) rfl))

theorem sltiu (a b : RegIdx) (c : Word) : Statement (.sltiu a b c) := of_wf (rowI (List.mem_of_getElem? (i := 17) rfl))

theorem xori (a b : RegIdx) (c : Word) : Statement (.xori a b c) := of_wf (rowI (List.mem_of_getElem? (i := 18) rfl))

theorem ori (a b : RegIdx) (c : Word) : Statement (.ori a b c) := of_wf (rowI (List.mem_of_getElem? (i := 19) rfl))

theorem andi (a b : RegIdx) (c : Word) : Statement (.andi a b c) := of_wf (rowI (List.mem_of_getElem? (i := 20) rfl))

theorem slli (a b : RegIdx) (c : Word) : Statement (.slli a b c) := of_wf (fun h => rowP (List.mem_of_getElem? (i := 21) rfl) (shift_logical h).1 (shift_logical h).2)

theorem srli (a b : RegIdx) (c : Word) : Statement (.srli a b c) := of_wf (fun h => rowP (List.mem_of_getElem? (i := 22) rfl) (shift_logical h).1 (shift_logical h).2)

theorem srai (a b : RegIdx) (c : Word) : Statement (.srai a b c) := of_wf (fun h => rowP (List.mem_of_getElem? (i := 23) rfl) (shift_arithmetic h).1 (shift_arithmetic h).2)

theorem addiw (a b : RegIdx) (c : Word) : Statement (.addiw a b c) := of_wf (rowI (List.mem_of_getElem? (i := 24) rfl))

theorem slliw (a b : RegIdx) (c : Word) : Statement (.slliw a b c) := of_wf (fun h => rowP (List.mem_of_getElem? (i := 25) rfl) (shift_logical h).1 (shift_logical h).2)

theorem srliw (a b : RegIdx) (c : Word) : Statement (.srliw a b c) := of_wf (fun h => rowP (List.mem_of_getElem? (i := 26) rfl) (shift_logical h).1 (shift_logical h).2)

theorem sraiw (a b : RegIdx) (c : Word) : Statement (.sraiw a b c) := of_wf (fun h => rowP (List.mem_of_getElem? (i := 27) rfl) (shift_arithmetic h).1 (shift_arithmetic h).2)

theorem lb (a b : RegIdx) (c : Word) : Statement (.lb a b c) := of_wf (rowI (List.mem_of_getElem? (i := 28) rfl))

theorem lh (a b : RegIdx) (c : Word) : Statement (.lh a b c) := of_wf (rowI (List.mem_of_getElem? (i := 29) rfl))

theorem lw (a b : RegIdx) (c : Word) : Statement (.lw a b c) := of_wf (rowI (List.mem_of_getElem? (i := 30) rfl))

theorem ld (a b : RegIdx) (c : Word) : Statement (.ld a b c) := of_wf (rowI (List.mem_of_getElem? (i := 31) rfl))

theorem lbu (a b : RegIdx) (c : Word) : Statement (.lbu a b c) := of_wf (rowI (List.mem_of_getElem? (i := 32) rfl))

theorem lhu (a b : RegIdx) (c : Word) : Statement (.lhu a b c) := of_wf (rowI (List.mem_of_getElem? (i := 33) rfl))

theorem lwu (a b : RegIdx) (c : Word) : Statement (.lwu a b c) := of_wf (rowI (List.mem_of_getElem? (i := 34) rfl))

theorem sb (a b : RegIdx) (c : Word) : Statement (.sb a b c) := of_wf (rowS (List.mem_of_getElem? (i := 35) rfl))

theorem sh (a b : RegIdx) (c : Word) : Statement (.sh a b c) := of_wf (rowS (List.mem_of_getElem? (i := 36) rfl))

theorem sw (a b : RegIdx) (c : Word) : Statement (.sw a b c) := of_wf (rowS (List.mem_of_getElem? (i := 37) rfl))

theorem sd (a b : RegIdx) (c : Word) : Statement (.sd a b c) := of_wf (rowS (List.mem_of_getElem? (i := 38) rfl))

theorem beq (a b : RegIdx) (c : Word) : Statement (.beq a b c) := of_wf (rowB (List.mem_of_getElem? (i := 39) rfl))

theorem bne (a b : RegIdx) (c : Word) : Statement (.bne a b c) := of_wf (rowB (List.mem_of_getElem? (i := 40) rfl))

theorem blt (a b : RegIdx) (c : Word) : Statement (.blt a b c) := of_wf (rowB (List.mem_of_getElem? (i := 41) rfl))

theorem bge (a b : RegIdx) (c : Word) : Statement (.bge a b c) := of_wf (rowB (List.mem_of_getElem? (i := 42) rfl))

theorem bltu (a b : RegIdx) (c : Word) : Statement (.bltu a b c) := of_wf (rowB (List.mem_of_getElem? (i := 43) rfl))

theorem bgeu (a b : RegIdx) (c : Word) : Statement (.bgeu a b c) := of_wf (rowB (List.mem_of_getElem? (i := 44) rfl))

theorem jal (a : RegIdx) (b : Word) : Statement (.jal a b) := of_wf (rowJ (List.mem_of_getElem? (i := 45) rfl))

theorem jalr (a b : RegIdx) (c : Word) : Statement (.jalr a b c) := of_wf (rowI (List.mem_of_getElem? (i := 46) rfl))

theorem lui (a : RegIdx) (b : BitVec 20) : Statement (.lui a b) := of_wf (fun _ => rowU (List.mem_of_getElem? (i := 47) rfl))

theorem auipc (a : RegIdx) (b : BitVec 20) : Statement (.auipc a b) := of_wf (fun _ => rowU (List.mem_of_getElem? (i := 48) rfl))

theorem ecall (a b : RegIdx) (c : Word) : Statement (.ecall a b c) := of_wf (fun h => by
    obtain rfl := beq_iff_eq.1 h
    exact rowP (List.mem_of_getElem? (i := 49) rfl) (by decide) (by decide))

theorem ebreak (a b : RegIdx) (c : Word) : Statement (.ebreak a b c) := of_wf (fun h => by
    obtain rfl := beq_iff_eq.1 h
    exact rowP (List.mem_of_getElem? (i := 50) rfl) (by decide) (by decide))

theorem mul (a b c : RegIdx) : Statement (.mul a b c) := of_wf (fun _ => rowR (List.mem_of_getElem? (i := 51) rfl))

theorem mulh (a b c : RegIdx) : Statement (.mulh a b c) := of_wf (fun _ => rowR (List.mem_of_getElem? (i := 52) rfl))

theorem mulhsu (a b c : RegIdx) : Statement (.mulhsu a b c) := of_wf (fun _ => rowR (List.mem_of_getElem? (i := 53) rfl))

theorem mulhu (a b c : RegIdx) : Statement (.mulhu a b c) := of_wf (fun _ => rowR (List.mem_of_getElem? (i := 54) rfl))

theorem div (a b c : RegIdx) : Statement (.div a b c) := of_wf (fun _ => rowR (List.mem_of_getElem? (i := 55) rfl))

theorem divu (a b c : RegIdx) : Statement (.divu a b c) := of_wf (fun _ => rowR (List.mem_of_getElem? (i := 56) rfl))

theorem rem (a b c : RegIdx) : Statement (.rem a b c) := of_wf (fun _ => rowR (List.mem_of_getElem? (i := 57) rfl))

theorem remu (a b c : RegIdx) : Statement (.remu a b c) := of_wf (fun _ => rowR (List.mem_of_getElem? (i := 58) rfl))

theorem mulw (a b c : RegIdx) : Statement (.mulw a b c) := of_wf (fun _ => rowR (List.mem_of_getElem? (i := 59) rfl))

theorem divw (a b c : RegIdx) : Statement (.divw a b c) := of_wf (fun _ => rowR (List.mem_of_getElem? (i := 60) rfl))

theorem divuw (a b c : RegIdx) : Statement (.divuw a b c) := of_wf (fun _ => rowR (List.mem_of_getElem? (i := 61) rfl))

theorem remw (a b c : RegIdx) : Statement (.remw a b c) := of_wf (fun _ => rowR (List.mem_of_getElem? (i := 62) rfl))

theorem remuw (a b c : RegIdx) : Statement (.remuw a b c) := of_wf (fun _ => rowR (List.mem_of_getElem? (i := 63) rfl))

end Sys2Proof.Laws.EncodedRow
end

