-- ==== Sys2Proof/Laws/Step.lean ====
section
/-! SUPPORT. What a step can do, said once: a swallowed fetch fault, a completed execute, a trap or a
refusal. -/

namespace Sys2Proof.Machine

open Host (Outcome)

/-! ### The parts of a cycle -/

theorem fetch_eq (s : State) : s.fetch = s.mmuLoad s.pc .word := rfl

/-- A fetch answers a word, LoadAccessFault, or a refusal outside Machine mode (R141). -/
theorem fetch_cases (s : State) : (∃ v, s.fetch = .ok v) ∨ s.fetch = .err .loadAccessFault ∨
    (s.mode ≠ .machine ∧ s.fetch = .refuse .translationUnimplemented) := mmuLoad_cases s s.pc .word

/-- A fetch reads memory, the parameters, the MMU's modes and the pc. -/
theorem fetch_congr {s t : State} (hm : t.mem = s.mem) (hp : t.params = s.params) (hmode : t.mode = s.mode)
    (hx : t.xlen = s.xlen) (hpc : t.pc = s.pc) : t.fetch = s.fetch := by
  rw [fetch_eq, fetch_eq, hpc]
  exact mmuLoad_congr hm hp hmode hx s.pc .word

theorem execute_instruction {s : State} (h : s.xlen = .x64) (i : Instr) :
    execute (.instruction i) s = exec i s := by simp [execute, h]

theorem execute_undef {s : State} (h : s.xlen = .x64) :
    execute .undef s = .fault (.trapped .illegalInstruction s) := by simp [execute, h, execUndef, takeTrap]

theorem execute_x32 {s : State} (h : s.xlen = .x32) (d : Decoded) : execute d s = .refused .executeXlen32 := by
  simp [execute, h]

@[simp] theorem afterExecute_next (s : State) : afterExecute (.next s) = .next s.tick := rfl
@[simp] theorem afterExecute_fault (r : Fault) : afterExecute (.fault r) = .fault r := rfl
@[simp] theorem afterExecute_refused (r : Refusal) : afterExecute (.refused r) = .refused r := rfl

/-! ### The step for each answer of the fetch (R149) -/

theorem step_of_word {s : State} {v : Word} (h : s.fetch = .ok v) :
    step s = afterExecute (execute (decode (low32 v)) s) := by simp [step, cycle, h]

theorem step_of_instruction {s : State} {v : Word} {i : Instr} (h : s.fetch = .ok v) (hx : s.xlen = .x64)
    (hd : decode (low32 v) = .instruction i) : step s = afterExecute (exec i s) := by
  rw [step_of_word h, hd, execute_instruction hx]

theorem step_of_undef {s : State} {v : Word} (h : s.fetch = .ok v) (hx : s.xlen = .x64)
    (hd : decode (low32 v) = .undef) : step s = .fault (.trapped .illegalInstruction s) := by
  rw [step_of_word h, hd, execute_undef hx]
  rfl

theorem step_of_x32 {s : State} {v : Word} (h : s.fetch = .ok v) (hx : s.xlen = .x32) :
    step s = .refused .executeXlen32 := by
  rw [step_of_word h, execute_x32 hx]
  rfl

theorem step_of_skip {s : State} {t : Trap} (h : s.fetch = .err t) (hp : s.params.fetchFaultPolicy = .skip) :
    step s = .next s.advance := by simp [step, cycle, h, onFetchFault, hp]

theorem step_of_halt {s : State} {t : Trap} (h : s.fetch = .err t) (hp : s.params.fetchFaultPolicy = .halt) :
    step s = .fault (.trapped t s) := by simp [step, cycle, h, onFetchFault, hp, takeTrap]

theorem step_of_refuse {s : State} {r : Refusal} (h : s.fetch = .refuse r) : step s = .refused r := by
  simp [step, cycle, h]

theorem step_other_mode {s : State} (h : s.mode ≠ .machine) : step s = .refused .translationUnimplemented :=
  step_of_refuse (mmuLoad_other h s.pc .word)

/-! ### Every step -/

/-- The outcomes a step can have. -/
inductive StepCase (s : State) : Outcome State Fault Refusal → Prop where
  /-- The fetch failed and was swallowed (R142). -/
  | skipped (h : s.fetch = .err .loadAccessFault) (hp : s.params.fetchFaultPolicy = .skip) :
      StepCase s (.next s.advance)
  /-- The fetch failed and stops the machine (R142). -/
  | halted (h : s.fetch = .err .loadAccessFault) (hp : s.params.fetchFaultPolicy = .halt) :
      StepCase s (.fault (.trapped .loadAccessFault s))
  /-- The fetched word decodes to an instruction, which was executed (R144, R146). -/
  | ran (v : Word) (i : Instr) (h : s.fetch = .ok v) (hx : s.xlen = .x64)
      (hd : decode (low32 v) = .instruction i) : StepCase s (afterExecute (exec i s))
  /-- The fetched word matches no pattern (R303). -/
  | illegal (v : Word) (h : s.fetch = .ok v) (hx : s.xlen = .x64) (hd : decode (low32 v) = .undef) :
      StepCase s (.fault (.trapped .illegalInstruction s))
  /-- An execute with XLEN = 32 (R151). -/
  | wrongWidth (v : Word) (h : s.fetch = .ok v) (hx : s.xlen = .x32) : StepCase s (.refused .executeXlen32)
  /-- A fetch outside Machine mode (R151). -/
  | wrongMode (h : s.mode ≠ .machine) : StepCase s (.refused .translationUnimplemented)

theorem step_cases (s : State) : StepCase s (step s) := by
  rcases fetch_cases s with ⟨v, h⟩ | h | ⟨hm, h⟩
  · cases hx : s.xlen with
    | x32 => rw [step_of_x32 h hx]; exact .wrongWidth v h hx
    | x64 =>
      cases hd : decode (low32 v) with
      | instruction i => rw [step_of_instruction h hx hd]; exact .ran v i h hx hd
      | undef => rw [step_of_undef h hx hd]; exact .illegal v h hx hd
  · cases hp : s.params.fetchFaultPolicy with
    | skip => rw [step_of_skip h hp]; exact .skipped h hp
    | halt => rw [step_of_halt h hp]; exact .halted h hp
  · rw [step_of_refuse h]; exact .wrongMode hm

/-- A step that answers a next state swallowed a fetch fault, or ran an instruction and ticked the clock. -/
theorem step_next {s t : State} (h : step s = .next t) :
    (s.fetch = .err .loadAccessFault ∧ s.params.fetchFaultPolicy = .skip ∧ t = s.advance) ∨
      ∃ v i u, s.fetch = .ok v ∧ s.xlen = .x64 ∧ decode (low32 v) = .instruction i ∧ exec i s = .next u ∧
        t = u.tick := by
  generalize ho : step s = o at h
  have hc := step_cases s
  rw [ho] at hc
  cases hc with
  | skipped hf hp => exact .inl ⟨hf, hp, by simpa using h.symm⟩
  | halted => cases h
  | illegal => cases h
  | wrongWidth => cases h
  | wrongMode => cases h
  | ran v i hf hx hd =>
    right
    cases he : exec i s with
    | next u => rw [he] at h; exact ⟨v, i, u, hf, hx, hd, he, by simpa using h.symm⟩
    | fault r => rw [he] at h; cases h
    | refused r => rw [he] at h; cases h

/-- A run is a step and then a run of the rest. -/
theorem run_next {k : Nat} {s t : State} (h : step s = .next t) :
    Sys2Proof.core.run (k + 1) s = Sys2Proof.core.run k t := by
  have h' : Sys2Proof.core.step s = .next t := h
  simp only [Host.Core.run, h']

theorem run_fault {k : Nat} {s : State} {r : Fault} (h : step s = .fault r) :
    Sys2Proof.core.run (k + 1) s = .fault r := by
  have h' : Sys2Proof.core.step s = .fault r := h
  simp only [Host.Core.run, h']

theorem run_refused {k : Nat} {s : State} {r : Refusal} (h : step s = .refused r) :
    Sys2Proof.core.run (k + 1) s = .refused r := by
  have h' : Sys2Proof.core.step s = .refused r := h
  simp only [Host.Core.run, h']

end Sys2Proof.Machine
end

