-- ==== Sys2Proof/Tests/Slice0.lean ====
section
/-! SUPPORT. The model's own tests, expected results from spec/95_test_vectors.md or worked out by hand from the rules
cited; and, for every statement with hypotheses, a witness that meets them (`test_witness_<statement>`). -/

namespace Sys2Proof.Tests

open Sys2Proof Sys2Proof.Machine

/-! ### WellFormed: one ill-formed term per check -/

theorem test_wf_refuses_13_bit_immediate : (Instr.addi 1 2 2048).wf = false := by decide
theorem test_wf_refuses_far_store_offset : (Instr.sd 1 2 (-2049)).wf = false := by decide
theorem test_wf_refuses_far_branch : (Instr.beq 1 2 4096).wf = false := by decide
theorem test_wf_refuses_odd_branch : (Instr.bne 1 2 3).wf = false := by decide
theorem test_wf_refuses_far_jump : (Instr.jal 1 1048576).wf = false := by decide
theorem test_wf_refuses_odd_jump : (Instr.jal 1 (-1)).wf = false := by decide
theorem test_wf_refuses_shift_by_32 : (Instr.slli 1 1 32).wf = false := by decide
theorem test_wf_refuses_srai_without_its_tag : (Instr.srai 1 1 5).wf = false := by decide
theorem test_wf_refuses_sraiw_above_its_range : (Instr.sraiw 1 1 0x420).wf = false := by decide
theorem test_wf_refuses_ecall_with_immediate : (Instr.ecall 0 0 1).wf = false := by decide
theorem test_wf_refuses_ebreak_without_immediate : (Instr.ebreak 0 0 0).wf = false := by decide

/-! ### Decoding: one word per constructor (section 2.1) -/

theorem test_decode_integer_register :
    [0x00C38AB3, 0x40C38AB3, 0x00C39AB3, 0x00C3AAB3, 0x00C3BAB3, 0x00C3CAB3, 0x00C3DAB3, 0x40C3DAB3, 0x00C3EAB3, 0x00C3FAB3, 0x00C38ABB, 0x40C38ABB, 0x00C39ABB, 0x00C3DABB, 0x40C3DABB].map (decodeTableWord 32) =
      [some (.add 21 7 12),
       some (.sub 21 7 12),
       some (.sll 21 7 12),
       some (.slt 21 7 12),
       some (.sltu 21 7 12),
       some (.xor 21 7 12),
       some (.srl 21 7 12),
       some (.sra 21 7 12),
       some (.or 21 7 12),
       some (.and 21 7 12),
       some (.addw 21 7 12),
       some (.subw 21 7 12),
       some (.sllw 21 7 12),
       some (.srlw 21 7 12),
       some (.sraw 21 7 12)] := by decide

theorem test_decode_integer_immediate :
    [0xFFD38A93, 0xFFD3AA93, 0xFFD3BA93, 0xFFD3CA93, 0xFFD3EA93, 0xFFD3FA93, 0x00539A93, 0x0053DA93, 0x4053DA93, 0xFFD38A9B, 0x00539A9B, 0x0053DA9B, 0x4053DA9B].map (decodeTableWord 32) =
      [some (.addi 21 7 (-3)),
       some (.slti 21 7 (-3)),
       some (.sltiu 21 7 (-3)),
       some (.xori 21 7 (-3)),
       some (.ori 21 7 (-3)),
       some (.andi 21 7 (-3)),
       some (.slli 21 7 5),
       some (.srli 21 7 5),
       some (.srai 21 7 1029),
       some (.addiw 21 7 (-3)),
       some (.slliw 21 7 5),
       some (.srliw 21 7 5),
       some (.sraiw 21 7 1029)] := by decide

theorem test_decode_loads_and_stores :
    [0xFFD38A83, 0xFFD39A83, 0xFFD3AA83, 0xFFD3BA83, 0xFFD3CA83, 0xFFD3DA83, 0xFFD3EA83, 0xFEC38C23, 0xFEC39C23, 0xFEC3AC23, 0xFEC3BC23].map (decodeTableWord 32) =
      [some (.lb 21 7 (-3)),
       some (.lh 21 7 (-3)),
       some (.lw 21 7 (-3)),
       some (.ld 21 7 (-3)),
       some (.lbu 21 7 (-3)),
       some (.lhu 21 7 (-3)),
       some (.lwu 21 7 (-3)),
       some (.sb 7 12 (-8)),
       some (.sh 7 12 (-8)),
       some (.sw 7 12 (-8)),
       some (.sd 7 12 (-8))] := by decide

theorem test_decode_control_transfer :
    [0xFEC388E3, 0xFEC398E3, 0xFEC3C8E3, 0xFEC3D8E3, 0xFEC3E8E3, 0xFEC3F8E3, 0x801FFAEF, 0xFFD38AE7].map (decodeTableWord 32) =
      [some (.beq 7 12 (-16)),
       some (.bne 7 12 (-16)),
       some (.blt 7 12 (-16)),
       some (.bge 7 12 (-16)),
       some (.bltu 7 12 (-16)),
       some (.bgeu 7 12 (-16)),
       some (.jal 21 (-2048)),
       some (.jalr 21 7 (-3))] := by decide

theorem test_decode_upper_immediate :
    [0xABCDEAB7, 0xABCDEA97].map (decodeTableWord 32) =
      [some (.lui 21 0xABCDE),
       some (.auipc 21 0xABCDE)] := by decide

theorem test_decode_system :
    [0x00000073, 0x00100073].map (decodeTableWord 32) =
      [some (.ecall 0 0 0),
       some (.ebreak 0 0 1)] := by decide

theorem test_decode_multiply_divide :
    [0x02C38AB3, 0x02C39AB3, 0x02C3AAB3, 0x02C3BAB3, 0x02C3CAB3, 0x02C3DAB3, 0x02C3EAB3, 0x02C3FAB3, 0x02C38ABB, 0x02C3CABB, 0x02C3DABB, 0x02C3EABB, 0x02C3FABB].map (decodeTableWord 32) =
      [some (.mul 21 7 12),
       some (.mulh 21 7 12),
       some (.mulhsu 21 7 12),
       some (.mulhu 21 7 12),
       some (.div 21 7 12),
       some (.divu 21 7 12),
       some (.rem 21 7 12),
       some (.remu 21 7 12),
       some (.mulw 21 7 12),
       some (.divw 21 7 12),
       some (.divuw 21 7 12),
       some (.remw 21 7 12),
       some (.remuw 21 7 12)] := by decide

/-- The encoder gives the same words back, one instruction of each format. -/
theorem test_encode_formats :
    [Instr.add 21 7 12, .addi 21 7 (-3), .sd 7 12 (-8), .beq 7 12 (-16), .lui 21 0xABCDE, .jal 21 (-2048),
      .sraiw 21 7 1029].map encode =
      [0x00C38AB3#32, 0xFFD38A93#32, 0xFEC3BC23#32, 0xFEC388E3#32, 0xABCDEAB7#32, 0x801FFAEF#32, 0x4053DA9B#32] := by
  decide

/-- Split immediates, both signs and both ends (section 1.3). -/
theorem test_decode_split_immediates :
    [0x0020A423, 0xFE20AC23, 0x7E20AFA3, 0x8020A023, 0x00208863, 0xFE2088E3, 0x7E208FE3, 0x80208063].map
        (decodeTableWord 32) =
      [some (.sw 1 2 8), some (.sw 1 2 (-8)), some (.sw 1 2 2047), some (.sw 1 2 (-2048)), some (.beq 1 2 16),
       some (.beq 1 2 (-16)), some (.beq 1 2 4094), some (.beq 1 2 (-4096))] := by decide

/-- Words that are UNDEF (sections 1.2, 1.3 and 2.2). -/
theorem test_decode_undef_words :
    [0x00000000#32, 0xFFFFFFFF#32, 0x00000001#32, 0x0FF0000F#32, 0x30001073#32, 0x30200073#32, 0x10500073#32,
        0x00200073#32, 0x02009093#32, 0x4200D093#32, 0x0200909B#32, 0x00002067#32, 0x0000F003#32, 0x00004023#32,
        0x00002063#32, 0x0200103B#32, 0x2030D093#32, 0x40309093#32, 0x04C38AB3#32, 0x80C38AB3#32].all
      (fun w => decide (decode w = .undef)) = true := by decide

/-- R116's check tells exclusive rows (ADD, SUB) from overlapping ones (a plain OP-IMM row beside SLLI's). -/
theorem test_clash_tells_overlap :
    (Pattern.r 0b0110011#7 0b000#3 0b0000000#7 .add).clash (.r 0b0110011#7 0b000#3 0b0100000#7 .sub) = true ∧
      (Pattern.i 0b0010011#7 0b001#3 none .addi).clash
        (.i 0b0010011#7 0b001#3 (some (.upperSeven 0b0000000#7)) .slli) = false ∧
      allClash [.u 0b0110111#7 .lui, .u 0b0010111#7 .auipc, .u 0b0110111#7 .lui] = false := by decide

/-- Edge words that are instructions (section 2.2). -/
theorem test_decode_edge_words :
    [0x0000103B, 0x00001013, 0x00000013, 0x000000F3, 0x00008073, 0x001080F3].map (decodeTableWord 32) =
      [some (.sllw 0 0 0), some (.slli 0 0 0), some (.addi 0 0 0), some (.ecall 1 0 0), some (.ecall 0 1 0),
       some (.ebreak 1 1 1)] := by decide

/-! ### One step of each instruction (sections 4.1 to 4.7) -/

/-- The start state of section 0, at the pc of a single-instruction vector. -/
def start : State :=
  { State.reset with params := { Params.reference with dramSize := 0x10000 }, pc := 0x80000040#64 }

/-- The start state with x1 and x2. -/
def regs (x1 x2 : Word) : State := (start.writeX 1 x1).writeX 2 x2

/-- The start state with x1, x2 and the bytes of section 4.3 in DRAM. -/
def loads (x1 x2 : Word) : State :=
  { regs x1 x2 with
    mem := [(0x80000FFF, 0xAB), (0x80001000, 0x88), (0x80001001, 0x77), (0x80001002, 0x66), (0x80001003, 0x55),
      (0x80001004, 0x44), (0x80001005, 0x33), (0x80001006, 0x22), (0x80001007, 0x81)] }

/-- The start state with the target check off. -/
def unchecked : State := { start with params := { start.params with checkTargetAlign := false } }

/-- A register and the pc after one step over a word. -/
def after (r : RegIdx) (w : Nat) (s : State) : Option (Word × Word) :=
  match step (s.withFetchWord 32 w) with
  | .next t => some (t.readX r, t.pc)
  | _ => none

/-- Bytes of memory and the pc after one step over a word. -/
def bytesAfter (a n w : Nat) (s : State) : Option (List Byte × Word) :=
  match step (s.withFetchWord 32 w) with
  | .next t => some (t.mem.readBytes a n, t.pc)
  | _ => none

/-- The trap a step over a word stops with, when the state it carries is the state the step started with. -/
def trapAfter (w : Nat) (s : State) : Option Trap :=
  match step (s.withFetchWord 32 w) with
  | .fault (.trapped t u) => if u = s.withFetchWord 32 w then some t else none
  | _ => none

theorem test_add_wraps : after 3 0x002081B3 (regs 0x7FFFFFFFFFFFFFFF 0x1) = some (0x8000000000000000, 0x80000044) := by decide
theorem test_sub_borrows : after 3 0x402081B3 (regs 0x0 0x1) = some (0xFFFFFFFFFFFFFFFF, 0x80000044) := by decide
theorem test_sub_wraps : after 3 0x402081B3 (regs 0x8000000000000000 0x1) = some (0x7FFFFFFFFFFFFFFF, 0x80000044) := by decide
theorem test_sll_by_63 : after 3 0x002091B3 (regs 0x1 0x3F) = some (0x8000000000000000, 0x80000044) := by decide
theorem test_sll_uses_six_bits : after 3 0x002091B3 (regs 0x3 0xFFFFFFFFFFFFFFC1) = some (0x6, 0x80000044) := by decide
theorem test_slt_is_signed : after 3 0x0020A1B3 (regs 0x8000000000000000 0x7FFFFFFFFFFFFFFF) = some (0x1, 0x80000044) := by decide
theorem test_sltu_is_unsigned : after 3 0x0020B1B3 (regs 0x0 0xFFFFFFFFFFFFFFFF) = some (0x1, 0x80000044) := by decide
theorem test_xor_equal : after 3 0x0020C1B3 (regs 0xFFFFFFFFFFFFFFFF 0xFFFFFFFFFFFFFFFF) = some (0x0, 0x80000044) := by decide
theorem test_srl_by_64_is_0 : after 3 0x0020D1B3 (regs 0x8000000000000000 0x40) = some (0x8000000000000000, 0x80000044) := by decide
theorem test_srl_by_63 : after 3 0x0020D1B3 (regs 0xFFFFFFFFFFFFFFFF 0x3F) = some (0x1, 0x80000044) := by decide
theorem test_sra_fills_sign : after 3 0x4020D1B3 (regs 0x8000000000000000 0x1) = some (0xC000000000000000, 0x80000044) := by decide
theorem test_or_bits : after 3 0x0020E1B3 (regs 0xF0 0x0F) = some (0xFF, 0x80000044) := by decide
theorem test_and_bits : after 3 0x0020F1B3 (regs 0xFFFFFFFFFFFFFFFF 0xF) = some (0xF, 0x80000044) := by decide
theorem test_addw_wraps : after 3 0x002081BB (regs 0xFFFFFFFF 0x1) = some (0x0, 0x80000044) := by decide
theorem test_addw_sign_extends : after 3 0x002081BB (regs 0x7FFFFFFF 0x1) = some (0xFFFFFFFF80000000, 0x80000044) := by decide
theorem test_subw_low_word : after 3 0x402081BB (regs 0x80000000 0x1) = some (0x7FFFFFFF, 0x80000044) := by decide
theorem test_sllw_by_32_is_0 : after 3 0x002091BB (regs 0xFFFFFFFF 0x20) = some (0xFFFFFFFFFFFFFFFF, 0x80000044) := by decide
theorem test_sllw_by_31 : after 3 0x002091BB (regs 0x1 0x1F) = some (0xFFFFFFFF80000000, 0x80000044) := by decide
theorem test_srlw_by_0_sign_extends : after 3 0x0020D1BB (regs 0xFFFFFFFF80000000 0x0) = some (0xFFFFFFFF80000000, 0x80000044) := by decide
theorem test_srlw_zero_fills : after 3 0x0020D1BB (regs 0x80000000 0x4) = some (0x8000000, 0x80000044) := by decide
theorem test_sraw_ignores_upper : after 3 0x4020D1BB (regs 0xFFFFFFFF0000000F 0x1) = some (0x7, 0x80000044) := by decide
theorem test_add_x0_discards : after 0 0x00208033 (regs 1 2) = some (0, 0x80000044) := by decide
theorem test_addi_min_imm : after 3 0x80008193 (regs 0x0 0) = some (0xFFFFFFFFFFFFF800, 0x80000044) := by decide
theorem test_addi_max_imm : after 3 0x7FF08193 (regs 0xFFFFFFFFFFFFFFFF 0) = some (0x7FE, 0x80000044) := by decide
theorem test_slti_negative : after 3 0x0000A193 (regs 0xFFFFFFFFFFFFFFFF 0) = some (0x1, 0x80000044) := by decide
theorem test_slti_imm_minus_one : after 3 0xFFF0A193 (regs 0x0 0) = some (0x0, 0x80000044) := by decide
theorem test_sltiu_seqz : after 3 0x0010B193 (regs 0x0 0) = some (0x1, 0x80000044) := by decide
theorem test_sltiu_sign_extended_then_unsigned : after 3 0x8000B193 (regs 0xFFFFFFFFFFFFF7FF 0) = some (0x1, 0x80000044) := by decide
theorem test_xori_bits : after 3 0x5550C193 (regs 0xFFF 0) = some (0xAAA, 0x80000044) := by decide
theorem test_xori_not : after 3 0xFFF0C193 (regs 0x0F 0) = some (0xFFFFFFFFFFFFFFF0, 0x80000044) := by decide
theorem test_ori_min_imm : after 3 0x8000E193 (regs 0x0 0) = some (0xFFFFFFFFFFFFF800, 0x80000044) := by decide
theorem test_andi_max_imm : after 3 0x7FF0F193 (regs 0xFFFFFFFFFFFFFFFF 0) = some (0x7FF, 0x80000044) := by decide
theorem test_slli_by_31 : after 3 0x01F09193 (regs 0xFFFFFFFFFFFFFFFF 0) = some (0xFFFFFFFF80000000, 0x80000044) := by decide
theorem test_srli_by_31 : after 3 0x01F0D193 (regs 0xFFFFFFFFFFFFFFFF 0) = some (0x1FFFFFFFF, 0x80000044) := by decide
theorem test_srai_by_31 : after 3 0x41F0D193 (regs 0x8000000000000000 0) = some (0xFFFFFFFF00000000, 0x80000044) := by decide
theorem test_addiw_minus_one : after 3 0xFFF0819B (regs 0x0 0) = some (0xFFFFFFFFFFFFFFFF, 0x80000044) := by decide
theorem test_addiw_sext_w : after 3 0x0000819B (regs 0xFFFFFFFF 0) = some (0xFFFFFFFFFFFFFFFF, 0x80000044) := by decide
theorem test_slliw_sign_extends : after 3 0x0010919B (regs 0x40000000 0) = some (0xFFFFFFFF80000000, 0x80000044) := by decide
theorem test_srliw_by_0 : after 3 0x0000D19B (regs 0x80000000 0) = some (0xFFFFFFFF80000000, 0x80000044) := by decide
theorem test_srliw_by_31 : after 3 0x01F0D19B (regs 0xFFFFFFFF80000000 0) = some (0x1, 0x80000044) := by decide
theorem test_sraiw_by_31 : after 3 0x41F0D19B (regs 0x80000000 0) = some (0xFFFFFFFFFFFFFFFF, 0x80000044) := by decide
theorem test_lb_sign_extends : after 3 0x00708183 (loads 0x80001000 0) = some (0xFFFFFFFFFFFFFF81, 0x80000044) := by decide
theorem test_lbu_zero_extends : after 3 0x0070C183 (loads 0x80001000 0) = some (0x81, 0x80000044) := by decide
theorem test_lh_sign_extends : after 3 0x00609183 (loads 0x80001000 0) = some (0xFFFFFFFFFFFF8122, 0x80000044) := by decide
theorem test_lhu_zero_extends : after 3 0x0060D183 (loads 0x80001000 0) = some (0x8122, 0x80000044) := by decide
theorem test_lh_misaligned : after 3 0x00109183 (loads 0x80001000 0) = some (0x6677, 0x80000044) := by decide
theorem test_lw_sign_extends : after 3 0x0040A183 (loads 0x80001000 0) = some (0xFFFFFFFF81223344, 0x80000044) := by decide
theorem test_lwu_zero_extends : after 3 0x0040E183 (loads 0x80001000 0) = some (0x81223344, 0x80000044) := by decide
theorem test_ld_whole : after 3 0x0000B183 (loads 0x80001000 0) = some (0x8122334455667788, 0x80000044) := by decide
theorem test_ld_misaligned : after 3 0x0030B183 (loads 0x80001000 0) = some (0x8122334455, 0x80000044) := by decide
theorem test_lw_past_the_window : trapAfter 0x0000A183 (loads 0x8000FFFC 0) = some .loadAccessFault := by decide
theorem test_lb_last_rom_byte : trapAfter 0x00008183 (loads 0xEFFF 0) = some .loadAccessFault := by decide
theorem test_sb_low_byte :
    bytesAfter 0x80002000 1 0x00208023 (regs 0x80002000 0x1234567890ABCDEF) = some ([0xEF], 0x80000044) := by decide
theorem test_sh_misaligned :
    bytesAfter 0x80002001 2 0x002090A3 (regs 0x80002000 0x1234567890ABCDEF) = some ([0xEF, 0xCD], 0x80000044) := by decide
theorem test_sw_negative_offset :
    bytesAfter 0x80002000 4 0xFE20AE23 (regs 0x80002004 0x1234567890ABCDEF) = some ([0xEF, 0xCD, 0xAB, 0x90], 0x80000044) := by decide
theorem test_sd_whole :
    bytesAfter 0x80002000 8 0x0020B023 (regs 0x80002000 0x1234567890ABCDEF) = some ([0xEF, 0xCD, 0xAB, 0x90, 0x78, 0x56, 0x34, 0x12], 0x80000044) := by decide
theorem test_sd_past_the_window : trapAfter 0x0020B023 (regs 0x8000FFF8 0x1) = some .storeAccessFault := by decide
theorem test_sw_to_rom : trapAfter 0x0020A023 (regs 0x1000 0x1) = some .storeAccessFault := by decide
theorem test_sb_last_dram_byte : trapAfter 0x00208023 (regs 0x8000FFFF 0x5A) = some .storeAccessFault := by decide
theorem test_beq_taken : after 0 0x00208863 (regs 5 5) = some (0, 0x80000050) := by decide
theorem test_bne_backwards : after 0 0xFC2090E3 (regs 1 2) = some (0, 0x80000000) := by decide
theorem test_blt_is_signed : after 0 0x0020C463 (regs 0xFFFFFFFFFFFFFFFF 0) = some (0, 0x80000048) := by decide
theorem test_bltu_is_unsigned : after 0 0x0020E463 (regs 0xFFFFFFFFFFFFFFFF 0) = some (0, 0x80000044) := by decide
theorem test_bge_equal_taken : after 0 0x0020D463 (regs 3 3) = some (0, 0x80000048) := by decide
theorem test_bgeu_not_taken : after 0 0x0020F463 (regs 0 0xFFFFFFFFFFFFFFFF) = some (0, 0x80000044) := by decide
theorem test_bge_min_offset : after 0 0x8020D063 (regs 0 0) = some (0, 0x7FFFF040) := by decide
theorem test_blt_max_offset_misaligned : trapAfter 0x7E20CFE3 (regs 0 1) = some .instructionAddressMisaligned := by decide
theorem test_beq_misaligned_target : trapAfter 0x00208363 (regs 0 0) = some .instructionAddressMisaligned := by decide
theorem test_bne_not_taken_unchecked : after 0 0x00209363 (regs 0 0) = some (0, 0x80000044) := by decide
theorem test_jal_links : after 3 0x001001EF (regs 0 0) = some (0x80000044, 0x80000840) := by decide
theorem test_jal_misaligned : trapAfter 0x002001EF (regs 0 0) = some .instructionAddressMisaligned := by decide
theorem test_jalr_misaligned : trapAfter 0x002081E7 (regs 0x80000100 0) = some .instructionAddressMisaligned := by decide
theorem test_jalr_rd_is_rs1 : after 1 0x000080E7 (regs 0x80000100 0) = some (0x80000044, 0x80000100) := by decide
theorem test_lui_negative : after 3 0x800001B7 (regs 0 0) = some (0xFFFFFFFF80000000, 0x80000044) := by decide
theorem test_lui_positive : after 3 0x7FFFF1B7 (regs 0 0) = some (0x7FFFF000, 0x80000044) := by decide
theorem test_auipc_wraps : after 3 0x80000197 (regs 0 0) = some (0x40, 0x80000044) := by decide
theorem test_auipc_adds : after 3 0x00001197 (regs 0 0) = some (0x80001040, 0x80000044) := by decide
theorem test_mul_wraps : after 3 0x022081B3 (regs 0x8000000000000000 0xFFFFFFFFFFFFFFFF) = some (0x8000000000000000, 0x80000044) := by decide
theorem test_mulh_min_squared : after 3 0x022091B3 (regs 0x8000000000000000 0x8000000000000000) = some (0x4000000000000000, 0x80000044) := by decide
theorem test_mulh_small_positive : after 3 0x022091B3 (regs 0xFFFFFFFFFFFFFFFF 0xFFFFFFFFFFFFFFFF) = some (0x0, 0x80000044) := by decide
theorem test_mulhu_max_squared : after 3 0x0220B1B3 (regs 0xFFFFFFFFFFFFFFFF 0xFFFFFFFFFFFFFFFF) = some (0xFFFFFFFFFFFFFFFE, 0x80000044) := by decide
theorem test_mulhsu_signed_by_unsigned : after 3 0x0220A1B3 (regs 0xFFFFFFFFFFFFFFFF 0xFFFFFFFFFFFFFFFF) = some (0xFFFFFFFFFFFFFFFF, 0x80000044) := by decide
theorem test_mulhsu_positive : after 3 0x0220A1B3 (regs 0x2 0xFFFFFFFFFFFFFFFF) = some (0x1, 0x80000044) := by decide
theorem test_div_overflow : after 3 0x0220C1B3 (regs 0x8000000000000000 0xFFFFFFFFFFFFFFFF) = some (0x8000000000000000, 0x80000044) := by decide
theorem test_div_truncates : after 3 0x0220C1B3 (regs 0xFFFFFFFFFFFFFFF9 0x2) = some (0xFFFFFFFFFFFFFFFD, 0x80000044) := by decide
theorem test_divu_by_zero : after 3 0x0220D1B3 (regs 0x7 0x0) = some (0xFFFFFFFFFFFFFFFF, 0x80000044) := by decide
theorem test_rem_by_zero : after 3 0x0220E1B3 (regs 0xFFFFFFFFFFFFFFF9 0x0) = some (0xFFFFFFFFFFFFFFF9, 0x80000044) := by decide
theorem test_rem_sign_of_dividend : after 3 0x0220E1B3 (regs 0x7 0xFFFFFFFFFFFFFFFE) = some (0x1, 0x80000044) := by decide
theorem test_remu_by_zero : after 3 0x0220F1B3 (regs 0x7 0x0) = some (0x7, 0x80000044) := by decide
theorem test_mulw_sign_extends : after 3 0x022081BB (regs 0x7FFFFFFF 0x2) = some (0xFFFFFFFFFFFFFFFE, 0x80000044) := by decide
theorem test_divw_overflow : after 3 0x0220C1BB (regs 0x80000000 0xFFFFFFFFFFFFFFFF) = some (0xFFFFFFFF80000000, 0x80000044) := by decide
theorem test_divw_ignores_upper : after 3 0x0220C1BB (regs 0x123456780000000A 0x3) = some (0x3, 0x80000044) := by decide
theorem test_divuw_by_zero : after 3 0x0220D1BB (regs 0x80000000 0x0) = some (0xFFFFFFFFFFFFFFFF, 0x80000044) := by decide
theorem test_divuw_sign_extends : after 3 0x0220D1BB (regs 0x80000000 0x1) = some (0xFFFFFFFF80000000, 0x80000044) := by decide
theorem test_remw_overflow : after 3 0x0220E1BB (regs 0x80000000 0xFFFFFFFFFFFFFFFF) = some (0x0, 0x80000044) := by decide
theorem test_remw_by_zero : after 3 0x0220E1BB (regs 0x5 0x0) = some (0x5, 0x80000044) := by decide
theorem test_remuw_by_zero : after 3 0x0220F1BB (regs 0xFFFFFFFF00000005 0x0) = some (0x5, 0x80000044) := by decide
theorem test_remuw_low_words : after 3 0x0220F1BB (regs 0xFFFFFFFFFFFFFFFF 0xA) = some (0x5, 0x80000044) := by decide

-- Worked out by hand from R166, R175, R275, R276, R316 and R318.
theorem test_xor_bits : after 3 0x0020C1B3 (regs 0xF0F0 0xFF00) = some (0x0FF0, 0x80000044) := by decide
theorem test_sraw_fills_sign : after 3 0x4020D1BB (regs 0x80000000 4) = some (0xFFFFFFFFF8000000, 0x80000044) := by decide
theorem test_bltu_taken : after 0 0x0020E463 (regs 0 1) = some (0, 0x80000048) := by decide
theorem test_bgeu_equal_taken : after 0 0x0020F463 (regs 7 7) = some (0, 0x80000048) := by decide
theorem test_divu_is_unsigned :
    after 3 0x0220D1B3 (regs 0xFFFFFFFFFFFFFFFF 2) = some (0x7FFFFFFFFFFFFFFF, 0x80000044) := by decide
theorem test_remu_is_unsigned : after 3 0x0220F1B3 (regs 0xFFFFFFFFFFFFFFFF 10) = some (5, 0x80000044) := by decide

theorem test_beq_misaligned_target_unchecked : after 0 0x00208363 unchecked = some (0, 0x80000046) := by decide
theorem test_load_to_x0_accesses_memory : trapAfter 0x0000A003 (regs 0x8000FFFC 0) = some .loadAccessFault := by decide
theorem test_ecall : trapAfter 0x00000073 start = some .environmentCallFromMMode := by decide
theorem test_ecall_with_rd : trapAfter 0x000000F3 start = some .environmentCallFromMMode := by decide
theorem test_ebreak : trapAfter 0x00100073 start = some .breakpoint := by decide
theorem test_mret_is_illegal : trapAfter 0x30200073 start = some .illegalInstruction := by decide
theorem test_fence_is_illegal : trapAfter 0x0FF0000F start = some .illegalInstruction := by decide

/-! ### Memory, bus and MMU (sections 1.5 to 1.7 and 3) -/

/-- The start state in 32-bit address mode. -/
def narrow : State := { start with xlen := .x32 }

theorem test_mmu_load_last_word : start.mmuLoad 0x8000FFFB .word = .ok 0 := by decide
theorem test_mmu_load_past_window : start.mmuLoad 0x8000FFFC .word = .err .loadAccessFault := by decide
theorem test_mmu_load_last_double : start.mmuLoad 0x8000FFF7 .doubleWord = .ok 0 := by decide
theorem test_mmu_load_double_past_window : start.mmuLoad 0x8000FFF8 .doubleWord = .err .loadAccessFault := by decide
theorem test_mmu_load_halfword_at_end : start.mmuLoad 0x8000FFFE .halfWord = .err .loadAccessFault := by decide
theorem test_mmu_store_last_byte : start.memWrite 0x8000FFFF .byte 1 = .err .storeAccessFault := by decide
theorem test_mmu_load_masks : narrow.mmuLoad 0x180000000 .word = .ok 0 := by decide
theorem test_mmu_load_does_not_mask : start.mmuLoad 0x180000000 .word = .err .loadAccessFault := by decide
theorem test_mmu_store_masks_to_rom : narrow.memWrite 0x100001000 .word 0 = .err .storeAccessFault := by decide
theorem test_validate_address :
    [start.validateAddress 0x8000FFFF, start.validateAddress 0x80010000, start.validateAddress 0xEFFF,
      start.validateAddress 0xF000, narrow.validateAddress 0x100001000] =
      [.ok true, .ok false, .ok true, .ok false, .ok true] := by decide
theorem test_bus_gap : start.busContains 0x0FFF = false ∧ start.busRead 0x0FFF .byte = .err .loadAccessFault ∧
    start.busWrite 0xF000 .byte [1] = .err .storeAccessFault := by decide
theorem test_bus_access_is_not_split : start.busRead 0xEFFC .word = .err .loadAccessFault := by decide
theorem test_rom_write_fails : romWrite .byte [0x5A] = .err .storeAccessFault := by decide

/-- Narrow reads of a stored DoubleWord (section 1.6). -/
theorem test_byte_order :
    ([(0x80001000, .byte), (0x80001000, .halfWord), (0x80001000, .word), (0x80001000, .doubleWord),
        (0x80001001, .halfWord), (0x80001004, .word), (0x80001007, .byte)] : List (Word × AccessSize)).map
        (fun q => start.dram.read (Memory.writeBytes [] 0x80001000 [0x01, 0x23, 0x45, 0x67, 0x89, 0xAB, 0xCD, 0xEF]) q.1 q.2) =
      [.ok 0x01, .ok 0x2301, .ok 0x67452301, .ok 0xEFCDAB8967452301, .ok 0x4523, .ok 0xEFCDAB89, .ok 0xEF] := by decide

theorem test_register_contract :
    (RegFile.zero.write 0 0xDEADBEEF).read 0 = 0 ∧ (RegFile.zero.write 31 7).read 31 = 7 ∧
      RegFile.zero.writeAt 32 1 = .refuse (.registerIndex 32) ∧ RegFile.zero.writeAt 40 1 = .refuse (.registerIndex 40) := by
  decide

theorem test_float_register_zero :
    (start.writeF 0 0x3FF0000000000000).readF 0 = 0 ∧ (start.writeF 5 9).readF 5 = 9 ∧ (start.writeF 5 9).readX 5 = 0 := by
  decide

/-! ### Images (section 1.9) -/

/-- The state after a load of [0xAA, 0xBB] into DRAM and then of another image. -/
def reloaded (p : Params) (image : List Byte) : Option (Word × Memory) :=
  match Boot.loadDramImage [0xAA, 0xBB] (Boot.created p .x64 0) with
  | .next s =>
    match Boot.loadDramImage image s with
    | .next t => some (t.dramImageLen, t.mem)
    | _ => none
  | _ => none

theorem test_clear_image_zeroes : reloaded Params.reference [] = some (0, []) := by decide
theorem test_clear_image_keeps_tail :
    reloaded { Params.reference with imageLoadZeroesTail := false } [] =
      some (0, [(0x80000000, 0xAA), (0x80000001, 0xBB)]) := by decide
theorem test_reload_zeroes_tail : reloaded Params.reference [0xCC] = some (1, [(0x80000000, 0xCC)]) := by decide
theorem test_reload_keeps_tail :
    reloaded { Params.reference with imageLoadZeroesTail := false } [0xCC] =
      some (1, [(0x80000000, 0xCC), (0x80000001, 0xBB)]) := by decide
theorem test_image_too_long :
    Boot.loadDramImage [1, 2, 3] (Boot.created { Params.reference with dramSize := 2 } .x64 0) = .refused .imageTooLong := rfl

/-! ### Cycles (section 5) -/

/-- The pc and the clock after a step. -/
def cycled (s : State) : Option (Word × Word) :=
  match step s with
  | .next t => some (t.pc, t.clock)
  | _ => none

/-- The start state at another pc, with the policy. -/
def at_ (pc : Word) (policy : FetchFaultPolicy) : State :=
  { start with pc := pc, params := { start.params with fetchFaultPolicy := policy } }

theorem test_cycle_nop : cycled ((at_ 0x80000000 .halt).withFetchWord 32 0x13) = some (0x80000004, 1) := by decide
theorem test_cycle_skips : cycled (at_ 0x7FFFFFF8 .skip) = some (0x7FFFFFFC, 0) := by decide
theorem test_cycle_halts : step (at_ 0x7FFFFFF8 .halt) = .fault (.trapped .loadAccessFault (at_ 0x7FFFFFF8 .halt)) := rfl
theorem test_cycle_end_of_dram : cycled (at_ 0x8000FFFC .skip) = some (0x80010000, 0) := by decide
theorem test_cycle_misaligned_pc : cycled ((at_ 0x80000002 .halt).withFetchWord 32 0x13) = some (0x80000006, 1) := by decide
theorem test_cycle_clock_wraps :
    cycled { (start.withFetchWord 32 0x13) with clock := 0xFFFFFFFFFFFFFFFF } = some (0x80000044, 0) := by decide
theorem test_cycle_pc_wraps : cycled (at_ 0xFFFFFFFFFFFFFFFC .skip) = some (0, 0) := by decide
theorem test_cycle_zero_rom : step (at_ 0x1000 .skip) = .fault (.trapped .illegalInstruction (at_ 0x1000 .skip)) := rfl
theorem test_cycle_runs_from_rom : cycled ((at_ 0x1000 .halt).withFetchWord 32 0x13) = some (0x1004, 1) := by decide

/-- The first step from reset with nothing placed fetches a zero word (log entry 5). -/
theorem test_step_from_reset : step State.reset = .fault (.trapped .illegalInstruction State.reset) := rfl

/-! ### The assembler's view (R123) -/

theorem test_pseudo_call : expand (.call 0x1800) = [.auipc 1 2, .jalr 1 1 (-2048)] := by decide

/-! ### Witnesses: concrete values that meet the hypotheses of each statement, clause by clause -/

/-- The invariant from one evaluation. -/
theorem inv_of {s : State}
    (h : (s.mem.wf && s.mem.all (fun c =>
        (decide (Config.romBase ≤ c.1) && decide (c.1 < Config.romBase + s.params.romSize.bytes)) ||
          (decide (Config.dramBase ≤ c.1) && decide (c.1 < Config.dramBase + s.params.dramSize))) &&
      s.params.valid && decide (s.mode = .machine) && decide (s.xlen = .x64)) = true) : s.Inv := by
  simp only [Bool.and_eq_true, decide_eq_true_eq, List.all_eq_true, Bool.or_eq_true] at h
  exact ⟨h.1.1.1.1, fun c hc => h.1.1.1.2 c hc, h.1.1.2, h.1.2, h.2⟩

/-- The start state over a word. -/
def ready (w : Nat) : State := start.withFetchWord 32 w

theorem test_witness_DecodeOfEncodeIsTheInstruction :
    [Instr.add 31 0 1, .addi 1 2 (-2048), .addi 1 2 2047, .sd 1 2 (-2048), .beq 1 2 (-4096), .beq 1 2 4094,
      .jal 1 (-1048576), .jal 1 1048574, .slli 1 1 31, .srai 1 1 0x400, .sraiw 1 1 0x41F, .lui 1 0xFFFFF, .ecall 1 1 0,
      .ebreak 1 1 1].all Instr.wf = true := by decide

theorem test_witness_EncodeOfDecodeIsTheWord : decode 0x80208063#32 = .instruction (.beq 1 2 (-4096)) := by decide

theorem test_witness_NoWordMatchesTwoPatterns :
    patterns.any (fun q => q.isMatch 0x00C38AB3#32) = true ∧ patterns.reverse.Perm patterns :=
  ⟨by decide, List.reverse_perm _⟩

theorem test_witness_DecodableWordsAreExactlyTheTable :
    start.xlen = .x64 ∧ decode 0x0200103B#32 = .undef ∧ decode 0x0000103B#32 ≠ .undef := by decide

theorem test_witness_LowBitsNotElevenAreUndefined : (0x00000001#32).extractLsb' 0 2 ≠ 0b11#2 := by decide

theorem test_witness_ShiftImmediatesAreToldApartBySevenBits :
    [0x00309093#32, 0x0030D093#32, 0x0030909B#32, 0x0030D09B#32].map (fun w => (opcodeOf w, funct3Of w)) =
      [(0b0010011#7, 0b001#3), (0b0010011#7, 0b101#3), (0b0011011#7, 0b001#3), (0b0011011#7, 0b101#3)] := by decide

theorem test_witness_EcallAndEbreakIgnoreRegisterFields :
    [0x000080F3#32, 0x001080F3#32].map (fun w => (opcodeOf w, funct3Of w, w.extractLsb' 20 12)) =
      [(0b1110011#7, 0b000#3, 0x000#12), (0b1110011#7, 0b000#3, 0x001#12)] := by decide

/-- Each answer of the fetch, and each outcome of the fetched instruction. -/
theorem test_witness_StepRunsTheDecodedInstruction :
    (at_ 0x8000FFFC .skip).mmuLoad 0x8000FFFC .word = .err .loadAccessFault ∧
      (at_ 0x8000FFFC .halt).mmuLoad 0x8000FFFC .word = .err .loadAccessFault ∧
      ({ start with mode := .user } : State).mmuLoad start.pc .word = .refuse .translationUnimplemented ∧
      (ready 0x13).mmuLoad (ready 0x13).pc .word = .ok 0x13 ∧ (ready 0x13).xlen = .x64 ∧
      decode (low32 0x13) = .instruction (.addi 0 0 0) ∧ exec (.addi 0 0 0) (ready 0x13) = .next (ready 0x13).advance ∧
      (ready 0x73).mmuLoad (ready 0x73).pc .word = .ok 0x73 ∧ decode (low32 0x73) = .instruction (.ecall 0 0 0) ∧
      exec (.ecall 0 0 0) (ready 0x73) = .fault (.trapped .environmentCallFromMMode (ready 0x73)) ∧
      start.mmuLoad start.pc .word = .ok 0 ∧ decode (low32 0) = .undef ∧
      narrow.mmuLoad narrow.pc .word = .ok 0 ∧ narrow.xlen = .x32 := by
  refine ⟨by decide, by decide, by decide, by decide, by decide, by decide, rfl, by decide, by decide, rfl, by decide,
    by decide, by decide, by decide⟩

/-- The last word window of DRAM and of ROM, and one address past each. -/
theorem test_witness_FetchReadsTheLittleEndianWordAtThePc :
    start.mode = .machine ∧ start.params.valid = true ∧
      LegalWindow start ((at_ 0x8000FFFB .skip).effectiveAddress 0x8000FFFB).toNat 4 ∧
      LegalWindow start ((at_ 0xEFFB .skip).effectiveAddress 0xEFFB).toNat 4 ∧
      ¬ LegalWindow start ((at_ 0xEFFC .skip).effectiveAddress 0xEFFC).toNat 4 ∧
      ¬ LegalWindow start ((at_ 0x8000FFFC .skip).effectiveAddress 0x8000FFFC).toNat 4 ∧
      (at_ 0x8000FFFC .skip).pc.toNat + 4 = Config.dramBase + (at_ 0x8000FFFC .skip).params.dramSize := by
  unfold LegalWindow
  decide

theorem test_witness_SkippedFetchFaultsReachAFetchableAddress :
    (at_ 0x7FFFFFF8 .skip).Inv ∧ (at_ 0x7FFFFFF8 .skip).params.fetchFaultPolicy = .skip ∧
      (at_ 0x7FFFFFF8 .skip).fetch = .err .loadAccessFault ∧ (at_ 0x7FFFFFF8 .halt).Inv ∧
      (at_ 0x7FFFFFF8 .halt).params.fetchFaultPolicy = .halt ∧ (at_ 0x7FFFFFF8 .halt).fetch = .err .loadAccessFault :=
  ⟨inv_of (by decide), by decide, by decide, inv_of (by decide), by decide, by decide⟩

theorem test_witness_PreconditionsAreRefused :
    32 ≤ 32 ∧ ([0x5A] : List Byte).length ≠ sizeBytes .word ∧ ({ start with mode := .user } : State).mode ≠ .machine ∧
      narrow.xlen = .x32 := by decide

theorem test_witness_PlacedWordIsTheNextInstruction :
    start.mem.wf = true ∧ start.params.valid = true ∧ start.fetch = .ok 0 := by decide

/-- The words of section 2.1 meet the mask equation of their rows. -/
theorem test_witness_RegisterRegisterResults :
    [0x00C38AB3#32, 0x40C38AB3#32, 0x00C39AB3#32, 0x00C3AAB3#32, 0x00C3BAB3#32, 0x00C3CAB3#32, 0x00C3DAB3#32,
      0x40C3DAB3#32, 0x00C3EAB3#32, 0x00C3FAB3#32].map (fun w => w &&& 0xFE00707F#32) =
    [0x00000033#32, 0x40000033#32, 0x00001033#32, 0x00002033#32, 0x00003033#32, 0x00004033#32, 0x00005033#32,
      0x40005033#32, 0x00006033#32, 0x00007033#32] := by decide

theorem test_witness_RegisterRegisterWordResults :
    [0x00C38ABB#32, 0x40C38ABB#32, 0x00C39ABB#32, 0x00C3DABB#32, 0x40C3DABB#32].map (fun w => w &&& 0xFE00707F#32) =
    [0x0000003B#32, 0x4000003B#32, 0x0000103B#32, 0x0000503B#32, 0x4000503B#32] := by decide

theorem test_witness_RegisterImmediateResults :
    [0xFFD38A93#32, 0xFFD3AA93#32, 0xFFD3BA93#32, 0xFFD3CA93#32, 0xFFD3EA93#32, 0xFFD3FA93#32].map
        (fun w => w &&& 0x0000707F#32) =
      [0x00000013#32, 0x00002013#32, 0x00003013#32, 0x00004013#32, 0x00006013#32, 0x00007013#32] ∧
    [0x00539A93#32, 0x0053DA93#32, 0x4053DA93#32].map (fun w => w &&& 0xFE00707F#32) =
      [0x00001013#32, 0x00005013#32, 0x40005013#32] := by decide

theorem test_witness_RegisterImmediateWordResults :
    0xFFD38A9B#32 &&& 0x0000707F#32 = 0x0000001B#32 ∧
    [0x00539A9B#32, 0x0053DA9B#32, 0x4053DA9B#32].map (fun w => w &&& 0xFE00707F#32) =
      [0x0000101B#32, 0x0000501B#32, 0x4000501B#32] := by decide

/-- The last legal address of each size in DRAM, the last in ROM, and the first illegal one after each. -/
theorem test_witness_LoadResults :
    [0xFFD38A83#32, 0xFFD39A83#32, 0xFFD3AA83#32, 0xFFD3BA83#32, 0xFFD3CA83#32, 0xFFD3DA83#32, 0xFFD3EA83#32].map
        (fun w => w &&& 0x0000707F#32) =
      [0x00000003#32, 0x00001003#32, 0x00002003#32, 0x00003003#32, 0x00004003#32, 0x00005003#32, 0x00006003#32] ∧
    start.mode = .machine ∧ start.params.valid = true ∧
    (∀ n ∈ [1, 2, 4, 8],
      LegalWindow start (start.effectiveAddress (start.x.read 0 + BitVec.ofNat 64 (0x8000FFFF - n))).toNat n ∧
      ¬ LegalWindow start (start.effectiveAddress (start.x.read 0 + BitVec.ofNat 64 (0x80010000 - n))).toNat n ∧
      LegalWindow start (start.effectiveAddress (start.x.read 0 + BitVec.ofNat 64 (0xEFFF - n))).toNat n ∧
      ¬ LegalWindow start (start.effectiveAddress (start.x.read 0 + BitVec.ofNat 64 (0xF000 - n))).toNat n) := by
  unfold LegalWindow
  decide

theorem test_witness_StoreResults :
    [0xFEC38C23#32, 0xFEC39C23#32, 0xFEC3AC23#32, 0xFEC3BC23#32].map (fun w => w &&& 0x0000707F#32) =
      [0x00000023#32, 0x00001023#32, 0x00002023#32, 0x00003023#32] ∧
    start.mode = .machine ∧ start.params.valid = true ∧ start.mem.wf = true ∧
    (∀ n ∈ [1, 2, 4, 8],
      DramWindow start (start.effectiveAddress (start.x.read 0 + BitVec.ofNat 64 (0x8000FFFF - n))).toNat n ∧
      ¬ DramWindow start (start.effectiveAddress (start.x.read 0 + BitVec.ofNat 64 (0x80010000 - n))).toNat n ∧
      ¬ DramWindow start (start.effectiveAddress (start.x.read 0 + 0x1000)).toNat n) := by
  unfold DramWindow
  decide

/-- Not taken; taken to an aligned target; taken to a misaligned one with the check off and on. -/
theorem test_witness_BranchResults :
    [0xFEC388E3#32, 0xFEC398E3#32, 0xFEC3C8E3#32, 0xFEC3D8E3#32, 0xFEC3E8E3#32, 0xFEC3F8E3#32].map
        (fun w => w &&& 0x0000707F#32) =
      [0x00000063#32, 0x00001063#32, 0x00004063#32, 0x00005063#32, 0x00006063#32, 0x00007063#32] ∧
    ([fun a b => decide (a = b), fun a b => decide (a ≠ b), fun a b => decide (a.toInt < b.toInt),
        fun a b => decide (b.toInt ≤ a.toInt), fun a b => decide (a.toNat < b.toNat),
        fun a b => decide (b.toNat ≤ a.toNat)] : List (Word → Word → Bool)).map
          (fun c => (c ((regs 1 1).x.read 1) ((regs 1 1).x.read 2), c ((regs 1 2).x.read 1) ((regs 1 2).x.read 2))) =
      [(true, false), (false, true), (false, true), (true, false), (false, true), (true, false)] ∧
    start.params.checkTargetAlign = true ∧ (start.pc + 16).toNat % 4 = 0 ∧ (start.pc + 6).toNat % 4 ≠ 0 ∧
    unchecked.params.checkTargetAlign = false := by decide

/-- An aligned target, an odd sum that bit 0's clearing aligns, and a misaligned target with the check on and off. -/
theorem test_witness_JumpResults :
    0x801FFAEF#32 &&& 0x0000007F#32 = 0x0000006F#32 ∧ 0xFFD38AE7#32 &&& 0x0000707F#32 = 0x00000067#32 ∧
    start.params.checkTargetAlign = true ∧ unchecked.params.checkTargetAlign = false ∧
    (start.pc + 2048).toNat % 4 = 0 ∧ (start.pc + 2).toNat % 4 ≠ 0 ∧
    (0x80000100 : Word) = BitVec.ofNat 64 (2 * (((regs 0x80000101 0).x.read 1 + 0).toNat / 2)) ∧
    (0x80000100 : Word).toNat % 4 = 0 ∧
    (0x80000102 : Word) = BitVec.ofNat 64 (2 * (((regs 0x80000100 0).x.read 1 + 3).toNat / 2)) ∧
    (0x80000102 : Word).toNat % 4 ≠ 0 := by decide

theorem test_witness_UpperImmediateResults :
    0xABCDEAB7#32 &&& 0x0000007F#32 = 0x00000037#32 ∧ 0xABCDEA97#32 &&& 0x0000007F#32 = 0x00000017#32 := by decide

theorem test_witness_EcallAndEbreakStopTheMachine :
    0x000000F3#32 &&& 0xFFF0707F#32 = 0x00000073#32 ∧ 0x001080F3#32 &&& 0xFFF0707F#32 = 0x00100073#32 := by decide

/-- An unmatched word fetched; a compressed word; 64-bit shifts by 32 (SLLI) and by 63 (SRAI). -/
theorem test_witness_UndefinedWordStopsTheMachine :
    patterns.all (fun q => !q.isMatch 0x00000000#32) = true ∧ (ready 0x30200073).fetch = .ok 0x30200073 ∧
      (ready 0x30200073).xlen = .x64 ∧ patterns.all (fun q => !q.isMatch (low32 0x30200073)) = true ∧
      (0x00000001#32).extractLsb' 0 2 ≠ 0b11#2 ∧
      [0x02009093#32, 0x43F0D093#32].map (fun w => (opcodeOf w, funct3Of w, w.extractLsb' 25 1)) =
        [(0b0010011#7, 0b001#3, 1#1), (0b0010011#7, 0b101#3, 1#1)] := by decide

theorem test_witness_MultiplyResults :
    [0x02C38AB3#32, 0x02C39AB3#32, 0x02C3AAB3#32, 0x02C3BAB3#32, 0x02C38ABB#32].map (fun w => w &&& 0xFE00707F#32) =
      [0x02000033#32, 0x02001033#32, 0x02002033#32, 0x02003033#32, 0x0200003B#32] := by decide

theorem test_witness_DivideResults :
    [0x02C3CAB3#32, 0x02C3DAB3#32, 0x02C3EAB3#32, 0x02C3FAB3#32].map (fun w => w &&& 0xFE00707F#32) =
      [0x02004033#32, 0x02005033#32, 0x02006033#32, 0x02007033#32] := by decide

theorem test_witness_DivideWordResults :
    [0x02C3CABB#32, 0x02C3DABB#32, 0x02C3EABB#32, 0x02C3FABB#32].map (fun w => w &&& 0xFE00707F#32) =
      [0x0200403B#32, 0x0200503B#32, 0x0200603B#32, 0x0200703B#32] := by decide

/-- Zero, overflow and ordinary divisors, in both widths, with dividends of both signs. -/
theorem test_witness_DivisionLaw :
    minSigned = 0x8000000000000000 ∧ allOnes = 0xFFFFFFFFFFFFFFFF ∧ (2 : Word) ≠ 0#64 ∧
      ¬ ((7 : Word) = minSigned ∧ (2 : Word) = allOnes) ∧ 0 ≤ (7 : Word).toInt ∧ (0xFFFFFFFFFFFFFFF9 : Word).toInt ≤ 0 ∧
      (0x100000000 : Word).setWidth 32 = 0#32 ∧ ((0x80000000 : Word).setWidth 32).toInt = -2147483648 ∧
      ((0xFFFFFFFF : Word).setWidth 32).toInt = -1 ∧ (2 : Word).setWidth 32 ≠ 0#32 := by decide

theorem test_witness_HighAndLowHalvesMakeTheExactProduct :
    (3 : RegIdx) ≠ 0 ∧
      exec (.mul 3 1 2) (regs 0x8000000000000000 2) = .next ((regs 0x8000000000000000 2).writeX 3 0).advance ∧
      exec (.mulh 3 1 2) (regs 0x8000000000000000 2) =
        .next ((regs 0x8000000000000000 2).writeX 3 0xFFFFFFFFFFFFFFFF).advance ∧
      exec (.mulhsu 3 1 2) (regs 0x8000000000000000 2) =
        .next ((regs 0x8000000000000000 2).writeX 3 0xFFFFFFFFFFFFFFFF).advance ∧
      exec (.mulhu 3 1 2) (regs 0x8000000000000000 2) = .next ((regs 0x8000000000000000 2).writeX 3 1).advance :=
  ⟨by decide, rfl, rfl, rfl, rfl⟩

theorem test_witness_WordFormsIgnoreTheUpperHalves :
    low32 ((regs 0x123456789 1).readX 1) = low32 ((regs 0xFF23456789 1).readX 1) ∧
      low32 ((regs 0x123456789 1).readX 2) = low32 ((regs 0xFF23456789 0x500000001).readX 2) ∧
      exec (.addw 3 1 2) (regs 0x123456789 1) = .next ((regs 0x123456789 1).writeX 3 0x2345678A).advance ∧
      exec (.addw 3 1 2) (regs 0xFF23456789 0x500000001) =
        .next ((regs 0xFF23456789 0x500000001).writeX 3 0x2345678A).advance :=
  ⟨by decide, by decide, rfl, rfl⟩

theorem test_witness_WordImmediateFormsIgnoreTheUpperHalf :
    low32 ((regs 0x17FFFFFFF 0).readX 1) = low32 ((regs 0xFF7FFFFFFF 0).readX 1) ∧
      low32 (1 : Word) = low32 (0x500000001 : Word) ∧
      exec (.addiw 3 1 1) (regs 0x17FFFFFFF 0) = .next ((regs 0x17FFFFFFF 0).writeX 3 0xFFFFFFFF80000000).advance ∧
      exec (.addiw 3 1 0x500000001) (regs 0xFF7FFFFFFF 0) =
        .next ((regs 0xFF7FFFFFFF 0).writeX 3 0xFFFFFFFF80000000).advance :=
  ⟨by decide, by decide, rfl, rfl⟩

/-- A register form, a store with both sides of its bytes, and an untaken branch. -/
theorem test_witness_EveryInstructionFrame :
    exec (.addi 3 1 5) (regs 7 0) = .next ((regs 7 0).writeX 3 12).advance ∧ destOf (.addi 3 1 5) ≠ some 4 ∧
      storeOf (.addi 3 1 5) = none ∧ isTakenTransfer (.addi 3 1 5) (regs 7 0) = false ∧
      exec (.sb 1 2 0) (regs 0x8000FFFE 0x5A) =
        .next ({ regs 0x8000FFFE 0x5A with mem := [(0x8000FFFE, 0x5A)] } : State).advance ∧
      storeOf (.sb 1 2 0) = some (.byte, 1, 2, 0) ∧
      0x8000FFFD < ((regs 0x8000FFFE 0x5A).effectiveAddress (addressOf ((regs 0x8000FFFE 0x5A).readX 1) 0)).toNat ∧
      ((regs 0x8000FFFE 0x5A).effectiveAddress (addressOf ((regs 0x8000FFFE 0x5A).readX 1) 0)).toNat + sizeBytes .byte ≤
        0x8000FFFF ∧
      exec (.bltu 1 2 8) (regs 3 3) = .next (regs 3 3).advance ∧ isTakenTransfer (.bltu 1 2 8) (regs 3 3) = false ∧
      isTakenTransfer (.bgeu 1 2 8) (regs 3 3) = true :=
  ⟨rfl, by decide, by decide, by decide, rfl, by decide, by decide, by decide, rfl, by decide, by decide⟩

theorem test_witness_StoreFrame :
    storeOf (.sb 1 2 0) = some (.byte, 1, 2, 0) ∧ (regs 0x8000FFFE 0x5A).mem.wf = true ∧
      exec (.sb 1 2 0) (regs 0x8000FFFE 0x5A) =
        .next ({ regs 0x8000FFFE 0x5A with mem := [(0x8000FFFE, 0x5A)] } : State).advance := ⟨by decide, by decide, rfl⟩

/-- The last legal address, the one after it, and the window's end. -/
theorem test_witness_AccessWindowOfADevice :
    start.dram.base + start.dram.len + 8 ≤ 18446744073709551616 ∧ start.dram.legal 0x8000FFFB .word = true ∧
      start.dram.legal 0x8000FFFC .word = false ∧
      (0x8000FFFB : Word).toNat + sizeBytes .word + 1 = start.dram.base + start.dram.len ∧
      start.dram.base ≤ (0x8000FFFB : Word).toNat := by decide

theorem test_witness_DramWriteIsAllOrNothing :
    Memory.wf [] = true ∧ ([1, 2, 3] : List Byte).length ≠ sizeBytes .word ∧
      ([1, 2, 3, 4] : List Byte).length = sizeBytes .word ∧ start.dram.legal 0x8000FFFC .word = false ∧
      start.dram.legal 0x8000FFFB .word = true := by decide

theorem test_witness_RomWriteAlwaysFails :
    ([0x5A] : List Byte).length = sizeBytes .byte ∧ start.rom.contains 0xEFFF = true ∧ start.rom.contains 0xF000 = false := by
  decide

theorem test_witness_BusRoutingAndItsConsequences :
    start.params.valid = true ∧ start.rom.contains 0x1000 = true ∧ start.rom.contains 0x80000000 = false ∧
      start.busContains 0xF000 = false ∧ start.rom.contains 0xEFFC = true ∧
      Config.romBase + start.params.romSize.bytes ≤ (0xEFFC : Word).toNat + sizeBytes .word := by decide

theorem test_witness_MmuMasksTranslatesAndAsksTheBus :
    narrow.xlen = .x32 ∧ start.xlen = .x64 ∧ start.mode = .machine ∧
      start.busWrite (start.effectiveAddress 0x8000FFFE) .byte (disassemble 0x5A 1) = .ok [(0x8000FFFE, 0x5A)] ∧
      start.busWrite (start.effectiveAddress 0x8000FFFF) .byte (disassemble 0x5A 1) = .err .storeAccessFault ∧
      ({ start with mode := .supervisor } : State).mode ≠ .machine ∧ ({ start with mode := .user } : State).mode ≠ .machine := by
  decide

theorem test_witness_NarrowReadsSeeTheBytesOfAWideWrite :
    start.dram.base + start.dram.len + 8 ≤ 18446744073709551616 ∧ Memory.wf [] = true ∧
      start.dram.writeRam [] 0x8000FFF6 .doubleWord (disassemble 0x0102030405060708 8) =
        .ok [(0x8000FFF6, 8), (0x8000FFF7, 7), (0x8000FFF8, 6), (0x8000FFF9, 5), (0x8000FFFA, 4), (0x8000FFFB, 3),
          (0x8000FFFC, 2), (0x8000FFFD, 1)] ∧
      6 + sizeBytes .halfWord ≤ sizeBytes .doubleWord ∧
      start.dram.legal (0x8000FFF6 + BitVec.ofNat 64 6) .halfWord = true := by decide

theorem test_witness_LoadAfterStoreGivesTheStoredValue :
    start.mode = .machine ∧ start.params.valid = true ∧ start.mem.wf = true ∧
      start.memWrite 0x80001000 .halfWord 0xABCDEF = .ok { start with mem := [(0x80001000, 0xEF), (0x80001001, 0xCD)] } ∧
      (start.effectiveAddress 0x80000FFC).toNat + sizeBytes .word ≤ (start.effectiveAddress 0x80001000).toNat ∧
      (start.effectiveAddress 0x80001000).toNat + sizeBytes .halfWord ≤ (start.effectiveAddress 0x80001002).toNat := by
  decide

/-- `sw x2, 0(x1)` with x1 the address of the next instruction and x2 the word of ECALL. -/
theorem test_witness_StoredWordIsTheNextInstruction :
    ((regs 0x80000044 0x73).withFetchWord 32 0x0020A023).Inv ∧
      ((regs 0x80000044 0x73).withFetchWord 32 0x0020A023).fetch = .ok 0x0020A023 ∧
      decode (low32 0x0020A023) = .instruction (.sw 1 2 0) ∧
      (regs 0x80000044 0x73).readX 1 + 0 = (regs 0x80000044 0x73).pc + 4#64 ∧
      step ((regs 0x80000044 0x73).withFetchWord 32 0x0020A023) =
        .next { regs 0x80000044 0x73 with
          pc := 0x80000044, clock := 1,
          mem := [(0x80000040, 0x23), (0x80000041, 0xA0), (0x80000042, 0x20), (0x80000044, 0x73)] } :=
  ⟨inv_of (by decide), by decide, by decide, by decide, rfl⟩

/-- A HalfWord stored over the last two of a fetched word's bytes. -/
theorem test_witness_FetchSeesEveryEarlierStore :
    (regs 0x80001002 0xABCD).Inv ∧ storeOf (.sh 1 2 0) = some (.halfWord, 1, 2, 0) ∧
      exec (.sh 1 2 0) (regs 0x80001002 0xABCD) =
        .next ({ regs 0x80001002 0xABCD with mem := [(0x80001002, 0xCD), (0x80001003, 0xAB)] } : State).advance ∧
      ({ at_ 0x80001000 .skip with mem := [(0x80001002, 0xCD), (0x80001003, 0xAB)] } : State).fetch = .ok 0xABCD0000 ∧
      ¬ ((0x80001002 : Nat) ≤ 0x80001000 + 1) ∧ (0x80001002 : Nat) ≤ 0x80001000 + 2 :=
  ⟨inv_of (by decide), by decide, rfl, by decide, by decide, by decide⟩

/-- An image that fills its device, one a byte too long, and one that leaves a tail. -/
theorem test_witness_ImageLoadCopiesAndZeroesTheTail :
    start.mem.wf = true ∧ start.params.valid = true ∧ (List.replicate 0x10000 (1 : Byte)).length ≤ start.params.dramSize ∧
      start.params.dramSize < (List.replicate 0x10001 (1 : Byte)).length ∧
      (List.replicate 0xE000 (1 : Byte)).length ≤ start.params.romSize.bytes ∧
      start.params.romSize.bytes < (List.replicate 0xE001 (1 : Byte)).length ∧
      ([1] : List Byte).length ≤ 1 ∧ 1 < start.params.dramSize ∧ 1 < start.params.romSize.bytes := by
  simp only [List.length_replicate]
  decide

theorem test_witness_InitStagesBothImages :
    start.params.valid = true ∧ (((some [1, 2]).getD []) : List Byte).length ≤ start.params.romSize.bytes ∧
      ((none.getD []) : List Byte).length ≤ start.params.dramSize ∧
      start.params.dramSize < ((some (List.replicate 0x10001 (1 : Byte))).getD []).length ∧
      start.params.romSize.bytes < ((some (List.replicate 0xE001 (1 : Byte))).getD []).length ∧
      Boot.init start.params .x64 none (some [0x13]) 0x80000000 =
        .next { Boot.created start.params .x64 0x80000000 with mem := [(0x80000000, 0x13)], dramImageLen := 1 } := by
  refine ⟨by decide, by decide, by decide, ?_, ?_, rfl⟩ <;> simp only [Option.getD_some, List.length_replicate] <;> decide

theorem test_witness_RegisterFilesReadWhatWasWritten : (31 : RegIdx) ≠ 0 ∧ (30 : RegIdx) ≠ 31 := by decide

theorem test_witness_StepKeepsTheInvariant :
    (ready 0x13).Inv ∧ step (ready 0x13) = .next (ready 0x13).advance.tick := ⟨inv_of (by decide), rfl⟩

theorem test_witness_NoStepIsRefusedUnderTheInvariant :
    (ready 0x13).Inv ∧ step { start with mode := .user } = .refused .translationUnimplemented ∧
      step narrow = .refused .executeXlen32 ∧ 32 ≤ 32 ∧ ([] : List Byte).length ≠ sizeBytes .byte ∧
      narrow.fetch = .ok 0 ∧ narrow.xlen = .x32 ∧ start.params.valid = true ∧
      Boot.init start.params .x64 none none 0x80000000 = .next (Boot.created start.params .x64 0x80000000) :=
  ⟨inv_of (by decide), rfl, rfl, by decide, by decide, by decide, by decide, by decide, rfl⟩

theorem test_witness_TrapsArePreciseAndOfSixKinds :
    step (ready 0x73) = .fault (.trapped .environmentCallFromMMode (ready 0x73)) ∧
      exec (.lw 3 1 0) (regs 0x8000FFFC 0) = .fault (.trapped .loadAccessFault (regs 0x8000FFFC 0)) := ⟨rfl, rfl⟩

/-- A store to the last reachable byte; the last byte of DRAM and the address below DRAM are in the premise's range. -/
theorem test_witness_OnlyReachableDramBytesChange :
    ((regs 0x8000FFFE 0x5A).withFetchWord 32 0x00208023).Inv ∧
      bytesAfter 0x8000FFFE 1 0x00208023 (regs 0x8000FFFE 0x5A) = some ([0x5A], 0x80000044) ∧
      0x7FFFFFFF < Config.dramBase ∧ Config.dramBase + start.params.dramSize ≤ 0x8000FFFF + 1 :=
  ⟨inv_of (by decide), by decide, by decide, by decide⟩

theorem test_witness_PcStaysFourAligned :
    (ready 0x13).params.checkTargetAlign = true ∧ (ready 0x13).pcAligned ∧ step (ready 0x13) = .next (ready 0x13).advance.tick :=
  ⟨by decide, by unfold State.pcAligned; decide, rfl⟩

theorem test_witness_ClockCountsCompletedExecutes :
    step (ready 0x13) = .next (ready 0x13).advance.tick ∧ (ready 0x13).fetch = .ok 0x13 ∧
      step (at_ 0x8000FFFC .skip) = .next (at_ 0x8000FFFC .skip).advance ∧
      (at_ 0x8000FFFC .skip).fetch = .err .loadAccessFault ∧
      exec (.addi 0 0 0) (ready 0x13) = .next (ready 0x13).advance := ⟨rfl, by decide, rfl, by decide, rfl⟩

theorem test_witness_ModeWidthAndParametersNeverChange :
    step (ready 0x13) = .next (ready 0x13).advance.tick ∧ narrow.xlen = .x32 ∧ start.xlen = .x64 := ⟨rfl, by decide, by decide⟩

/-- Both ends of the offset's range. -/
theorem test_witness_CallExpansionReachesItsTarget :
    ([0xFFFFFFFF7FFFF800, 0x7FFFF7FC] : List Word).all (fun off =>
      decide (-2147483648 ≤ off.toInt + 2048) && decide (off.toInt + 2048 < 2147483648) &&
        decide ((start.pc + off).toNat % 4 = 0)) = true := by decide

end Sys2Proof.Tests
end

/-! PROOFS, family 00_scope: what a step keeps of the state, the invariant along steps, runs and
creation, and which steps are refused. -/

namespace Sys2Proof.Machine

/-! ### What an instruction and a step leave unchanged -/

/-- The fields of the state that no rule of the cycle writes: the MMU's modes, the construction
parameters, the floating-point file and the image length (R6, R27, R32, R33, R36). -/
structure State.SameSetting (s t : State) : Prop where
  mode         : t.mode = s.mode
  xlen         : t.xlen = s.xlen
  params       : t.params = s.params
  f            : t.f = s.f
  dramImageLen : t.dramImageLen = s.dramImageLen

/-- The memory of `t` is that of `s`, or that of `s` with the bytes of one access stored in a legal
window of DRAM (R54, R56). -/
def State.StoresAtMostOnce (s t : State) : Prop :=
  t.mem = s.mem ∨ ∃ (a v : Word) (n : AccessSize), s.dram.legal a n = true ∧
    t.mem = s.mem.writeBytes a.toNat (disassemble v (sizeBytes n))

theorem execCase_of_eq {i : Instr} {s : State} {o : Host.Outcome State Fault Refusal} (h : exec i s = o) :
    ExecCase i s o := h ▸ exec_cases i s

theorem exec_sameSetting {i : Instr} {s t : State} (h : exec i s = .next t) : s.SameSetting t := by
  cases execCase_of_eq h with
  | wrote | stored | fellThrough | branched | linked => exact ⟨rfl, rfl, rfl, rfl, rfl⟩

theorem exec_storesAtMostOnce {i : Instr} {s t : State} (h : exec i s = .next t) : s.StoresAtMostOnce t := by
  cases execCase_of_eq h with
  | wrote | fellThrough | branched | linked => exact .inl rfl
  | stored n rs1 rs2 imm _ _ _ _ _ hl => exact .inr ⟨_, _, n, hl, rfl⟩

theorem step_sameSetting {s t : State} (h : step s = .next t) : s.SameSetting t := by
  rcases step_next h with ⟨-, -, rfl⟩ | ⟨v, i, u, -, -, -, hu, rfl⟩
  · exact ⟨rfl, rfl, rfl, rfl, rfl⟩
  · obtain ⟨hmode, hxlen, hparams, hf, hlen⟩ := exec_sameSetting hu
    exact ⟨hmode, hxlen, hparams, hf, hlen⟩

theorem step_storesAtMostOnce {s t : State} (h : step s = .next t) : s.StoresAtMostOnce t := by
  rcases step_next h with ⟨-, -, rfl⟩ | ⟨v, i, u, -, -, -, hu, rfl⟩
  · exact .inl rfl
  · exact (exec_storesAtMostOnce hu : s.StoresAtMostOnce u)

/-! ### The invariant: created, kept by image loads, kept by steps -/

/-- The invariant passes to a state with the same parameters and modes whose memory is canonical and
lists only addresses listed before or backed by a device. -/
theorem inv_of_mem {s t : State} (hi : s.Inv) (hp : t.params = s.params) (hmode : t.mode = s.mode)
    (hx : t.xlen = s.xlen) (hw : t.mem.wf = true) (hb : ∀ c ∈ t.mem, c ∈ s.mem ∨ s.IsBacked c.1) : t.Inv where
  memCanonical := hw
  memBacked c hc := by
    have hs : s.IsBacked c.1 := (hb c hc).elim (hi.memBacked c) id
    simpa only [State.IsBacked, hp] using hs
  paramsValid := hp ▸ hi.paramsValid
  modeMachine := hmode.trans hi.modeMachine
  xlen64 := hx.trans hi.xlen64

/-- Every byte of a legal DRAM window is a byte of a device (R34, R54). -/
theorem isBacked_of_dram_legal {s : State} {a : Word} {n : AccessSize} {k : Nat} (hp : s.params.valid = true)
    (hl : s.dram.legal a n = true) (hk : a.toNat ≤ k ∧ k < a.toNat + sizeBytes n) : s.IsBacked k := by
  have hw := (dram_legal_iff s a n hp).1 hl
  exact .inr ⟨by omega, by omega⟩

theorem step_inv {s t : State} (hi : s.Inv) (h : step s = .next t) : t.Inv := by
  have hset := step_sameSetting h
  have keep := inv_of_mem hi hset.params hset.mode hset.xlen
  rcases step_storesAtMostOnce h with hm | ⟨a, v, n, hl, hm⟩
  · exact keep (hm ▸ hi.memCanonical) fun c hc => .inl (hm ▸ hc)
  · refine keep (hm ▸ wf_writeBytes _ _ hi.memCanonical) fun c hc => ?_
    rcases mem_writeBytes (hm ▸ hc) with hin | hold
    · exact .inr (isBacked_of_dram_legal hi.paramsValid hl (by simpa using hin))
    · exact .inl hold

/-- A machine with valid parameters and XLEN = 64 meets the invariant before any image (R39, R450). -/
theorem created_inv {p : Params} (hp : p.valid = true) (pc0 : Word) : (Boot.created p .x64 pc0).Inv where
  memCanonical := rfl
  memBacked _ hc := absurd hc List.not_mem_nil
  paramsValid := hp
  modeMachine := rfl
  xlen64 := rfl

theorem loadRomImage_inv {s t : State} {image : List Byte} (hi : s.Inv) (h : Boot.loadRomImage image s = .next t) :
    t.Inv := by
  rcases Nat.lt_or_ge s.params.romSize.bytes image.length with hlong | hfits
  · cases (loadRomImage_long hlong).symm.trans h
  · cases (loadRomImage_ok hfits).symm.trans h
    exact inv_of_mem hi rfl rfl rfl (wf_loadImage _ _ _ hi.memCanonical)
      fun c hc => (mem_loadImage hc hfits).imp_right .inl

theorem loadDramImage_inv {s t : State} {image : List Byte} (hi : s.Inv) (h : Boot.loadDramImage image s = .next t) :
    t.Inv := by
  rcases Nat.lt_or_ge s.params.dramSize image.length with hlong | hfits
  · cases (loadDramImage_long hlong).symm.trans h
  · cases (loadDramImage_ok hfits).symm.trans h
    exact inv_of_mem hi rfl rfl rfl (wf_loadImage _ _ _ hi.memCanonical)
      fun c hc => (mem_loadImage hc hfits).imp_right .inr

theorem optionally_inv {load : List Byte → State → Host.Outcome State Fault Refusal}
    (hload : ∀ image s t, s.Inv → load image s = .next t → t.Inv) {image : Option (List Byte)} {s t : State}
    (hi : s.Inv) (h : Boot.optionally load image s = .next t) : t.Inv := by
  cases image with
  | none => cases h; exact hi
  | some bytes => exact hload bytes s t hi h

/-- Every machine that init answers with XLEN = 64 and valid parameters meets the invariant (R450, R452). -/
theorem init_inv {p : Params} {romImage dramImage : Option (List Byte)} {pc0 : Word} {s : State}
    (hp : p.valid = true) (h : Boot.init p .x64 romImage dramImage pc0 = .next s) : s.Inv := by
  unfold Boot.init at h
  cases hrom : Boot.optionally Boot.loadRomImage romImage (Boot.created p .x64 pc0) with
  | next t =>
    rw [hrom] at h
    exact optionally_inv (fun _ _ _ => loadDramImage_inv)
      (optionally_inv (fun _ _ _ => loadRomImage_inv) (created_inv hp pc0) hrom) h
  | fault r => rw [hrom] at h; cases h
  | refused r => rw [hrom] at h; cases h

/-! ### Which steps and which contracts refuse -/

theorem exec_refused {i : Instr} {s : State} {r : Refusal} (h : exec i s = .refused r) :
    r = .translationUnimplemented ∧ s.mode ≠ .machine := by
  cases execCase_of_eq h with
  | refused hm => exact ⟨rfl, hm⟩

theorem afterExecute_eq_refused {o : Host.Outcome State Fault Refusal} {r : Refusal} :
    afterExecute o = .refused r ↔ o = .refused r := by
  cases o <;> simp

/-- A step is refused for the mode or for the width, and for nothing else (R151). -/
theorem step_refused {s : State} {r : Refusal} (h : step s = .refused r) :
    (r = .translationUnimplemented ∧ s.mode ≠ .machine) ∨ (r = .executeXlen32 ∧ s.xlen = .x32) := by
  generalize ho : step s = o at h
  have hc := ho ▸ step_cases s
  cases hc with
  | skipped | halted | illegal => cases h
  | ran v i => exact .inl (exec_refused (afterExecute_eq_refused.1 h))
  | wrongWidth v _ hx => cases h; exact .inr ⟨rfl, hx⟩
  | wrongMode hm => cases h; exact .inl ⟨rfl, hm⟩

theorem step_not_refused {s : State} (hi : s.Inv) (r : Refusal) : step s ≠ .refused r := by
  intro h
  rcases step_refused h with ⟨-, hmode⟩ | ⟨-, hx⟩
  · exact hmode hi.modeMachine
  · cases hi.xlen64.symm.trans hx

/-- No run from a state that meets the invariant is refused: each step keeps the invariant. -/
theorem run_not_refused {s : State} (hi : s.Inv) (k : Nat) (r : Refusal) : Sys2Proof.core.run k s ≠ .refused r := by
  induction k generalizing s with
  | zero => intro h; cases h
  | succ k ih =>
    cases h : step s with
    | next t => rw [run_next h]; exact ih (step_inv hi h)
    | fault q => rw [run_fault h]; intro h'; cases h'
    | refused q => exact absurd h (step_not_refused hi q)

theorem readAt_of_ge (rf : RegFile) {i : Nat} (h : 32 ≤ i) : rf.readAt i = .refuse (.registerIndex i) :=
  dif_neg (Nat.not_lt.2 h)

theorem writeAt_of_ge (rf : RegFile) {i : Nat} (v : Word) (h : 32 ≤ i) :
    rf.writeAt i v = .refuse (.registerIndex i) := dif_neg (Nat.not_lt.2 h)

theorem writeRam_of_arity (d : Device) (m : Memory) (a : Word) {n : AccessSize} {bytes : List Byte}
    (h : bytes.length ≠ sizeBytes n) : d.writeRam m a n bytes = .refuse .writeArity := if_pos h

theorem romWrite_of_arity {n : AccessSize} {bytes : List Byte} (h : bytes.length ≠ sizeBytes n) :
    romWrite n bytes = .refuse .writeArity := if_pos h

/-! ### The obligations -/

/-- Settles O50: a step changes memory by at most one store in a legal window of DRAM. -/
theorem stepKeepsTheInvariant : Obligations.StepKeepsTheInvariant := fun _ _ => step_inv

/-- Settles O51: the runs by induction on the number of steps, carrying the invariant of O50. -/
theorem noStepIsRefusedUnderTheInvariant : Obligations.NoStepIsRefusedUnderTheInvariant := by
  refine ⟨fun s r hi => step_not_refused hi r, fun s r => step_refused,
    fun rf i v h => ⟨readAt_of_ge rf h, writeAt_of_ge rf v h⟩,
    fun d m a n bytes => writeRam_of_arity d m a, fun s => step_other_mode, fun s v => step_of_x32,
    fun k s r hi => run_not_refused hi k r, ?_⟩
  intro p romImage dramImage pc0 s hp hinit k r
  exact run_not_refused (init_inv hp hinit) k r

/-- Settles O56, from the frame of a step and the two spec lemmas of the effective address. -/
theorem modeWidthAndParametersNeverChange : Obligations.ModeWidthAndParametersNeverChange := by
  refine ⟨fun s t h => ?_, rfl, rfl, fun s va hx => effectiveAddress_x32 hx va,
    fun s va hx => effectiveAddress_x64 hx va⟩
  obtain ⟨hmode, hxlen, hparams, hf, hlen⟩ := step_sameSetting h
  exact ⟨hmode, hxlen, hparams, hf, hlen⟩

/-- Settles O14: each contract's refusal by its own lemma. -/
theorem preconditionsAreRefused : Obligations.PreconditionsAreRefused :=
  ⟨fun rf _ v h => ⟨readAt_of_ge rf h, writeAt_of_ge rf v h⟩,
    fun rf i v => ⟨readAt_of_lt rf i, writeAt_of_lt rf i v⟩,
    fun d m a _ _ h => ⟨writeRam_of_arity d m a h, romWrite_of_arity h⟩,
    fun _ => step_other_mode, fun d _ hx => execute_x32 hx d⟩

/-- Settles O49: reset is the created machine of the reference parameters. -/
theorem resetMeetsTheInvariant : Obligations.ResetMeetsTheInvariant :=
  created_inv (p := Params.reference) (by decide) Config.resetPc

end Sys2Proof.Machine

/-! PROOFS, family 10_state: the run of swallowed fetch faults, the state that no step reads, the frame
of an instruction, creation with images, and what a step does to the pc, the clock and memory. -/

namespace Sys2Proof.Machine

/-! ### The run of swallowed fetch faults (R141, R142) -/

/-- The state with the pc moved `k` instructions on, modulo 2^64: where `k` swallowed fetch faults lead. -/
def State.ahead (s : State) (k : Nat) : State := { s with pc := s.pc + BitVec.ofNat 64 (4 * k) }

theorem ahead_zero (s : State) : s.ahead 0 = s := by simp [State.ahead]

theorem advance_ahead (s : State) (k : Nat) : (s.ahead k).advance = s.ahead (k + 1) := by
  simp only [State.ahead, State.advance, BitVec.add_assoc, ← BitVec.ofNat_add]
  rfl

theorem ahead_inv {s : State} (hi : s.Inv) (k : Nat) : (s.ahead k).Inv :=
  inv_of_mem hi rfl rfl rfl hi.memCanonical fun _ => .inl

theorem fetch_ok_or_err {s : State} (hi : s.Inv) : (∃ v, s.fetch = .ok v) ∨ s.fetch = .err .loadAccessFault := by
  rcases fetch_cases s with hok | herr | ⟨hmode, -⟩
  · exact .inl hok
  · exact .inr herr
  · exact absurd hi.modeMachine hmode

/-- The fetch succeeds at the first four addresses of ROM, whatever the size of ROM. -/
theorem fetch_ok_of_rom_start {s : State} (hi : s.Inv) (hlo : Config.romBase ≤ s.pc.toNat)
    (hhi : s.pc.toNat < Config.romBase + 4) : ∃ v, s.fetch = .ok v := by
  refine ⟨_, memRead_ok hi.modeMachine hi.paramsValid (.inl ?_)⟩
  have hrom := romSize_ge s.params.romSize
  rw [effectiveAddress_x64 hi.xlen64, show sizeBytes fetchSize = 4 from rfl]
  omega

/-- From any pc, at most 2^62 moves by 4 lead to one of the first four addresses of ROM. -/
theorem exists_ahead_rom_start (s : State) : ∃ k ≤ 4611686018427387904,
    Config.romBase ≤ (s.ahead k).pc.toNat ∧ (s.ahead k).pc.toNat < Config.romBase + 4 := by
  have hpc := s.pc.isLt
  refine ⟨(18446744073709551616 + 4096 + s.pc.toNat % 4 - s.pc.toNat) % 18446744073709551616 / 4, by omega, ?_⟩
  simp only [State.ahead, Config.romBase, BitVec.toNat_add, BitVec.toNat_ofNat]
  omega

/-- There is a first fetchable address ahead, and it is at most 2^62 instructions away. -/
theorem exists_first_fetchable {s : State} (hi : s.Inv) : ∃ k ≤ 4611686018427387904,
    (∃ v, (s.ahead k).fetch = .ok v) ∧ ∀ j < k, (s.ahead j).fetch = .err .loadAccessFault := by
  classical
  obtain ⟨n, hn, hlo, hhi⟩ := exists_ahead_rom_start s
  have hfetch := fetch_ok_of_rom_start (ahead_inv hi n) hlo hhi
  have hex : ∃ k, ∃ v, (s.ahead k).fetch = .ok v := ⟨n, hfetch⟩
  refine ⟨Nat.find hex, (Nat.find_min' hex hfetch).trans hn, Nat.find_spec hex, fun j hj => ?_⟩
  exact (fetch_ok_or_err (ahead_inv hi j)).resolve_left (Nat.find_min hex hj)

theorem step_ahead {s : State} {j : Nat} (hskip : s.params.fetchFaultPolicy = .skip)
    (herr : (s.ahead j).fetch = .err .loadAccessFault) : step (s.ahead j) = .next (s.ahead (j + 1)) := by
  rw [step_of_skip herr hskip, advance_ahead]

/-- A sequence of states, each the next of the one before, is a run. -/
theorem run_of_steps (σ : Nat → State) (k : Nat) (h : ∀ j < k, step (σ j) = .next (σ (j + 1))) :
    Sys2Proof.core.run k (σ 0) = .next (σ k) := by
  induction k generalizing σ with
  | zero => rfl
  | succ k ih =>
    rw [run_next (h 0 k.succ_pos)]
    exact ih (fun j => σ (j + 1)) fun j hj => h (j + 1) (Nat.succ_lt_succ hj)

/-- Settles O13: the first fetchable address exists because the moves by 4 reach ROM, and every step
before it swallows a fault. -/
theorem skippedFetchFaultsReachAFetchableAddress : Obligations.SkippedFetchFaultsReachAFetchableAddress := by
  refine fun s hi => ⟨fun hskip => ?_, fun hhalt t herr => step_of_halt herr hhalt⟩
  obtain ⟨k, hk, hfetch, herr⟩ := exists_first_fetchable hi
  have hsteps : ∀ j < k, step (s.ahead j) = .next (s.ahead (j + 1)) := fun j hj => step_ahead hskip (herr j hj)
  have hrun := run_of_steps s.ahead k hsteps
  rw [ahead_zero] at hrun
  exact ⟨k, hk, fun j hj => ⟨herr j hj, hsteps j hj⟩, hrun, hfetch⟩

/-! ### The state that no meaning reads (R27, R29, R36) -/

section
variable (F : RegFile → RegFile) (L C : Word → Word)

/-- The state with its floating-point file, image length and clock changed by three functions. -/
def State.mapHidden (s : State) : State :=
  { s with f := F s.f, dramImageLen := L s.dramImageLen, clock := C s.clock }

/-- The result of a store with the hidden fields of its state changed. -/
def Res.mapHidden : Res State → Res State
  | .ok s => .ok (s.mapHidden F L C)
  | .err t => .err t
  | .refuse r => .refuse r

theorem fetch_mapHidden (s : State) : (s.mapHidden F L C).fetch = s.fetch := fetch_congr rfl rfl rfl rfl rfl

theorem readX_mapHidden (s : State) (r : RegIdx) : (s.mapHidden F L C).readX r = s.readX r := rfl

theorem memRead_mapHidden (s : State) (a : Word) (n : AccessSize) :
    (s.mapHidden F L C).memRead a n = s.memRead a n := mmuLoad_congr rfl rfl rfl rfl a n

theorem memWrite_mapHidden (s : State) (a v : Word) (n : AccessSize) :
    (s.mapHidden F L C).memWrite a n v = (s.memWrite a n v).mapHidden F L C := by
  have htrans : ∀ va, (s.mapHidden F L C).translate ((s.mapHidden F L C).effectiveAddress va) =
      s.translate (s.effectiveAddress va) := fun _ => rfl
  have hbus : ∀ pa bytes, (s.mapHidden F L C).busWrite pa n bytes = s.busWrite pa n bytes := fun _ _ => rfl
  simp only [State.memWrite, State.mmuStore, htrans, hbus]
  cases s.translate (s.effectiveAddress a) with
  | err | refuse => rfl
  | ok pa =>
    simp only
    cases s.busWrite pa n (disassemble v (sizeBytes n)) <;> rfl

theorem loadInto_mapHidden (n : AccessSize) (ext : Word → Word) (rd rs1 : RegIdx) (imm : Word) (s : State) :
    loadInto n ext rd rs1 imm (s.mapHidden F L C) =
      mapOutcome (State.mapHidden F L C) (loadInto n ext rd rs1 imm s) := by
  rw [loadInto, memRead_mapHidden, readX_mapHidden, loadInto]
  cases s.memRead (addressOf (s.readX rs1) imm) n <;> rfl

theorem storeFrom_mapHidden (n : AccessSize) (rs1 rs2 : RegIdx) (imm : Word) (s : State) :
    storeFrom n rs1 rs2 imm (s.mapHidden F L C) =
      mapOutcome (State.mapHidden F L C) (storeFrom n rs1 rs2 imm s) := by
  rw [storeFrom, memWrite_mapHidden, readX_mapHidden, readX_mapHidden, storeFrom]
  cases s.memWrite (addressOf (s.readX rs1) imm) n (s.readX rs2) <;> rfl

theorem transferTo_mapHidden (target : Word) (linked s : State) :
    transferTo target (linked.mapHidden F L C) (s.mapHidden F L C) =
      mapOutcome (State.mapHidden F L C) (transferTo target linked s) := by
  have heq : transferTo target (linked.mapHidden F L C) (s.mapHidden F L C) =
    if s.params.checkTargetAlign && isMisaligned target
    then takeTrap .instructionAddressMisaligned (s.mapHidden F L C)
    else .next { linked.mapHidden F L C with pc := target } := rfl
  rw [heq, transferTo]
  split <;> rfl

theorem branchIf_mapHidden (taken : Bool) (imm : Word) (s : State) :
    branchIf taken imm (s.mapHidden F L C) = mapOutcome (State.mapHidden F L C) (branchIf taken imm s) := by
  cases taken with
  | false => rfl
  | true => exact transferTo_mapHidden F L C _ s s

/-- No meaning reads the hidden fields or writes them: it answers the same with any of them changed. -/
theorem exec_mapHidden (i : Instr) (s : State) :
    exec i (s.mapHidden F L C) = mapOutcome (State.mapHidden F L C) (exec i s) := by
  cases i with
  | lb | lh | lw | ld | lbu | lhu | lwu => exact loadInto_mapHidden F L C _ _ _ _ _ s
  | sb | sh | sw | sd => exact storeFrom_mapHidden F L C _ _ _ _ s
  | beq | bne | blt | bge | bltu | bgeu => exact branchIf_mapHidden F L C _ _ s
  | jal rd | jalr rd => exact transferTo_mapHidden F L C _ (s.writeX rd (s.pc + 4#64)) s
  | _ => rfl

theorem execute_mapHidden (d : Decoded) (s : State) :
    execute d (s.mapHidden F L C) = mapOutcome (State.mapHidden F L C) (execute d s) := by
  cases hx : s.xlen with
  | x32 =>
    rw [execute_x32 hx, execute_x32 (s := s.mapHidden F L C) hx]
    rfl
  | x64 =>
    cases d with
    | undef =>
      rw [execute_undef hx, execute_undef (s := s.mapHidden F L C) hx]
      rfl
    | instruction i =>
      rw [execute_instruction hx, execute_instruction (s := s.mapHidden F L C) hx, exec_mapHidden]

theorem onFetchFault_mapHidden (t : Trap) (s : State) :
    onFetchFault t (s.mapHidden F L C) = mapOutcome (State.mapHidden F L C) (onFetchFault t s) := by
  rw [onFetchFault, onFetchFault, show (s.mapHidden F L C).params = s.params from rfl]
  cases s.params.fetchFaultPolicy <;> rfl

variable {C}

/-- A change of the clock that goes with the tick goes with the end of a cycle. -/
theorem afterExecute_mapHidden (hC : ∀ c, C (c + 1#64) = C c + 1#64) (o : Host.Outcome State Fault Refusal) :
    afterExecute (mapOutcome (State.mapHidden F L C) o) = mapOutcome (State.mapHidden F L C) (afterExecute o) := by
  cases o with
  | next s => simp only [mapOutcome, afterExecute_next, State.mapHidden, State.tick, hC]
  | fault | refused => rfl

theorem step_of_err {s : State} {t : Trap} (h : s.fetch = .err t) : step s = onFetchFault t s := by
  simp only [step, cycle, h]

theorem step_mapHidden (hC : ∀ c, C (c + 1#64) = C c + 1#64) (s : State) :
    step (s.mapHidden F L C) = mapOutcome (State.mapHidden F L C) (step s) := by
  have hfetch := fetch_mapHidden F L C s
  cases h : s.fetch with
  | ok v =>
    rw [step_of_word h, step_of_word (hfetch.trans h), execute_mapHidden, afterExecute_mapHidden F L hC]
  | err t => rw [step_of_err h, step_of_err (hfetch.trans h), onFetchFault_mapHidden]
  | refuse r =>
    rw [step_of_refuse h, step_of_refuse (hfetch.trans h)]
    rfl

end

/-- Settles O35: the three fields are hidden, and a clock shifted by a constant ticks like the clock. -/
theorem hiddenStateChangesNoRun : Obligations.HiddenStateChangesNoRun := fun s f len c =>
  step_mapHidden (C := (· + c)) (fun _ => f) (fun _ => len) (fun d => add_right_comm d 1#64 c) s

/-! ### The frame of an instruction (R26) -/

theorem exec_clock {i : Instr} {s t : State} (h : exec i s = .next t) : t.clock = s.clock := by
  cases execCase_of_eq h with
  | wrote | stored | fellThrough | branched | linked => rfl

theorem exec_readX_other {i : Instr} {s t : State} (h : exec i s = .next t) {r : RegIdx} (hr : destOf i ≠ some r) :
    t.readX r = s.readX r := by
  have other : ∀ {rd : RegIdx} (v : Word), destOf i = some rd → (s.writeX rd v).readX r = s.readX r :=
    fun v hd => read_write_other s.x v fun e => hr (e ▸ hd)
  cases execCase_of_eq h with
  | wrote rd v hd => exact other v hd
  | linked rd target hd => exact other _ hd
  | stored | fellThrough | branched => rfl

theorem exec_mem_of_not_store {i : Instr} {s t : State} (h : exec i s = .next t) (hs : storeOf i = none) :
    t.mem = s.mem := by
  cases execCase_of_eq h with
  | wrote | fellThrough | branched | linked => rfl
  | stored n rs1 rs2 imm hi => cases hi.symm.trans hs

/-- A store leaves every byte outside its own bytes as it was (R56, R81). -/
theorem exec_readByte_of_store {i : Instr} {s t : State} {n : AccessSize} {rs1 rs2 : RegIdx} {imm : Word} {a : Nat}
    (h : exec i s = .next t) (hs : storeOf i = some (n, rs1, rs2, imm))
    (ha : a < (s.effectiveAddress (addressOf (s.readX rs1) imm)).toNat ∨
      (s.effectiveAddress (addressOf (s.readX rs1) imm)).toNat + sizeBytes n ≤ a) :
    t.mem.readByte a = s.mem.readByte a := by
  cases execCase_of_eq h with
  | wrote | fellThrough | branched | linked => rfl
  | stored n' rs1' rs2' imm' hi =>
    cases hi.symm.trans hs
    exact readByte_writeBytes_outside _ _ (by simpa using ha)

theorem exec_pc_of_untaken {i : Instr} {s t : State} (h : exec i s = .next t) (hn : isTakenTransfer i s = false) :
    t.pc = s.pc + 4#64 := by
  cases ht : isTransfer i with
  | true => cases (exec_untaken ht hn).symm.trans h; rfl
  | false =>
    cases execCase_of_eq h with
    | wrote | stored | fellThrough => rfl
    | branched _ _ _ ht' | linked _ _ _ _ ht' => cases ht.symm.trans ht'

/-- Settles O33: the parts of the frame, each from the cases of an instruction. -/
theorem everyInstructionFrame : Obligations.EveryInstructionFrame := fun i s t h => by
  obtain ⟨hmode, hxlen, hparams, hf, hlen⟩ := exec_sameSetting h
  exact ⟨hparams, exec_clock h, hf, hmode, hxlen, hlen, fun r => exec_readX_other h, exec_mem_of_not_store h,
    fun n rs1 rs2 imm hs a => exec_readByte_of_store h hs, exec_pc_of_untaken h⟩

/-! ### Creation with images (R39, R64, R66, R452) -/

/-- `m'` is `m` with the device's bytes an image and, above it, zeros. -/
structure Device.Staged (d : Device) (m m' : Memory) (image : List Byte) : Prop where
  canonical : m'.wf = true
  bytes     : ∀ a, m'.readByte a =
    if d.base ≤ a ∧ a < d.base + d.len then image.getD (a - d.base) 0#8 else m.readByte a

section
variable {d : Device} {m : Memory} (hw : m.wf = true)
  (hzero : ∀ a, d.base ≤ a ∧ a < d.base + d.len → m.readByte a = 0#8)
include hw hzero

/-- Loading an image over zeros stages it, whether or not the load zeroes the tail. -/
theorem staged_loadImage (z : Bool) {image : List Byte} (hfits : image.length ≤ d.len) :
    d.Staged m (d.loadImage z m image) image where
  canonical := wf_loadImage d z image hw
  bytes a := by
    obtain ⟨himage, htail, hother⟩ := readByte_loadImage d z image hw a
    by_cases hin : d.base ≤ a ∧ a < d.base + d.len
    · rw [if_pos hin]
      by_cases hlt : a < d.base + image.length
      · exact himage hin.1 hlt
      · rw [htail (by omega) hin.2, hzero a hin, ite_self, List.getD_eq_default _ _ (by omega)]
    · rw [if_neg hin]
      exact hother (by omega) hfits

/-- Leaving an image out of a zeroed device stages the empty one. -/
theorem staged_nil : d.Staged m m [] where
  canonical := hw
  bytes a := by
    split
    · exact hzero a ‹_›
    · rfl

end

section
variable {s : State} {image : Option (List Byte)}

theorem optionally_rom_staged (hw : s.mem.wf = true)
    (hzero : ∀ a, s.rom.base ≤ a ∧ a < s.rom.base + s.rom.len → s.mem.readByte a = 0#8)
    (hfits : (image.getD []).length ≤ s.params.romSize.bytes) :
    ∃ m, Boot.optionally Boot.loadRomImage image s = .next { s with mem := m } ∧
      s.rom.Staged s.mem m (image.getD []) := by
  cases image with
  | none => exact ⟨s.mem, rfl, staged_nil hw hzero⟩
  | some bytes => exact ⟨_, loadRomImage_ok hfits, staged_loadImage hw hzero _ hfits⟩

theorem optionally_dram_staged (hw : s.mem.wf = true)
    (hzero : ∀ a, s.dram.base ≤ a ∧ a < s.dram.base + s.dram.len → s.mem.readByte a = 0#8)
    (hlen : s.dramImageLen = 0#64) (hfits : (image.getD []).length ≤ s.params.dramSize) :
    ∃ m, Boot.optionally Boot.loadDramImage image s =
        .next { s with mem := m, dramImageLen := BitVec.ofNat 64 (image.getD []).length } ∧
      s.dram.Staged s.mem m (image.getD []) := by
  cases image with
  | none =>
    refine ⟨s.mem, ?_, staged_nil hw hzero⟩
    exact congrArg (fun len => Host.Outcome.next { s with dramImageLen := len }) hlen
  | some bytes => exact ⟨_, loadDramImage_ok hfits, staged_loadImage hw hzero _ hfits⟩

/-- A load that refuses images longer than `cap` refuses them when `init` makes it. -/
theorem optionally_long {load : List Byte → State → Host.Outcome State Fault Refusal} {cap : Nat}
    (hload : ∀ bytes, cap < bytes.length → load bytes s = .refused .imageTooLong)
    (h : cap < (image.getD []).length) : Boot.optionally load image s = .refused .imageTooLong := by
  cases image with
  | none => exact absurd h (Nat.not_lt_zero _)
  | some bytes => exact hload bytes h

end

section
variable {p : Params} {xl : Xlen} {romImage dramImage : Option (List Byte)} {pc0 : Word}

theorem init_of_rom_next {s : State}
    (h : Boot.optionally Boot.loadRomImage romImage (Boot.created p xl pc0) = .next s) :
    Boot.init p xl romImage dramImage pc0 = Boot.optionally Boot.loadDramImage dramImage s := by
  simp only [Boot.init, h]

theorem init_of_rom_refused {r : Refusal}
    (h : Boot.optionally Boot.loadRomImage romImage (Boot.created p xl pc0) = .refused r) :
    Boot.init p xl romImage dramImage pc0 = .refused r := by
  simp only [Boot.init, h]

/-- The ROM's load of `init`, over the zeroed buffers of the created machine. -/
theorem created_rom_staged (hrom : (romImage.getD []).length ≤ p.romSize.bytes) :
    ∃ m, Boot.optionally Boot.loadRomImage romImage (Boot.created p xl pc0) =
        .next { Boot.created p xl pc0 with mem := m } ∧
      (Boot.created p xl pc0).rom.Staged [] m (romImage.getD []) :=
  optionally_rom_staged (s := Boot.created p xl pc0) rfl (fun _ _ => rfl) hrom

theorem init_staged (hrom : (romImage.getD []).length ≤ p.romSize.bytes)
    (hdram : (dramImage.getD []).length ≤ p.dramSize) :
    ∃ m, Boot.init p xl romImage dramImage pc0 =
        .next { Boot.created p xl pc0 with
                  mem := m, dramImageLen := BitVec.ofNat 64 (dramImage.getD []).length } ∧
      ∀ a, m.readByte a =
        if Config.romBase ≤ a ∧ a < Config.romBase + p.romSize.bytes
        then (romImage.getD []).getD (a - Config.romBase) 0#8
        else if Config.dramBase ≤ a ∧ a < Config.dramBase + p.dramSize
        then (dramImage.getD []).getD (a - Config.dramBase) 0#8 else 0#8 := by
  obtain ⟨m, hload, hw, hbytes⟩ := created_rom_staged (xl := xl) (pc0 := pc0) hrom
  have disjoint : ∀ a, Config.dramBase ≤ a → ¬ (Config.romBase ≤ a ∧ a < Config.romBase + p.romSize.bytes) := by
    have hsize := romSize_le p.romSize
    simp only [Config.romBase, Config.dramBase]
    omega
  have hzero : ∀ a, Config.dramBase ≤ a ∧ a < Config.dramBase + p.dramSize → m.readByte a = 0#8 :=
    fun a ha => (hbytes a).trans (if_neg (disjoint a ha.1))
  obtain ⟨m', hload', -, hbytes'⟩ :=
    optionally_dram_staged (s := { Boot.created p xl pc0 with mem := m }) hw hzero rfl hdram
  refine ⟨m', (init_of_rom_next hload).trans hload', fun a => (hbytes' a).trans ?_⟩
  by_cases hin : Config.dramBase ≤ a ∧ a < Config.dramBase + p.dramSize
  · rw [if_neg (disjoint a hin.1), if_pos hin]
    exact if_pos hin
  · rw [if_neg hin]
    exact (if_neg hin).trans (hbytes a)

theorem init_too_long (h : p.romSize.bytes < (romImage.getD []).length ∨ p.dramSize < (dramImage.getD []).length) :
    Boot.init p xl romImage dramImage pc0 = .refused .imageTooLong := by
  rcases Nat.lt_or_ge p.romSize.bytes (romImage.getD []).length with hlong | hrom
  · exact init_of_rom_refused (optionally_long (fun _ => loadRomImage_long) hlong)
  · obtain ⟨m, hload, -⟩ := created_rom_staged (xl := xl) (pc0 := pc0) hrom
    have hlong := h.resolve_left (Nat.not_lt.2 hrom)
    exact (init_of_rom_next hload).trans (optionally_long (fun _ => loadDramImage_long) hlong)

end

/-- Settles O47: each load stages its image over zeros, the DRAM's after the ROM's in a disjoint range. -/
theorem initStagesBothImages : Obligations.InitStagesBothImages := by
  refine fun p xl romImage dramImage pc0 hp => ⟨fun hrom hdram => ?_, init_too_long⟩
  obtain ⟨m, hinit, hbytes⟩ := init_staged hrom hdram
  refine ⟨m, hinit, read_zeroFile, hbytes, ?_⟩
  rintro s rfl h
  exact init_inv hp h

/-! ### Register files and reset (R22, R23, R27, R39) -/

/-- Settles O48, from the laws of the register file, for `x` and for `f`. -/
theorem registerFilesReadWhatWasWritten : Obligations.RegisterFilesReadWhatWasWritten :=
  ⟨fun rf _ _ v => ⟨read_zero rf, write_zero rf v, read_write_same rf v, read_write_other rf v⟩,
    fun s i _ v => ⟨readX_eq s i, readF_eq s i,
      fun hi => ⟨read_write_same s.x v hi, read_write_same s.f v hi⟩, rfl, rfl⟩⟩

/-- Settles O45: reset is the created machine of the reference parameters, with both files zero. -/
theorem resetState : Obligations.ResetState :=
  ⟨rfl, rfl, fun r => ⟨read_zeroFile r, read_zeroFile r⟩, rfl, rfl, fun _ => rfl, rfl, rfl, fun _ _ _ => rfl⟩

/-! ### What a step does to memory, the pc and the clock -/

/-- Settles O53: a store's window ends before the last byte of DRAM (R54, R59). -/
theorem onlyReachableDramBytesChange : Obligations.OnlyReachableDramBytesChange := by
  intro s t a hi h ha
  rcases step_storesAtMostOnce h with hm | ⟨b, v, n, hl, hm⟩
  · rw [hm]
  · have hwindow := (dram_legal_iff s b n hi.paramsValid).1 hl
    rw [hm]
    refine readByte_writeBytes_outside _ _ ?_
    rw [length_disassemble]
    omega

theorem advance_pcAligned {s : State} (h : s.pcAligned) : s.advance.pcAligned := by
  simp only [State.pcAligned, advance_pc, BitVec.toNat_add, BitVec.toNat_ofNat] at h ⊢
  omega

theorem exec_pcAligned {i : Instr} {s t : State} (hcheck : s.params.checkTargetAlign = true) (hpc : s.pcAligned)
    (h : exec i s = .next t) : t.pcAligned := by
  cases execCase_of_eq h with
  | wrote | stored | fellThrough => exact (advance_pcAligned hpc : (s.pc + 4#64).toNat % 4 = 0)
  | branched target _ _ _ ha => exact ha hcheck
  | linked rd target _ _ _ ha => exact ha hcheck

/-- Settles O54: a pc moves on by 4 or goes to a checked target. -/
theorem pcStaysFourAligned : Obligations.PcStaysFourAligned := by
  intro s t hcheck hpc h
  rcases step_next h with ⟨-, -, rfl⟩ | ⟨v, i, u, -, -, -, hu, rfl⟩
  · exact advance_pcAligned hpc
  · exact (exec_pcAligned hcheck hpc hu : u.pcAligned)

theorem step_clock_of_fetch_ok {s t : State} {v : Word} (h : step s = .next t) (hv : s.fetch = .ok v) :
    t.clock = s.clock + 1#64 := by
  rcases step_next h with ⟨herr, -, -⟩ | ⟨w, i, u, -, -, -, hu, rfl⟩
  · cases herr.symm.trans hv
  · rw [tick_clock, exec_clock hu]

theorem step_clock_of_fetch_err {s t : State} {e : Trap} (h : step s = .next t) (he : s.fetch = .err e) :
    t.clock = s.clock := by
  rcases step_next h with ⟨-, -, rfl⟩ | ⟨w, i, u, hok, -, -, -, -⟩
  · rfl
  · cases hok.symm.trans he

/-- Settles O55: the clock is one of the hidden fields, and only the tick writes it. -/
theorem clockCountsCompletedExecutes : Obligations.ClockCountsCompletedExecutes :=
  ⟨fun _ _ h => ⟨fun ⟨_, hv⟩ => step_clock_of_fetch_ok h hv, fun ⟨_, he⟩ => step_clock_of_fetch_err h he⟩,
    fun i s c => ⟨exec_mapHidden id id (fun _ => c) i s, fun _ => exec_clock⟩⟩

end Sys2Proof.Machine

/-! PROOFS, family 20_memory: which bytes an access reads and writes, what a store leaves for later
loads and fetches, what a placed word is to the next step, and the traps that stop the machine. -/

namespace Sys2Proof.Machine

/-! ### Byte memory: the bytes read after a store -/

/-- The bytes read from an address are given by the byte at each of their addresses. -/
theorem readBytes_eq {m : Memory} {a n : Nat} {bs : List Byte} (hlen : bs.length = n)
    (h : ∀ i < n, m.readByte (a + i) = bs.getD i 0#8) : m.readBytes a n = bs := by
  refine List.ext_getElem (by simp [hlen]) fun i hi hi' => ?_
  have hin : i < n := hlen ▸ hi'
  rw [← List.getD_eq_getElem _ 0#8 hi, ← List.getD_eq_getElem _ 0#8 hi', getD_readBytes m a n i hin, h i hin]

theorem readBytes_congr {m m' : Memory} {a n : Nat} (h : ∀ i < n, m'.readByte (a + i) = m.readByte (a + i)) :
    m'.readBytes a n = m.readBytes a n :=
  readBytes_eq (length_readBytes m a n) fun i hi => by rw [getD_readBytes m a n i hi, h i hi]

/-- A store leaves the bytes of every disjoint range as they were (R63). -/
theorem readBytes_writeBytes_disjoint (m : Memory) {a b n : Nat} (bs : List Byte)
    (h : b + n ≤ a ∨ a + bs.length ≤ b) : (m.writeBytes a bs).readBytes b n = m.readBytes b n :=
  readBytes_congr fun i hi => readByte_writeBytes_outside m bs (by omega)

theorem readByte_writeBytes_inside {m : Memory} (hw : m.wf = true) (a : Nat) {bs : List Byte} {i : Nat}
    (hi : i < bs.length) : (m.writeBytes a bs).readByte (a + i) = bs[i] := by
  rw [readByte_writeBytes a (a + i) bs hw, if_pos (by omega), Nat.add_sub_cancel_left, List.getD_eq_getElem]

/-- Byte i of a value without its low k bytes is byte k + i of the value. -/
theorem extractLsb'_byte_ushiftRight (v : Word) (k i : Nat) :
    (v >>> (8 * k)).extractLsb' (8 * i) 8 = v.extractLsb' (8 * (k + i)) 8 := by
  refine BitVec.eq_of_getLsbD_eq fun j _ => ?_
  simp only [BitVec.getLsbD_extractLsb', BitVec.getLsbD_ushiftRight, Nat.mul_add, Nat.add_assoc]

/-- Inside the bytes of a stored value, a read gives the value's own bytes at their places (R61). -/
theorem readBytes_writeBytes_within {m : Memory} (hw : m.wf = true) (a : Nat) (v : Word) {n r k : Nat}
    (h : k + r ≤ n) :
    (m.writeBytes a (disassemble v n)).readBytes (a + k) r = disassemble (v >>> (8 * k)) r := by
  refine readBytes_eq (length_disassemble _ r) fun i hi => ?_
  rw [getD_disassemble _ r i hi, extractLsb'_byte_ushiftRight, Nat.add_assoc,
    readByte_writeBytes_inside hw a (by rw [length_disassemble]; omega), getElem_disassemble]

/-- Byte k of the low half of an assembled value is byte k of the list (R55). -/
theorem extractLsb'_low32_assemble (bs : List Byte) {k : Nat} (hk : k < 4) :
    (low32 (assemble bs)).extractLsb' (8 * k) 8 = bs.getD k 0#8 := by
  refine BitVec.eq_of_getLsbD_eq fun j hj => ?_
  have hdiv : (8 * k + j) / 8 = k := by omega
  have hmod : (8 * k + j) % 8 = j := by omega
  have hlow : 8 * k + j < 32 := by omega
  simp only [low32, BitVec.getLsbD_extractLsb', Nat.zero_add, hj, hlow, decide_true, Bool.true_and]
  rw [getLsbD_assemble bs _ (by omega), hdiv, hmod]

theorem low32_setWidth_setWidth (v : Word) : low32 ((v.setWidth 32).setWidth 64) = low32 v := by
  refine BitVec.eq_of_getLsbD_eq fun j hj => ?_
  have hj64 : j < 64 := by omega
  simp only [low32, BitVec.getLsbD_extractLsb', BitVec.getLsbD_setWidth, Nat.zero_add, hj, hj64, decide_true,
    Bool.true_and]

theorem getElem_bytesOfWord (w : IWord) {k : Nat} (hk : k < (bytesOfWord w).length) :
    (bytesOfWord w)[k] = w.extractLsb' (8 * k) 8 := by
  have hmap : bytesOfWord w = (List.range 4).map fun i => w.extractLsb' (8 * i) 8 := rfl
  simp only [hmap, List.getElem_map, List.getElem_range]

/-- Two instruction words with the same four bytes are the same word. -/
theorem eq_of_bytes_eq {u w : IWord} (h : ∀ k < 4, u.extractLsb' (8 * k) 8 = w.extractLsb' (8 * k) 8) : u = w :=
  calc u = wordOfBytes (u.extractLsb' 0 8) (u.extractLsb' 8 8) (u.extractLsb' 16 8) (u.extractLsb' 24 8) :=
        (wordOfBytes_bytesOfWord u).symm
    _ = wordOfBytes (w.extractLsb' 0 8) (w.extractLsb' 8 8) (w.extractLsb' 16 8) (w.extractLsb' 24 8) := by
        rw [h 0 (by decide), h 1 (by decide), h 2 (by decide), h 3 (by decide)]
    _ = w := wordOfBytes_bytesOfWord w

/-! ### Devices (R52 to R59) -/

theorem read_eq_assemble {d : Device} {m : Memory} {a : Word} {n : AccessSize} (h : d.legal a n = true) :
    d.read m a n = .ok (assemble (m.readBytes a.toNat (sizeBytes n))) := if_pos h

/-- A device read depends on memory through the bytes of the access alone. -/
theorem device_read_congr (d : Device) {m m' : Memory} {a : Word} {n : AccessSize}
    (h : m'.readBytes a.toNat (sizeBytes n) = m.readBytes a.toNat (sizeBytes n)) :
    d.read m' a n = d.read m a n := by
  rw [Device.read, Device.read, h]

theorem device_read_eq_ok {d : Device} {m : Memory} {a v : Word} {n : AccessSize} (h : d.read m a n = .ok v) :
    v = assemble (m.readBytes a.toNat (sizeBytes n)) := by
  cases hl : d.legal a n with
  | true => exact (Res.ok.inj ((read_eq_assemble hl).symm.trans h)).symm
  | false => cases (read_of_illegal hl).symm.trans h

theorem writeRam_of_legal {d : Device} {m : Memory} {a : Word} {n : AccessSize} {bytes : List Byte}
    (hlen : bytes.length = sizeBytes n) (h : d.legal a n = true) :
    d.writeRam m a n bytes = .ok (m.writeBytes a.toNat bytes) := by
  rw [Device.writeRam, if_neg (not_not.2 hlen), if_pos h]

theorem writeRam_of_illegal {d : Device} {m : Memory} {a : Word} {n : AccessSize} {bytes : List Byte}
    (hlen : bytes.length = sizeBytes n) (h : d.legal a n = false) :
    d.writeRam m a n bytes = .err .storeAccessFault := by
  rw [Device.writeRam, if_neg (not_not.2 hlen), if_neg (Bool.eq_false_iff.1 h)]

theorem writeRam_eq_ok {d : Device} {m m' : Memory} {a : Word} {n : AccessSize} {bytes : List Byte}
    (hlen : bytes.length = sizeBytes n) (h : d.writeRam m a n bytes = .ok m') :
    d.legal a n = true ∧ m' = m.writeBytes a.toNat bytes := by
  cases hl : d.legal a n with
  | true => exact ⟨rfl, (Res.ok.inj ((writeRam_of_legal hlen hl).symm.trans h)).symm⟩
  | false => cases (writeRam_of_illegal hlen hl).symm.trans h

theorem romWrite_err {n : AccessSize} {bytes : List Byte} (hlen : bytes.length = sizeBytes n) :
    romWrite n bytes = .err .storeAccessFault := if_neg (not_not.2 hlen)

/-! ### The bus (R68 to R72) -/

section
variable {s : State} {a : Word} {n : AccessSize}

theorem busRead_of_rom (h : s.rom.contains a = true) : s.busRead a n = s.rom.read s.mem a n := if_pos h

theorem busRead_of_not_rom (h : s.rom.contains a = false) : s.busRead a n = s.dram.read s.mem a n :=
  if_neg (Bool.eq_false_iff.1 h)

theorem busWrite_of_rom {bytes : List Byte} (h : s.rom.contains a = true) :
    s.busWrite a n bytes = romWrite n bytes := if_pos h

theorem busWrite_of_not_rom {bytes : List Byte} (h : s.rom.contains a = false) :
    s.busWrite a n bytes = s.dram.writeRam s.mem a n bytes := if_neg (Bool.eq_false_iff.1 h)

theorem busRead_eq_ok {v : Word} (h : s.busRead a n = .ok v) :
    v = assemble (s.mem.readBytes a.toNat (sizeBytes n)) := by
  cases hr : s.rom.contains a with
  | true => exact device_read_eq_ok ((busRead_of_rom hr).symm.trans h)
  | false => exact device_read_eq_ok ((busRead_of_not_rom hr).symm.trans h)

theorem busContains_iff : s.busContains a = true ↔ s.IsBacked a.toNat := by
  rw [State.busContains, Bool.or_eq_true, rom_contains_iff, dram_contains_iff, State.IsBacked]

theorem isBacked_of_legalWindow {k l i : Nat} (h : LegalWindow s k l) (hi : i ≤ l) : s.IsBacked (k + i) :=
  h.imp (fun hrom => ⟨by omega, by omega⟩) (fun hdram => ⟨by omega, by omega⟩)

/-- The ROM ends below the DRAM, so a window that starts in ROM and passes its end is legal nowhere. -/
theorem not_legalWindow_past_rom {k l : Nat} (hk : k < Config.romBase + s.params.romSize.bytes)
    (hend : Config.romBase + s.params.romSize.bytes ≤ k + l) : ¬ LegalWindow s k l := by
  have hsize := romSize_le s.params.romSize
  simp only [LegalWindow, Config.romBase, Config.dramBase] at *
  omega

/-- A window that ends at DRAM's end is legal nowhere: the address after it has to be in DRAM too (R54). -/
theorem not_legalWindow_at_dram_end {k l : Nat} (hend : k + l = Config.dramBase + s.params.dramSize) :
    ¬ LegalWindow s k l := by
  have hsize := romSize_le s.params.romSize
  simp only [LegalWindow, Config.romBase, Config.dramBase] at *
  omega

end

/-! ### Loads and fetches (R78 to R80, R141) -/

section
variable {s : State}

theorem machine_of_mmuLoad_ok {va v : Word} {n : AccessSize} (h : s.mmuLoad va n = .ok v) : s.mode = .machine := by
  by_contra hmode
  cases (mmuLoad_other hmode va n).symm.trans h

theorem mmuLoad_eq_ok {va v : Word} {n : AccessSize} (h : s.mmuLoad va n = .ok v) :
    v = assemble (s.mem.readBytes (s.effectiveAddress va).toNat (sizeBytes n)) :=
  busRead_eq_ok ((mmuLoad_machine (machine_of_mmuLoad_ok h) va n).symm.trans h)

/-- Byte k of a fetched word is the byte k addresses above the pc's effective address (R60). -/
theorem extractLsb'_fetch {v : Word} {k : Nat} (h : s.fetch = .ok v) (hk : k < 4) :
    (low32 v).extractLsb' (8 * k) 8 = s.mem.readByte ((s.effectiveAddress s.pc).toNat + k) := by
  rw [mmuLoad_eq_ok h, extractLsb'_low32_assemble _ hk]
  exact getD_readBytes _ _ 4 k hk

theorem legalWindow_of_fetch_ok {v : Word} (hp : s.params.valid = true) (h : s.fetch = .ok v) :
    LegalWindow s (s.effectiveAddress s.pc).toNat 4 := by
  by_contra hwindow
  cases (memRead_err (machine_of_mmuLoad_ok h) hp hwindow).symm.trans h

theorem fetch_of_legalWindow (hmode : s.mode = .machine) (hp : s.params.valid = true)
    (h : LegalWindow s (s.effectiveAddress s.pc).toNat 4) : ∃ v, s.fetch = .ok v ∧
      low32 v = wordOfBytes (s.mem.readByte (s.effectiveAddress s.pc).toNat)
        (s.mem.readByte ((s.effectiveAddress s.pc).toNat + 1))
        (s.mem.readByte ((s.effectiveAddress s.pc).toNat + 2))
        (s.mem.readByte ((s.effectiveAddress s.pc).toNat + 3)) :=
  ⟨_, memRead_ok hmode hp h, low32_littleEndian s.mem _⟩

theorem fetch_of_not_legalWindow (hmode : s.mode = .machine) (hp : s.params.valid = true)
    (h : ¬ LegalWindow s (s.effectiveAddress s.pc).toNat 4) : s.fetch = .err .loadAccessFault :=
  memRead_err hmode hp h

end

/-! ### The MMU and the bus (R75 to R82) -/

section
variable {s : State} {va v : Word} {n : AccessSize}

theorem toNat_effectiveAddress_x32 (h : s.xlen = .x32) :
    (s.effectiveAddress va).toNat = va.toNat % 4294967296 := by
  rw [effectiveAddress_x32 h, BitVec.toNat_setWidth, BitVec.toNat_setWidth]
  omega

theorem memWrite_of_busWrite_ok {m : Memory} (hmode : s.mode = .machine)
    (h : s.busWrite (s.effectiveAddress va) n (disassemble v (sizeBytes n)) = .ok m) :
    s.memWrite va n v = .ok { s with mem := m } := by
  simp only [State.memWrite, State.mmuStore, translate_machine hmode, h]

theorem memWrite_of_busWrite_err {t : Trap} (hmode : s.mode = .machine)
    (h : s.busWrite (s.effectiveAddress va) n (disassemble v (sizeBytes n)) = .err t) :
    s.memWrite va n v = .err t := by
  simp only [State.memWrite, State.mmuStore, translate_machine hmode, h]

theorem validateAddress_machine (hmode : s.mode = .machine) :
    s.validateAddress va = .ok (s.busContains (s.effectiveAddress va)) := by
  simp only [State.validateAddress, translate_machine hmode]

theorem validateAddress_other (hmode : s.mode ≠ .machine) :
    s.validateAddress va = .refuse .translationUnimplemented := by
  simp only [State.validateAddress, translate_other hmode]

end

/-! ### A word placed where the next fetch reads (log entry 5) -/

section
variable {s : State} {v : Word} (w : IWord)

theorem withFetchWord_mem_eq : (s.withFetchWord 32 w.toNat).mem =
    s.mem.writeBytes (s.effectiveAddress s.pc).toNat (bytesOfWord w) := by
  rw [withFetchWord_mem, Nat.mod_eq_of_lt w.isLt, BitVec.ofNat_toNat, BitVec.setWidth_eq]

/-- The fetch after the placement succeeds where it did before, and each of its bytes is one of the word's. -/
theorem fetch_withFetchWord (hw : s.mem.wf = true) (hp : s.params.valid = true) (h : s.fetch = .ok v) :
    ∃ v', (s.withFetchWord 32 w.toNat).fetch = .ok v' ∧ low32 v' = w := by
  have hmode : (s.withFetchWord 32 w.toNat).mode = .machine := machine_of_mmuLoad_ok (s := s) h
  have hwindow : LegalWindow s (s.effectiveAddress s.pc).toNat 4 := legalWindow_of_fetch_ok hp h
  obtain ⟨v', hfetch, -⟩ := fetch_of_legalWindow hmode hp hwindow
  refine ⟨v', hfetch, eq_of_bytes_eq fun k hk => ?_⟩
  rw [extractLsb'_fetch hfetch hk, withFetchWord_mem_eq, ← getElem_bytesOfWord w hk]
  exact readByte_writeBytes_inside hw _ hk

/-- Placing a word in a device's buffer keeps the invariant. -/
theorem withFetchWord_inv (hi : s.Inv) (h : s.fetch = .ok v) : (s.withFetchWord 32 w.toNat).Inv := by
  have hwindow := legalWindow_of_fetch_ok hi.paramsValid h
  refine inv_of_mem hi rfl rfl rfl ?_ fun c hc => ?_
  · rw [withFetchWord_mem_eq]
    exact wf_writeBytes _ _ hi.memCanonical
  · rw [withFetchWord_mem_eq] at hc
    refine (mem_writeBytes hc).symm.imp_right fun ⟨hlo, hhi⟩ => ?_
    have hlen : (bytesOfWord w).length = 4 := rfl
    obtain ⟨i, hci⟩ := Nat.exists_eq_add_of_le hlo
    exact hci ▸ isBacked_of_legalWindow hwindow (by omega)

end

/-! ### The state after a store (R56, R81) -/

/-- `t` has the memory, the parameters and the MMU's modes of `s` after a store of the low bytes of `v`
at the address `va`, which was legal in DRAM. -/
structure State.Stored (s t : State) (va v : Word) (n : AccessSize) : Prop where
  machine : s.mode = .machine
  notRom  : s.rom.contains (s.effectiveAddress va) = false
  legal   : s.dram.legal (s.effectiveAddress va) n = true
  mem     : t.mem = s.mem.writeBytes (s.effectiveAddress va).toNat (disassemble v (sizeBytes n))
  params  : t.params = s.params
  mode    : t.mode = s.mode
  xlen    : t.xlen = s.xlen

theorem stored_of_memWrite {s t : State} {va v : Word} {n : AccessSize} (h : s.memWrite va n v = .ok t) :
    s.Stored t va v n := by
  rcases memWrite_cases s va v n with ⟨hmode, hrom, hlegal, hok⟩ | herr | ⟨-, hrefuse⟩
  · cases hok.symm.trans h
    exact ⟨hmode, hrom, hlegal, rfl, rfl, rfl, rfl⟩
  · cases herr.symm.trans h
  · cases hrefuse.symm.trans h

/-- A store instruction that completes changes memory and the pc, and nothing else (R240). -/
theorem exec_store_next {i : Instr} {s t : State} {n : AccessSize} {rs1 rs2 : RegIdx} {imm : Word}
    (hs : storeOf i = some (n, rs1, rs2, imm)) (h : exec i s = .next t) :
    s.Stored t (addressOf (s.readX rs1) imm) (s.readX rs2) n ∧ t.x = s.x ∧ t.pc = s.pc + 4#64 := by
  cases execCase_of_eq h with
  | wrote _ _ _ hs' | fellThrough _ hs' | branched _ _ hs' | linked _ _ _ hs' => cases hs'.symm.trans hs
  | stored n' rs1' rs2' imm' hs' _ _ hmode hrom hlegal =>
    cases hs'.symm.trans hs
    exact ⟨⟨hmode, hrom, hlegal, rfl, rfl, rfl, rfl⟩, rfl, rfl⟩

namespace State.Stored

variable {s t : State} {va v : Word} {n : AccessSize}

/-- What is stored is stored for every state with the same memory, parameters and modes. -/
theorem congr {u : State} (h : s.Stored t va v n) (hm : u.mem = t.mem) (hp : u.params = t.params)
    (hmode : u.mode = t.mode) (hx : u.xlen = t.xlen) : s.Stored u va v n :=
  ⟨h.machine, h.notRom, h.legal, hm.trans h.mem, hp.trans h.params, hmode.trans h.mode, hx.trans h.xlen⟩

theorem effectiveAddress_eq (h : s.Stored t va v n) (b : Word) : t.effectiveAddress b = s.effectiveAddress b := by
  rw [State.effectiveAddress, h.xlen, State.effectiveAddress]

theorem rom_eq (h : s.Stored t va v n) : t.rom = s.rom := by rw [State.rom, h.params, State.rom]

theorem dram_eq (h : s.Stored t va v n) : t.dram = s.dram := by rw [State.dram, h.params, State.dram]

theorem memRead_eq_busRead (h : s.Stored t va v n) (b : Word) (r : AccessSize) :
    t.memRead b r = t.busRead (s.effectiveAddress b) r := by
  rw [State.memRead, mmuLoad_machine (h.mode.trans h.machine), h.effectiveAddress_eq]

/-- The load of the stored bytes gives them zero-extended (R63, R83). -/
theorem memRead_same (h : s.Stored t va v n) (hw : s.mem.wf = true) :
    t.memRead va n = .ok ((v.setWidth (8 * sizeBytes n)).setWidth 64) := by
  have hbytes := readBytes_writeBytes_within hw (s.effectiveAddress va).toNat v (Nat.zero_add (sizeBytes n)).le
  rw [Nat.add_zero, Nat.mul_zero, BitVec.ushiftRight_zero, ← h.mem] at hbytes
  rw [h.memRead_eq_busRead, busRead_of_not_rom (h.rom_eq ▸ h.notRom), read_eq_assemble (h.dram_eq ▸ h.legal), hbytes,
    assemble_disassemble]

/-- The load of disjoint bytes gives what it gave before (R63, R83). -/
theorem memRead_disjoint (h : s.Stored t va v n) {b : Word} {r : AccessSize}
    (hd : (s.effectiveAddress b).toNat + sizeBytes r ≤ (s.effectiveAddress va).toNat ∨
      (s.effectiveAddress va).toNat + sizeBytes n ≤ (s.effectiveAddress b).toNat) :
    t.memRead b r = s.memRead b r := by
  have hbytes : t.mem.readBytes (s.effectiveAddress b).toNat (sizeBytes r) =
      s.mem.readBytes (s.effectiveAddress b).toNat (sizeBytes r) := by
    rw [h.mem]
    exact readBytes_writeBytes_disjoint _ _ (by rwa [length_disassemble])
  rw [h.memRead_eq_busRead, State.memRead, mmuLoad_machine h.machine, State.busRead, State.busRead, h.rom_eq, h.dram_eq,
    device_read_congr _ hbytes, device_read_congr _ hbytes]

/-- Each byte of memory after the store: a byte of the value, or the byte before. -/
theorem readByte_eq (h : s.Stored t va v n) (hw : s.mem.wf = true) (k : Nat) : t.mem.readByte k =
    if (s.effectiveAddress va).toNat ≤ k ∧ k < (s.effectiveAddress va).toNat + sizeBytes n
    then v.extractLsb' (8 * (k - (s.effectiveAddress va).toNat)) 8 else s.mem.readByte k := by
  rw [h.mem, readByte_writeBytes _ _ _ hw, length_disassemble]
  split
  · exact getD_disassemble _ _ _ (by omega)
  · rfl

end State.Stored

/-! ### Image loads (R64) -/

/-- The image, the tail and the rest of memory after the load of an image that fits. -/
theorem loadImage_spec (d : Device) (z : Bool) {m : Memory} {image : List Byte} (hw : m.wf = true)
    (hfits : image.length ≤ d.len) :
    (d.loadImage z m image).wf = true ∧
      (∀ k, (h : k < image.length) → (d.loadImage z m image).readByte (d.base + k) = image[k]) ∧
      (∀ k, image.length ≤ k → k < d.len →
        (d.loadImage z m image).readByte (d.base + k) = if z = true then 0#8 else m.readByte (d.base + k)) ∧
      ∀ a, (a < d.base ∨ d.base + d.len ≤ a) → (d.loadImage z m image).readByte a = m.readByte a := by
  have hread := readByte_loadImage d z image hw
  refine ⟨wf_loadImage d z image hw, fun k hk => ?_, fun k hlo hhi => ?_, fun a ha => (hread a).2.2 ha hfits⟩
  · rw [(hread (d.base + k)).1 (by omega) (by omega), Nat.add_sub_cancel_left, List.getD_eq_getElem]
  · exact (hread (d.base + k)).2.1 (by omega) (by omega)

/-! ### Traps (R147, R401, R405) -/

/-- The one kind an instruction's rule names is one of the six that are raised. -/
theorem trapOf_mem_raisedKinds {i : Instr} {t : Trap} (h : trapOf i = some t) : t ∈ raisedKinds := by
  cases i with
  | lb | lh | lw | ld | lbu | lhu | lwu | sb | sh | sw | sd | beq | bne | blt | bge | bltu | bgeu | jal | jalr
  | ecall | ebreak => cases h; decide
  | _ => cases h

theorem exec_fault {i : Instr} {s : State} {r : Fault} (h : exec i s = .fault r) :
    ∃ t, trapOf i = some t ∧ r = .trapped t s ∧ t ∈ raisedKinds := by
  cases execCase_of_eq h with
  | trapped t ht => exact ⟨t, ht, rfl, trapOf_mem_raisedKinds ht⟩

theorem afterExecute_eq_fault {o : Host.Outcome State Fault Refusal} {r : Fault} :
    afterExecute o = .fault r ↔ o = .fault r := by
  cases o <;> simp

theorem step_fault {s : State} {r : Fault} (h : step s = .fault r) : ∃ t, r = .trapped t s ∧ t ∈ raisedKinds := by
  generalize ho : step s = o at h
  have hc := ho ▸ step_cases s
  cases hc with
  | skipped | wrongWidth | wrongMode => cases h
  | halted => cases h; exact ⟨_, rfl, by decide⟩
  | illegal => cases h; exact ⟨_, rfl, by decide⟩
  | ran v i =>
    obtain ⟨t, -, hr, ht⟩ := exec_fault (afterExecute_eq_fault.1 h)
    exact ⟨t, hr, ht⟩

/-- An instruction that traps when it is placed at the first pc gives a step that raises its trap. -/
theorem exists_step_trapped {t : Trap} (w : IWord)
    (h : step (State.reset.withFetchWord 32 w.toNat) = .fault (.trapped t (State.reset.withFetchWord 32 w.toNat))) :
    ∃ s : State, s.Inv ∧ step s = .fault (.trapped t s) :=
  ⟨_, withFetchWord_inv w resetMeetsTheInvariant (v := 0#64) (by decide), h⟩

/-- From reset, with x0 as every operand, one instruction raises each kind: no address below ROM is backed,
and a jump by 2 leaves the alignment. -/
theorem exists_step_of_raisedKind {t : Trap} (h : t ∈ raisedKinds) :
    ∃ s : State, s.Inv ∧ step s = .fault (.trapped t s) := by
  simp only [raisedKinds, List.mem_cons, List.not_mem_nil, or_false] at h
  rcases h with rfl | rfl | rfl | rfl | rfl | rfl
  · exact exists_step_trapped (encode (.lw 0 0 0)) rfl
  · exact exists_step_trapped (encode (.sw 0 0 0)) rfl
  · exact exists_step_trapped 0#32 rfl
  · exact exists_step_trapped (encode (.ebreak 0 0 1)) rfl
  · exact exists_step_trapped (encode (.ecall 0 0 0)) rfl
  · exact exists_step_trapped (encode (.jal 0 2)) rfl

/-! ### The obligations -/

/-- Settles O52: the kinds by the cases of a step and of an instruction, and a step that raises each. -/
theorem trapsArePreciseAndOfSixKinds : Obligations.TrapsArePreciseAndOfSixKinds :=
  ⟨fun _ _ => step_fault, fun _ _ _ => run_fault, fun _ _ _ => exec_fault, fun _ => exists_step_of_raisedKind⟩

/-- Settles O12: the fetch is a Word load at the pc, and no window that ends at DRAM's end is legal. -/
theorem fetchReadsTheLittleEndianWordAtThePc : Obligations.FetchReadsTheLittleEndianWordAtThePc := by
  refine fun s hmode hp => ⟨fetch_of_legalWindow hmode hp, fetch_of_not_legalWindow hmode hp, fun hx hend => ?_⟩
  refine fetch_of_not_legalWindow hmode hp ?_
  rw [effectiveAddress_x64 hx]
  exact not_legalWindow_at_dram_end hend

/-- Settles O15: the fetch of the state with the word placed gives that word. -/
theorem placedWordIsTheNextInstruction : Obligations.PlacedWordIsTheNextInstruction := by
  refine fun s v w hw hp h => ⟨?_, rfl⟩
  obtain ⟨v', hfetch, hlow⟩ := fetch_withFetchWord w hw hp h
  rw [step_of_word hfetch, hlow]

/-- Settles O34: the store is the only change of memory, and no register is written. -/
theorem storeFrame : Obligations.StoreFrame := by
  intro i n rs1 rs2 imm s t hs _ h
  obtain ⟨-, hx, -⟩ := exec_store_next hs h
  exact ⟨fun a => exec_readByte_of_store h hs, fun r => congrArg (RegFile.read · r) hx⟩

/-- Settles O36: the window as numbers, which no sum leaves by wrapping. -/
theorem accessWindowOfADevice : Obligations.AccessWindowOfADevice := by
  intro d m a n hd
  have hlegal := legal_iff d a n hd
  refine ⟨contains_iff d a, rfl, hlegal, read_of_legal, read_of_illegal, fun h => ?_, fun hend hbase => ?_⟩
  · have := (hlegal.1 h).2
    omega
  · exact hlegal.2 ⟨hbase, by omega⟩

/-- Settles O37: the three answers of a DRAM write, and the bytes of the memory it answers. -/
theorem dramWriteIsAllOrNothing : Obligations.DramWriteIsAllOrNothing := by
  refine fun d m a n bytes hw => ⟨writeRam_of_arity d m a, writeRam_of_illegal, fun hlen hlegal => ?_⟩
  exact ⟨_, writeRam_of_legal hlen hlegal, wf_writeBytes _ _ hw, fun i => readByte_writeBytes_inside hw a.toNat,
    fun k hk => readByte_writeBytes_outside m bytes (by rwa [hlen])⟩

/-- Settles O39: an address in neither range starts no legal window, and neither does one whose window
passes ROM's end. -/
theorem busRoutingAndItsConsequences : Obligations.BusRoutingAndItsConsequences := by
  refine fun s a n hp => ⟨busContains_iff, busRead_of_rom, busRead_of_not_rom, fun hc => ?_, fun hrom hend => ?_⟩
  · have hwindow : ¬ LegalWindow s a.toNat (sizeBytes n) := fun h =>
      Bool.eq_false_iff.1 hc (busContains_iff.2 (isBacked_of_legalWindow h (Nat.zero_le _)))
    exact ⟨busRead_err hp hwindow, fun v => (busWrite_eq hp (length_disassemble v _)).2 fun h => hwindow (.inr h)⟩
  · exact busRead_err hp (not_legalWindow_past_rom ((rom_contains_iff s a).1 hrom).2 hend)

/-- Settles O41: the address of the narrow read does not wrap, and its bytes are bytes of the value. -/
theorem narrowReadsSeeTheBytesOfAWideWrite : Obligations.NarrowReadsSeeTheBytesOfAWideWrite := by
  intro d m m' a v n r k hd hw hwrite hk hlegal
  obtain ⟨hwide, rfl⟩ := writeRam_eq_ok (length_disassemble v _) hwrite
  have hin := ((legal_iff d a n hd).1 hwide).2
  have haddr : (a + BitVec.ofNat 64 k).toNat = a.toNat + k := by
    rw [BitVec.toNat_add, BitVec.toNat_ofNat]
    omega
  rw [read_eq_assemble hlegal, haddr, readBytes_writeBytes_within hw _ v hk, assemble_disassemble]

/-- Settles O42: the same bytes by the value stored, disjoint bytes by the frame of the store. -/
theorem loadAfterStoreGivesTheStoredValue : Obligations.LoadAfterStoreGivesTheStoredValue := by
  intro s t a b v n r _ _ hw h
  exact ⟨(stored_of_memWrite h).memRead_same hw, (stored_of_memWrite h).memRead_disjoint⟩

/-- Settles O43: the fetch at pc + 4 is the load of the word just stored. -/
theorem storedWordIsTheNextInstruction : Obligations.StoredWordIsTheNextInstruction := by
  intro s t v imm rs1 rs2 hi hfetch hdecode haddr h
  rcases step_next h with ⟨herr, -, -⟩ | ⟨v', i, u, hv', -, hd, hu, rfl⟩
  · cases herr.symm.trans hfetch
  · cases hv'.symm.trans hfetch
    cases hd.symm.trans hdecode
    obtain ⟨hstored, -, hpc⟩ := exec_store_next rfl hu
    have hload := (hstored.congr (u := u.tick) rfl rfl rfl rfl).memRead_same hi.memCanonical
    have hnext : u.tick.fetch = .ok (((s.readX rs2).setWidth 32).setWidth 64) := by
      rw [addressOf, haddr, ← hpc] at hload
      exact hload
    rw [step_of_word hnext, low32_setWidth_setWidth]

/-- Settles O44: a fetched byte is a byte of memory, and the store says what each byte of memory is. -/
theorem fetchSeesEveryEarlierStore : Obligations.FetchSeesEveryEarlierStore := by
  intro i n rs1 rs2 imm s t u v k hi hs h hm hp hmode hx hfetch hk
  obtain ⟨hstored, -, -⟩ := exec_store_next hs h
  have hbyte := (hstored.congr hm hp hmode hx).readByte_eq hi.memCanonical (u.pc.toNat + k)
  rw [effectiveAddress_x64 hi.xlen64] at hbyte
  rw [extractLsb'_fetch hfetch hk, effectiveAddress_x64 (hx.trans (hstored.xlen.trans hi.xlen64))]
  exact hbyte

/-- Settles O46: the load of an image that fits, for ROM and for DRAM. -/
theorem imageLoadCopiesAndZeroesTheTail : Obligations.ImageLoadCopiesAndZeroesTheTail := by
  refine fun s image hw _ => ⟨loadDramImage_long, loadRomImage_long, fun hfits => ?_, fun hfits => ?_, rfl, rfl⟩
  · exact ⟨_, loadDramImage_ok hfits, loadImage_spec s.dram _ hw hfits⟩
  · exact ⟨_, loadRomImage_ok hfits, loadImage_spec s.rom _ hw hfits⟩

/-- Settles O38: a ROM write fails for every buffer of the right length, and the bus routes on ROM's range. -/
theorem romWriteAlwaysFails : Obligations.RomWriteAlwaysFails :=
  ⟨fun _ _ => romWrite_err, fun _ _ _ _ hlen =>
    ⟨fun hrom => (busWrite_of_rom hrom).trans (romWrite_err hlen), busWrite_of_not_rom⟩⟩

/-- Settles O40: one lemma for each access, in Machine mode and in the others. -/
theorem mmuMasksTranslatesAndAsksTheBus : Obligations.MmuMasksTranslatesAndAsksTheBus := fun _ va v n =>
  ⟨toNat_effectiveAddress_x32, fun hx => effectiveAddress_x64 hx va,
    fun hmode => ⟨translate_machine hmode, mmuLoad_machine hmode va n, fun _ => memWrite_of_busWrite_ok hmode,
      fun _ => memWrite_of_busWrite_err hmode, validateAddress_machine hmode⟩,
    fun hmode => ⟨translate_other hmode, mmuLoad_other hmode va n, memWrite_other hmode va v n,
      validateAddress_other hmode⟩,
    length_disassemble v _, getElem_disassemble v _⟩

end Sys2Proof.Machine

/-! PROOFS, family 30_encoding: the decoder and the encoder undo each other, which words decode, the
immediates as numbers, and the expansion of call. -/

namespace Sys2Proof

/-! ### The round trip from the instruction (R100, R112, R118) -/

/-- Every well-formed instruction has its row, by the lemma of its constructor. -/
theorem encodedRow (i : Instr) : Laws.EncodedRow.Statement i := by
  open Laws.EncodedRow in
  cases i with
  | add => exact add ..
  | sub => exact sub ..
  | sll => exact sll ..
  | slt => exact slt ..
  | sltu => exact sltu ..
  | xor => exact xor ..
  | srl => exact srl ..
  | sra => exact sra ..
  | or => exact or ..
  | and => exact and ..
  | addw => exact addw ..
  | subw => exact subw ..
  | sllw => exact sllw ..
  | srlw => exact srlw ..
  | sraw => exact sraw ..
  | addi => exact addi ..
  | slti => exact slti ..
  | sltiu => exact sltiu ..
  | xori => exact xori ..
  | ori => exact ori ..
  | andi => exact andi ..
  | slli => exact slli ..
  | srli => exact srli ..
  | srai => exact srai ..
  | addiw => exact addiw ..
  | slliw => exact slliw ..
  | srliw => exact srliw ..
  | sraiw => exact sraiw ..
  | lb => exact lb ..
  | lh => exact lh ..
  | lw => exact lw ..
  | ld => exact ld ..
  | lbu => exact lbu ..
  | lhu => exact lhu ..
  | lwu => exact lwu ..
  | sb => exact sb ..
  | sh => exact sh ..
  | sw => exact sw ..
  | sd => exact sd ..
  | beq => exact beq ..
  | bne => exact bne ..
  | blt => exact blt ..
  | bge => exact bge ..
  | bltu => exact bltu ..
  | bgeu => exact bgeu ..
  | jal => exact jal ..
  | jalr => exact jalr ..
  | lui => exact lui ..
  | auipc => exact auipc ..
  | ecall => exact ecall ..
  | ebreak => exact ebreak ..
  | mul => exact mul ..
  | mulh => exact mulh ..
  | mulhsu => exact mulhsu ..
  | mulhu => exact mulhu ..
  | div => exact div ..
  | divu => exact divu ..
  | rem => exact rem ..
  | remu => exact remu ..
  | mulw => exact mulw ..
  | divw => exact divw ..
  | divuw => exact divuw ..
  | remw => exact remw ..
  | remuw => exact remuw ..

/-- Settles O1: the row of the instruction matches its word, and a row that matches decides the decoding. -/
theorem decodeOfEncodeIsTheInstruction : Obligations.DecodeOfEncodeIsTheInstruction := by
  intro i hwf
  rcases encodedRow i with hill | ⟨p, hp, hmatch, hparse⟩
  · cases hill.symm.trans hwf
  · rw [decode_of_match hp hmatch, hparse]

/-! ### The round trip from the word -/

/-- The I immediates a row admits: those of its format, or those its predicate leaves (R104, R114, R115). -/
def admitsImmI : Option Predicate → Word → Bool
  | none, imm => immFits 12 imm
  | some (.upperSeven v), imm => immFitsShift (32 * v.toNat) imm
  | some (.equals v), imm => imm == v.setWidth 64

/-- What the constructor of a row makes is well-formed when its immediate is one the row's format and
predicate admit, and the encoder lays it out in that format with the row's fields (R103 to R108, R114, R115). -/
def Pattern.IsEncoded : Pattern → Prop
  | .r op f3 f7 c => ∀ rd rs1 rs2, (c rd rs1 rs2).wf = true ∧ encode (c rd rs1 rs2) = encodeR op f3 f7 rd rs1 rs2
  | .i op f3 q c => ∀ rd rs1 imm, (c rd rs1 imm).wf = admitsImmI q imm ∧
      encode (c rd rs1 imm) = encodeI op f3 rd rs1 imm
  | .s op f3 c => ∀ rs1 rs2 imm, (c rs1 rs2 imm).wf = immFits 12 imm ∧
      encode (c rs1 rs2 imm) = encodeS op f3 rs1 rs2 imm
  | .b op f3 c => ∀ rs1 rs2 imm, (c rs1 rs2 imm).wf = immFitsEven 13 imm ∧
      encode (c rs1 rs2 imm) = encodeB op f3 rs1 rs2 imm
  | .u op c => ∀ rd imm, (c rd imm).wf = true ∧ encode (c rd imm) = encodeU op rd imm
  | .j op c => ∀ rd imm, (c rd imm).wf = immFitsEven 21 imm ∧ encode (c rd imm) = encodeJ op rd imm

/-- Row by row, the two facts are the arms of `Instr.wf` and `encode` for the row's constructor. -/
theorem patterns_isEncoded : ∀ p ∈ patterns, p.IsEncoded := by
  simp only [patterns, integerRegisterPatterns, integerImmediatePatterns, loadStorePatterns, controlTransferPatterns,
    upperImmediatePatterns, systemPatterns, multiplyDividePatterns, List.forall_mem_append, List.forall_mem_cons,
    List.not_mem_nil, false_implies, implies_true, and_true, Pattern.IsEncoded]
  and_intros <;> (intros; exact ⟨rfl, rfl⟩)

/-! The decoded immediates are in the ranges of their formats. -/

theorem immFits_signExtend {n : Nat} (b : BitVec n) (h : n ≤ 64) : immFits n (b.signExtend 64) = true := by
  rw [immFits, setWidth_signExtend b h, beq_self_eq_true]

theorem immFits_immIOf (w : IWord) : immFits 12 (immIOf w) = true := immFits_signExtend _ (by decide)

theorem immFits_immSOf (w : IWord) : immFits 12 (immSOf w) = true := immFits_signExtend _ (by decide)

/-- A field that ends in a 0 bit is an even offset. -/
theorem immFitsEven_signExtend {n : Nat} (b : BitVec n) (h : n + 1 ≤ 64) :
    immFitsEven (n + 1) ((b ++ 0#1).signExtend 64) = true := by
  have heven : ((b ++ 0#1).signExtend 64).getLsbD 0 = false := by
    rw [BitVec.getLsbD_signExtend, BitVec.getLsbD_append]
    simp
  rw [immFitsEven, immFits_signExtend (b ++ 0#1) h, heven]
  rfl

theorem immFitsEven_immBOf (w : IWord) : immFitsEven 13 (immBOf w) = true := immFitsEven_signExtend _ (by decide)

theorem immFitsEven_immJOf (w : IWord) : immFitsEven 21 (immJOf w) = true := immFitsEven_signExtend _ (by decide)

/-- An immediate of 12 bits whose upper seven are a literal is a shift immediate of that literal (R114). -/
theorem immFitsShift_of_upperSeven {imm : Word} {v : BitVec 7} (hv : v.toNat < 64) (hfit : immFits 12 imm = true)
    (h : imm.extractLsb' 5 7 = v) : immFitsShift (32 * v.toNat) imm = true := by
  have hseven : imm.toNat / 32 % 128 = v.toNat := by
    rw [← h, BitVec.extractLsb'_toNat, Nat.shiftRight_eq_div_pow]
  have hpos : (imm.setWidth 12).msb = false := by
    rw [BitVec.msb_eq_false_iff_two_mul_lt, BitVec.toNat_setWidth]
    omega
  have hlow : imm.toNat % 4096 = imm.toNat := by
    rw [immFits, beq_iff_eq, BitVec.signExtend_eq_setWidth_of_msb_false hpos] at hfit
    have := congrArg BitVec.toNat hfit
    rw [BitVec.toNat_setWidth, BitVec.toNat_setWidth] at this
    omega
  simp only [immFitsShift, Bool.and_eq_true, decide_eq_true_eq]
  omega

/-- The literal of an `upperSeven` predicate is non-negative as a 7-bit number. -/
def hasSmallUpperSeven : Pattern → Bool
  | .i _ _ (some (.upperSeven v)) _ => decide (v.toNat < 64)
  | _ => true

theorem patterns_smallUpperSevens : patterns.all hasSmallUpperSeven = true := by decide

/-- The immediate parsed from a word that an I row matches is one the row admits. -/
theorem admitsImmI_immIOf {op : BitVec 7} {f3 : BitVec 3} {q : Option Predicate} {c : RegIdx → RegIdx → Word → Instr}
    {w : IWord} (hs : hasSmallUpperSeven (.i op f3 q c) = true) (hm : (Pattern.i op f3 q c).isMatch w = true) :
    opcodeOf w = op ∧ funct3Of w = f3 ∧ admitsImmI q (immIOf w) = true := by
  match q, hs with
  | none, _ =>
    simp only [Pattern.isMatch, Bool.and_eq_true, beq_iff_eq] at hm
    exact ⟨hm.1, hm.2, immFits_immIOf w⟩
  | some (.upperSeven v), hs =>
    simp only [Pattern.isMatch, Predicate.holds, Bool.and_eq_true, beq_iff_eq] at hm
    obtain ⟨⟨hop, hf3⟩, hv⟩ := hm
    exact ⟨hop, hf3, immFitsShift_of_upperSeven (of_decide_eq_true hs) (immFits_immIOf w) hv⟩
  | some (.equals v), _ =>
    simp only [Pattern.isMatch, Predicate.holds, Bool.and_eq_true] at hm
    obtain ⟨⟨hop, hf3⟩, hv⟩ := hm
    exact ⟨beq_iff_eq.1 hop, beq_iff_eq.1 hf3, hv⟩

/-- A word that matches an encoded row is the word of the instruction the row's parser gives. -/
theorem Pattern.IsEncoded.roundTrip {p : Pattern} (hp : p.IsEncoded) (hs : hasSmallUpperSeven p = true) {w : IWord}
    (hm : p.isMatch w = true) : (p.parse w).wf = true ∧ encode (p.parse w) = w := by
  cases p with
  | r op f3 f7 c =>
    simp only [Pattern.isMatch, Bool.and_eq_true, beq_iff_eq] at hm
    obtain ⟨⟨rfl, rfl⟩, rfl⟩ := hm
    obtain ⟨hwf, henc⟩ := hp (rdOf w) (rs1Of w) (rs2Of w)
    exact ⟨hwf, henc.trans (encodeR_parse w)⟩
  | i op f3 q c =>
    obtain ⟨rfl, rfl, himm⟩ := admitsImmI_immIOf hs hm
    obtain ⟨hwf, henc⟩ := hp (rdOf w) (rs1Of w) (immIOf w)
    exact ⟨hwf.trans himm, henc.trans (encodeI_parse w)⟩
  | s op f3 c =>
    simp only [Pattern.isMatch, Bool.and_eq_true, beq_iff_eq] at hm
    obtain ⟨rfl, rfl⟩ := hm
    obtain ⟨hwf, henc⟩ := hp (rs1Of w) (rs2Of w) (immSOf w)
    exact ⟨hwf.trans (immFits_immSOf w), henc.trans (encodeS_parse w)⟩
  | b op f3 c =>
    simp only [Pattern.isMatch, Bool.and_eq_true, beq_iff_eq] at hm
    obtain ⟨rfl, rfl⟩ := hm
    obtain ⟨hwf, henc⟩ := hp (rs1Of w) (rs2Of w) (immBOf w)
    exact ⟨hwf.trans (immFitsEven_immBOf w), henc.trans (encodeB_parse w)⟩
  | u op c =>
    obtain rfl := beq_iff_eq.1 hm
    obtain ⟨hwf, henc⟩ := hp (rdOf w) (immUOf w)
    exact ⟨hwf, henc.trans (encodeU_parse w)⟩
  | j op c =>
    obtain rfl := beq_iff_eq.1 hm
    obtain ⟨hwf, henc⟩ := hp (rdOf w) (immJOf w)
    exact ⟨hwf.trans (immFitsEven_immJOf w), henc.trans (encodeJ_parse w)⟩

/-- Settles O2: the instruction comes from a row that matches, and every row of the table is encoded. -/
theorem encodeOfDecodeIsTheWord : Obligations.EncodeOfDecodeIsTheWord := by
  intro w i h
  obtain ⟨p, hp, hmatch, rfl⟩ := exists_of_decodeWith h
  exact (patterns_isEncoded p hp).roundTrip (List.all_eq_true.1 patterns_smallUpperSevens p hp) hmatch

/-! ### The scan: exclusive rows, and words that no row matches (R112, R113, R116) -/

theorem isMatch_iff_mask_of_mem {p : Pattern} (hp : p ∈ patterns) (w : IWord) :
    p.isMatch w = true ↔ w &&& p.mask = p.value :=
  isMatch_iff_mask p (List.all_eq_true.1 patterns_smallLiterals p hp) w

theorem patterns_exclusive (w : IWord) :
    patterns.Pairwise fun p q => ¬ (p.isMatch w = true ∧ q.isMatch w = true) := by
  have hs := List.all_eq_true.1 patterns_smallLiterals
  exact patterns_clash.imp_of_mem fun hp hq hclash => not_both_of_clash (hs _ hp) (hs _ hq) hclash w

theorem decodeWith_eq_undef_iff {ps : List Pattern} {w : IWord} :
    decodeWith ps w = .undef ↔ ∀ p ∈ ps, p.isMatch w = false := by
  refine ⟨fun h => ?_, decodeWith_of_noMatch⟩
  induction ps with
  | nil => exact fun p hp => absurd hp List.not_mem_nil
  | cons q rest ih =>
    rw [decodeWith] at h
    split at h
    · cases h
    · exact List.forall_mem_cons.2 ⟨Bool.eq_false_iff.2 ‹_›, ih h⟩

/-- The scan of a table of exclusive rows does not depend on their order. -/
theorem decodeWith_perm {ps qs : List Pattern} {w : IWord} (hperm : ps.Perm qs)
    (hx : qs.Pairwise fun p q => ¬ (p.isMatch w = true ∧ q.isMatch w = true)) : decodeWith ps w = decodeWith qs w := by
  cases h : decodeWith qs w with
  | undef => exact decodeWith_of_noMatch fun p hp => decodeWith_eq_undef_iff.1 h p (hperm.mem_iff.1 hp)
  | instruction i =>
    obtain ⟨p, hp, hmatch, rfl⟩ := exists_of_decodeWith h
    have hx' := (hperm.pairwise_iff fun hnot hboth => hnot hboth.symm).2 hx
    exact decodeWith_of_match hx' (hperm.mem_iff.2 hp) hmatch

/-- Settles O3: the check of R116 is pairwise, and exclusive rows may be scanned in any order. -/
theorem noWordMatchesTwoPatterns : Obligations.NoWordMatchesTwoPatterns := by
  refine ⟨(allClash_iff patterns).2 patterns_clash, ?_, fun p hp w => decode_of_match hp,
    fun ps hperm w => decodeWith_perm hperm (patterns_exclusive w)⟩
  exact List.pairwise_iff_forall_sublist.2 fun h w => List.pairwise_iff_forall_sublist.1 (patterns_exclusive w) h

/-- Settles O4: a row's match is its mask compare, and the 64 pairs are computed from the rows. -/
theorem matchIsOneMaskCompare : Obligations.MatchIsOneMaskCompare := by
  refine ⟨fun p hp w => ?_, by decide⟩
  rw [Bool.eq_iff_iff, isMatch_iff_mask_of_mem hp, beq_iff_eq]

/-- Every row compares bits 1:0 of the word, with 11 (R118, R121). -/
theorem patterns_lowBits : ∀ p ∈ patterns, p.mask.extractLsb' 0 2 = 0b11#2 ∧ p.value.extractLsb' 0 2 = 0b11#2 := by
  decide

theorem lowBits_of_isMatch {p : Pattern} {w : IWord} (hp : p ∈ patterns) (hm : p.isMatch w = true) :
    w.extractLsb' 0 2 = 0b11#2 := by
  obtain ⟨hmask, hvalue⟩ := patterns_lowBits p hp
  have h := congrArg (BitVec.extractLsb' 0 2) ((isMatch_iff_mask_of_mem hp w).1 hm)
  rw [BitVec.extractLsb'_and, hmask, hvalue] at h
  exact (BitVec.and_allOnes (x := w.extractLsb' 0 2)).symm.trans h

/-- Settles O6: a word that a row matches has the row's low bits. -/
theorem lowBitsNotElevenAreUndefined : Obligations.LowBitsNotElevenAreUndefined := by
  refine ⟨fun w hlow => ?_, fun p hp => (patterns_lowBits p hp).2, fun _ _ _ _ _ => rfl⟩
  exact decodeWith_of_noMatch fun p hp => Bool.eq_false_iff.2 fun hm => hlow (lowBits_of_isMatch hp hm)

/-! ### The decodable fields (R114, R115, R119) -/

section
variable {op : BitVec 7} {f3 : BitVec 3} {v7 : BitVec 7} {v12 : BitVec 12} {c : RegIdx → RegIdx → Word → Instr}
  {w : IWord}

theorem isMatch_upperSeven_iff : (Pattern.i op f3 (some (.upperSeven v7)) c).isMatch w = true ↔
    opcodeOf w = op ∧ funct3Of w = f3 ∧ funct7Of w = v7 := by
  simp only [Pattern.isMatch, Predicate.holds, immIOf_upperSeven, Bool.and_eq_true, beq_iff_eq, and_assoc, funct7Of]

theorem isMatch_equals_iff (hv : v12.toNat < 2048) : (Pattern.i op f3 (some (.equals v12)) c).isMatch w = true ↔
    opcodeOf w = op ∧ funct3Of w = f3 ∧ w.extractLsb' 20 12 = v12 := by
  simp only [Pattern.isMatch, Predicate.holds, Bool.and_eq_true, beq_iff_eq, and_assoc, immIOf_eq_iff w v12 hv]

/-- The row of a literal decides for the words with that literal; `d` is what the other words decode to. -/
theorem decode_eq_ite_upperSeven {d : Decoded} (hp : .i op f3 (some (.upperSeven v7)) c ∈ patterns)
    (hop : opcodeOf w = op) (hf3 : funct3Of w = f3) (h : w.extractLsb' 25 7 ≠ v7 → decode w = d) :
    decode w = if w.extractLsb' 25 7 = v7 then .instruction (c (rdOf w) (rs1Of w) (immIOf w)) else d := by
  split
  · exact decode_of_match hp (isMatch_upperSeven_iff.2 ⟨hop, hf3, ‹_›⟩)
  · exact h ‹_›

theorem decode_of_equals (hp : .i op f3 (some (.equals v12)) c ∈ patterns) (hsmall : v12.toNat < 2048)
    (hop : opcodeOf w = op) (hf3 : funct3Of w = f3) (hv : w.extractLsb' 20 12 = v12) :
    decode w = .instruction (c (rdOf w) (rs1Of w) (v12.setWidth 64)) := by
  rw [decode_of_match hp ((isMatch_equals_iff hsmall).2 ⟨hop, hf3, hv⟩), Pattern.parse,
    (immIOf_eq_iff w v12 hsmall).2 hv]

end

theorem bitVec3_cases (b : BitVec 3) : b = 0 ∨ b = 1 ∨ b = 2 ∨ b = 3 ∨ b = 4 ∨ b = 5 ∨ b = 6 ∨ b = 7 := by
  revert b
  decide

/-- Settles O5: UNDEF says that no row matches; the comparisons of the 64 rows and the listed fields are the
same propositions about the opcode and the upper bits for each of the eight values of funct3. -/
theorem decodableWordsAreExactlyTheTable : Obligations.DecodableWordsAreExactlyTheTable := by
  refine ⟨fun w => ?_, rfl, rfl, fun s => Machine.execute_undef⟩
  rw [decode, decodeWith_eq_undef_iff]
  simp only [patterns, integerRegisterPatterns, integerImmediatePatterns, loadStorePatterns, controlTransferPatterns,
    upperImmediatePatterns, systemPatterns, multiplyDividePatterns, List.forall_mem_append, List.forall_mem_cons,
    List.not_mem_nil, false_implies, implies_true, and_true, Bool.eq_false_iff, ne_eq, isMatch_upperSeven_iff]
  rw [isMatch_equals_iff (by decide), isMatch_equals_iff (by decide)]
  simp only [Pattern.isMatch, Bool.and_eq_true, beq_iff_eq, ← not_or, not_iff_not]
  generalize opcodeOf w = op
  generalize funct7Of w = f7
  rcases bitVec3_cases (funct3Of w) with h | h | h | h | h | h | h | h <;> rw [h] <;> grind

/-- Settles O7: each literal of the upper seven bits has its row, and the other words are not decodable. -/
theorem shiftImmediatesAreToldApartBySevenBits : Obligations.ShiftImmediatesAreToldApartBySevenBits := by
  intro w
  have undef := (decodableWordsAreExactlyTheTable.1 w).2
  simp only [funct7Of] at undef
  refine ⟨fun hop hf3 => ?_, fun hop hf3 => ?_, fun hop hf3 => ?_, fun hop hf3 => ?_⟩ <;> rw [hop, hf3] at undef
  · exact decode_eq_ite_upperSeven (List.mem_of_getElem? (i := 21) rfl) hop hf3 fun h => undef (by simp [h])
  · exact decode_eq_ite_upperSeven (List.mem_of_getElem? (i := 22) rfl) hop hf3 fun h =>
      decode_eq_ite_upperSeven (List.mem_of_getElem? (i := 23) rfl) hop hf3 fun h' => undef (by simp [h, h'])
  · exact decode_eq_ite_upperSeven (List.mem_of_getElem? (i := 25) rfl) hop hf3 fun h => undef (by simp [h])
  · exact decode_eq_ite_upperSeven (List.mem_of_getElem? (i := 26) rfl) hop hf3 fun h =>
      decode_eq_ite_upperSeven (List.mem_of_getElem? (i := 27) rfl) hop hf3 fun h' => undef (by simp [h, h'])

/-- Settles O8: the row's predicate is over word[31:20] alone. -/
theorem ecallAndEbreakIgnoreRegisterFields : Obligations.EcallAndEbreakIgnoreRegisterFields := fun _ hop hf3 =>
  ⟨decode_of_equals (List.mem_of_getElem? (i := 49) rfl) (by decide) hop hf3,
    decode_of_equals (List.mem_of_getElem? (i := 50) rfl) (by decide) hop hf3⟩

/-- Settles O10: the scan, computed on each word. -/
theorem listedWordsDecode : Obligations.ListedWordsDecode := by
  and_intros <;> rfl

/-! ### The immediates as integers (R104 to R109) -/

/-- A bit on the left of a field weighs as a sign. -/
theorem toInt_bit (b : BitVec 1) : b.toInt = -(b.toNat : Int) := by
  revert b
  decide

theorem toInt_append_of_pos {n m : Nat} (hn : n ≠ 0) (x : BitVec n) (y : BitVec m) :
    (x ++ y).toInt = 2 ^ m * x.toInt + y.toNat := by
  rw [BitVec.toInt_append, if_neg (by simpa using hn)]

/-- A field that reaches bit 31 is that bit and the rest of the field. -/
theorem extractLsb'_bit31_append (w : IWord) (start len : Nat) (h : 31 = start + len) :
    w.extractLsb' start (1 + len) = w.extractLsb' 31 1 ++ w.extractLsb' start len :=
  (BitVec.extractLsb'_append_extractLsb'_eq_extractLsb' h).symm

theorem toInt_immIOf (w : IWord) :
    (immIOf w).toInt = ((w.extractLsb' 20 11).toNat : Int) - 2048 * ((w.extractLsb' 31 1).toNat : Int) := by
  have hsplit : w.extractLsb' 20 12 = w.extractLsb' 31 1 ++ w.extractLsb' 20 11 :=
    extractLsb'_bit31_append w 20 11 rfl
  rw [immIOf, BitVec.toInt_signExtend_of_le (by decide), hsplit, toInt_append_of_pos (by decide), toInt_bit]
  ring

theorem toInt_immSOf (w : IWord) :
    (immSOf w).toInt = 32 * ((w.extractLsb' 25 6).toNat : Int) + ((w.extractLsb' 7 5).toNat : Int)
      - 2048 * ((w.extractLsb' 31 1).toNat : Int) := by
  have hsplit : w.extractLsb' 25 7 = w.extractLsb' 31 1 ++ w.extractLsb' 25 6 :=
    extractLsb'_bit31_append w 25 6 rfl
  rw [immSOf, BitVec.toInt_signExtend_of_le (by decide), immSBits, toInt_append_of_pos (by decide), hsplit,
    toInt_append_of_pos (by decide), toInt_bit]
  ring

theorem toInt_immBOf (w : IWord) :
    (immBOf w).toInt = 2048 * ((w.extractLsb' 7 1).toNat : Int) + 32 * ((w.extractLsb' 25 6).toNat : Int)
      + 2 * ((w.extractLsb' 8 4).toNat : Int) - 4096 * ((w.extractLsb' 31 1).toNat : Int) := by
  rw [immBOf, BitVec.toInt_signExtend_of_le (by decide), immBBits]
  iterate 4 rw [toInt_append_of_pos (by decide)]
  rw [toInt_bit, BitVec.toNat_ofNat]
  ring

theorem toInt_immJOf (w : IWord) :
    (immJOf w).toInt = 4096 * ((w.extractLsb' 12 8).toNat : Int) + 2048 * ((w.extractLsb' 20 1).toNat : Int)
      + 2 * ((w.extractLsb' 21 10).toNat : Int) - 1048576 * ((w.extractLsb' 31 1).toNat : Int) := by
  rw [immJOf, BitVec.toInt_signExtend_of_le (by decide), immJBits]
  iterate 4 rw [toInt_append_of_pos (by decide)]
  rw [toInt_bit, BitVec.toNat_ofNat]
  ring

theorem toNat_immUOf (w : IWord) : (immUOf w).toNat = w.toNat / 4096 := by
  rw [immUOf, BitVec.extractLsb'_toNat, Nat.shiftRight_eq_div_pow]
  omega

/-- Settles O9: the sign bit of each field weighs negatively and the other parts by their places. -/
theorem immediatesAsIntegers : Obligations.ImmediatesAsIntegers := fun w =>
  ⟨toInt_immIOf w, toInt_immSOf w, toInt_immBOf w, toInt_immJOf w, toNat_immUOf w⟩

end Sys2Proof

namespace Sys2Proof.Machine

/-! ### The call pseudo-instruction (R123) -/

theorem write_write (rf : RegFile) (r : RegIdx) (v v' : Word) : (rf.write r v).write r v' = rf.write r v' := by
  unfold RegFile.write
  split
  · rfl
  · rw [Vector.set_set]

/-- The upper immediate is the signed field times 4096 (R290). -/
theorem toInt_upperValue (imm : BitVec 20) : (upperValue imm).toInt = 4096 * imm.toInt := by
  have hlt := imm.isLt
  rw [upperValue, sextN, BitVec.toInt_signExtend_of_le (by decide), BitVec.toInt_eq_toNat_bmod,
    BitVec.toInt_eq_toNat_bmod]
  simp only [BitVec.toNat_setWidth, BitVec.toNat_shiftLeft, Nat.shiftLeft_eq, Int.bmod_def]
  omega

theorem toInt_lo12 (off : Word) : (lo12 off).toInt = (off.toInt + 2048) % 4096 - 2048 := by
  have hlt := off.isLt
  rw [lo12, sextN, BitVec.toInt_signExtend_of_le (by decide), BitVec.toInt_eq_toNat_bmod, BitVec.toInt_eq_toNat_bmod]
  simp only [BitVec.toNat_setWidth, Int.bmod_def]
  omega

section
variable {off : Word} (hlo : -2147483648 ≤ off.toInt + 2048) (hhi : off.toInt + 2048 < 2147483648)
include hlo hhi

theorem toInt_hi20 : (hi20 off).toInt = (off.toInt + 2048) / 4096 := by
  have hlt := off.isLt
  rw [BitVec.toInt_eq_toNat_bmod] at hlo hhi
  rw [hi20, BitVec.toInt_eq_toNat_bmod, BitVec.toInt_eq_toNat_bmod]
  simp only [BitVec.extractLsb'_toNat, BitVec.toNat_add, BitVec.toNat_ofNat, Nat.shiftRight_eq_div_pow,
    Int.bmod_def] at *
  omega

/-- The two parts of an offset make it again: rounding the upper part makes up for the sign of the lower. -/
theorem upperValue_hi20_add_lo12 : upperValue (hi20 off) + lo12 off = off := by
  apply BitVec.eq_of_toInt_eq
  rw [BitVec.toInt_add, toInt_upperValue, toInt_lo12, toInt_hi20 hlo hhi]
  have hsum : 4096 * ((off.toInt + 2048) / 4096) + ((off.toInt + 2048) % 4096 - 2048) = off.toInt := by omega
  rw [hsum, BitVec.toInt_bmod_cancel]

end

theorem and_not_one_of_even {t : Word} (h : t.toNat % 2 = 0) : t &&& ~~~1#64 = t := by
  have hbit : t.getLsbD 0 = false := by
    rw [BitVec.getLsbD_eq_getElem (by decide), BitVec.getElem_eq_testBit_toNat, Nat.testBit_zero]
    simpa using h
  apply BitVec.eq_of_getLsbD_eq
  intro i hi
  rw [BitVec.getLsbD_and, BitVec.getLsbD_not, BitVec.getLsbD_one]
  cases i with
  | zero => rw [hbit, Bool.false_and]
  | succ i => simp [hi]

theorem exec_auipc (rd : RegIdx) (imm : BitVec 20) (s : State) :
    exec (.auipc rd imm) s = .next (s.writeX rd (s.pc + upperValue imm)).advance := rfl

theorem exec_jalr_ok {rd rs1 : RegIdx} {imm : Word} {s : State}
    (h : (indirectTarget (s.readX rs1) imm).toNat % 4 = 0) :
    exec (.jalr rd rs1 imm) s =
      .next { s.writeX rd (s.pc + 4#64) with pc := indirectTarget (s.readX rs1) imm } :=
  transferTo_ok (.inr h)

/-- Settles O58: the parts of the offset make it again, and an aligned target keeps its bit 0. -/
theorem callExpansionReachesItsTarget : Obligations.CallExpansionReachesItsTarget := by
  intro s off hlo hhi halign
  refine ⟨rfl, _, exec_auipc 1 (hi20 off) s, ?_⟩
  have htarget : indirectTarget ((s.writeX 1 (s.pc + upperValue (hi20 off))).advance.readX 1) (lo12 off) =
      s.pc + off := by
    rw [readX_eq, advance_x, writeX_x, read_write_same _ _ (by decide), indirectTarget, BitVec.add_assoc,
      upperValue_hi20_add_lo12 hlo hhi, and_not_one_of_even (by omega)]
  rw [exec_jalr_ok (by rwa [htarget]), htarget]
  have hlink : s.pc + 4#64 + 4#64 = s.pc + 8#64 := BitVec.add_assoc ..
  simp only [State.writeX, State.advance, write_write, hlink]

end Sys2Proof.Machine

/-! PROOFS, family 40_cycle: the cycle for each answer of the fetch. -/

namespace Sys2Proof.Machine

/-- Refusals come from the mode alone (R151), and the fetch has already checked the mode. -/
theorem exec_not_refused_of_fetch_ok {s : State} {v : Word} (h : s.fetch = .ok v) (i : Instr) (r : Refusal) :
    exec i s ≠ .refused r := by
  intro hr
  obtain ⟨-, hmode⟩ := exec_refused hr
  exact hmode (machine_of_mmuLoad_ok h)

/-- Settles O11: each answer of the fetch by its own lemma of a step, and a fetched instruction by the
outcome of its execution. -/
theorem stepRunsTheDecodedInstruction : Obligations.StepRunsTheDecodedInstruction := by
  refine fun s => ⟨fun _ => step_of_skip, fun _ => step_of_halt, fun _ => step_of_refuse, fun v i hf hx hd => ?_,
    fun _ => step_of_undef, fun _ => step_of_x32⟩
  have hstep : step s = afterExecute (exec i s) := step_of_instruction hf hx hd
  refine ⟨fun t ht => ?_, fun r hr => ?_, exec_not_refused_of_fetch_ok hf i⟩
  · rw [hstep, ht, afterExecute_next, State.tick]
  · rw [hstep, hr, afterExecute_fault]

end Sys2Proof.Machine

/-! PROOFS, family 41_integer_register: the register-register instructions decode from their rows and compute
the results of their rules, and the W forms depend on the low words of their sources alone. -/

namespace Sys2Proof.Machine

/-! ### Low words and sign-extended words (R10) -/

theorem low32_eq_setWidth (v : Word) : low32 v = v.setWidth 32 := (BitVec.setWidth_eq_extractLsb' (by decide)).symm

theorem sextN_eq (v : Word) : sextN 32 v = (low32 v).signExtend 64 := by rw [sextN, low32_eq_setWidth]

theorem low32_signExtend (b : BitVec 32) : low32 (b.signExtend 64) = b := by
  rw [low32_eq_setWidth, setWidth_signExtend b (by decide)]

section
variable (a b : Word) (n : Nat)

theorem low32_add : low32 (a + b) = low32 a + low32 b := by
  simp only [low32_eq_setWidth, BitVec.setWidth_add a b (by decide : 32 ≤ 64)]

theorem low32_sub : low32 (a - b) = low32 a - low32 b := by
  simp only [low32_eq_setWidth, BitVec.sub_eq_add_neg, BitVec.setWidth_add a (-b) (by decide : 32 ≤ 64),
    BitVec.setWidth_neg_of_le (by decide : 32 ≤ 64)]

theorem low32_mul : low32 (a * b) = low32 a * low32 b := by
  simp only [low32_eq_setWidth, BitVec.setWidth_mul a b (by decide : 32 ≤ 64)]

theorem low32_shiftLeft : low32 (a <<< n) = low32 a <<< n := by
  simp only [low32_eq_setWidth, BitVec.setWidth_shiftLeft_of_le (by decide : 32 ≤ 64)]

theorem low32_zextN_ushiftRight : low32 (zextN 32 a >>> n) = low32 a >>> n := by
  rw [zextN, ← BitVec.setWidth_ushiftRight (by decide), low32_eq_setWidth, low32_eq_setWidth,
    BitVec.setWidth_setWidth_of_le _ (by decide), BitVec.setWidth_eq]

/-- Above bit 31 a sign-extended word repeats bit 31, which is what the 32-bit shift brings in. -/
theorem low32_sextN_sshiftRight : low32 ((sextN 32 a).sshiftRight n) = (low32 a).sshiftRight n := by
  apply BitVec.eq_of_getLsbD_eq
  intro i hi
  simp only [sextN_eq, low32_eq_setWidth, BitVec.getLsbD_setWidth, BitVec.getLsbD_sshiftRight,
    BitVec.getLsbD_signExtend, BitVec.msb_signExtend]
  grind

end

/-- The shift amount of a W form is read from the low word (R160). -/
theorem shamt5_eq_low32 (v : Word) : shamt5 v = (low32 v).toNat % 32 := by
  simp only [shamt5, low32, BitVec.extractLsb'_toNat, Nat.shiftRight_zero]
  omega

theorem shamt5_eq (v : Word) : shamt5 v = v.toNat % 32 := BitVec.extractLsb'_toNat ..

theorem shamt6_eq (v : Word) : shamt6 v = v.toNat % 64 := BitVec.extractLsb'_toNat ..

theorem viewS32_eq (v : Word) : viewS32 v = (low32 v).toInt := by
  rw [viewS32, sextN_eq, BitVec.toInt_signExtend_of_le (by decide)]

theorem viewU32_eq (v : Word) : viewU32 v = ((low32 v).toNat : Int) := by
  rw [viewU32, zextN, low32_eq_setWidth, BitVec.toNat_setWidth_of_le (by decide)]

theorem truthValue_decide (p : Prop) [Decidable p] : truthValue (decide p) = if p then 1#64 else 0#64 := by
  simp only [truthValue, decide_eq_true_eq]

/-! ### The result of each register-register instruction (R160 to R175, R319 to R323) -/

/-- The instructions of `c` write `result (x[rs1], x[rs2])` to `rd` and advance the pc, from every state (R160). -/
def Computes (c : RegIdx → RegIdx → RegIdx → Instr) (result : Word → Word → Word) : Prop :=
  ∀ (rd rs1 rs2 : RegIdx) (s : State),
    exec (c rd rs1 rs2) s = .next (s.writeX rd (result (s.readX rs1) (s.readX rs2))).advance

theorem Computes.congr {c : RegIdx → RegIdx → RegIdx → Instr} {f g : Word → Word → Word} (h : Computes c f)
    (heq : ∀ a b, f a b = g a b) : Computes c g := fun rd rs1 rs2 s => by
  rw [← heq, h]

theorem computes_add : Computes .add fun a b => a + b := fun _ _ _ _ => rfl

theorem computes_sub : Computes .sub fun a b => a - b := fun _ _ _ _ => rfl

theorem computes_sll : Computes .sll fun a b => a <<< (b.toNat % 64) :=
  .congr (f := fun a b => a <<< shamt6 b) (fun _ _ _ _ => rfl) fun _ b => by rw [shamt6_eq]

theorem computes_slt : Computes .slt fun a b => if a.toInt < b.toInt then 1#64 else 0#64 :=
  .congr (f := fun a b => truthValue (ltSigned a b)) (fun _ _ _ _ => rfl) fun _ _ => truthValue_decide _

theorem computes_sltu : Computes .sltu fun a b => if a.toNat < b.toNat then 1#64 else 0#64 :=
  .congr (f := fun a b => truthValue (ltUnsigned a b)) (fun _ _ _ _ => rfl) fun _ _ => truthValue_decide _

theorem computes_xor : Computes .xor fun a b => a ^^^ b := fun _ _ _ _ => rfl

theorem computes_srl : Computes .srl fun a b => a >>> (b.toNat % 64) :=
  .congr (f := fun a b => a >>> shamt6 b) (fun _ _ _ _ => rfl) fun _ b => by rw [shamt6_eq]

theorem computes_sra : Computes .sra fun a b => BitVec.ofInt 64 (a.toInt >>> (b.toNat % 64)) :=
  .congr (f := fun a b => a.sshiftRight (shamt6 b)) (fun _ _ _ _ => rfl) fun _ b => by
    rw [shamt6_eq, BitVec.sshiftRight_eq]

theorem computes_or : Computes .or fun a b => a ||| b := fun _ _ _ _ => rfl

theorem computes_and : Computes .and fun a b => a &&& b := fun _ _ _ _ => rfl

theorem computes_addw : Computes .addw fun a b => sextN 32 (a + b) := fun _ _ _ _ => rfl

theorem computes_subw : Computes .subw fun a b => sextN 32 (a - b) := fun _ _ _ _ => rfl

theorem computes_sllw : Computes .sllw fun a b => sextN 32 (a <<< shamt5 b) := fun _ _ _ _ => rfl

theorem computes_srlw : Computes .srlw fun a b => (low32 a >>> shamt5 b).signExtend 64 :=
  .congr (f := fun a b => sextN 32 (zextN 32 a >>> shamt5 b)) (fun _ _ _ _ => rfl) fun a b => by
    rw [sextN_eq, low32_zextN_ushiftRight]

theorem computes_sraw : Computes .sraw fun a b => ((low32 a).sshiftRight (shamt5 b)).signExtend 64 :=
  .congr (f := fun a b => sextN 32 ((sextN 32 a).sshiftRight (shamt5 b))) (fun _ _ _ _ => rfl) fun a b => by
    rw [sextN_eq, low32_sextN_sshiftRight]

theorem computes_mulw : Computes .mulw fun a b => sextN 32 (a * b) := fun _ _ _ _ => rfl

theorem computes_divw : Computes .divw divSignedW := fun _ _ _ _ => rfl

theorem computes_divuw : Computes .divuw divUnsignedW := fun _ _ _ _ => rfl

theorem computes_remw : Computes .remw remSignedW := fun _ _ _ _ => rfl

theorem computes_remuw : Computes .remuw remUnsignedW := fun _ _ _ _ => rfl

/-! ### The rows (R118, R161 to R175) -/

/-- A row of the table with an R-type format: the words of its mask compare decode to it (R113), and its
instructions complete with its result. -/
theorem registerRow {k : Nat} {op : BitVec 7} {f3 : BitVec 3} {f7 : BitVec 7} {value : IWord}
    {c : RegIdx → RegIdx → RegIdx → Instr} {result : Word → Word → Word}
    (hrow : patterns[k]? = some (.r op f3 f7 c)) (hvalue : (Pattern.r op f3 f7 c).value = value)
    (hc : Computes c result) :
    (∀ w : IWord, w &&& 0xFE00707F#32 = value → decode w = .instruction (c (rdOf w) (rs1Of w) (rs2Of w))) ∧
    ∀ (rd rs1 rs2 : RegIdx) (s : State), exec (c rd rs1 rs2) s =
      .next { s with x := s.x.write rd (result (s.x.read rs1) (s.x.read rs2)), pc := s.pc + 4#64 } :=
  ⟨fun _ hw => decode_of_mask (List.mem_of_getElem? hrow) (hw.trans hvalue.symm), hc⟩

/-- Settles O16, row by row. -/
theorem registerRegisterResults : Obligations.RegisterRegisterResults := by
  simp only [Obligations.RegisterRegisterResults, List.forall_mem_cons]
  exact ⟨registerRow (k := 0) rfl rfl computes_add, registerRow (k := 1) rfl rfl computes_sub,
    registerRow (k := 2) rfl rfl computes_sll, registerRow (k := 3) rfl rfl computes_slt,
    registerRow (k := 4) rfl rfl computes_sltu, registerRow (k := 5) rfl rfl computes_xor,
    registerRow (k := 6) rfl rfl computes_srl, registerRow (k := 7) rfl rfl computes_sra,
    registerRow (k := 8) rfl rfl computes_or, registerRow (k := 9) rfl rfl computes_and,
    List.forall_mem_nil _⟩

/-- Settles O17, row by row; the right shifts are shifts of the low word. -/
theorem registerRegisterWordResults : Obligations.RegisterRegisterWordResults := by
  simp only [Obligations.RegisterRegisterWordResults, List.forall_mem_cons, ← shamt5_eq, ← low32_eq_setWidth,
    ← sextN_eq]
  exact ⟨registerRow (k := 10) rfl rfl computes_addw, registerRow (k := 11) rfl rfl computes_subw,
    registerRow (k := 12) rfl rfl computes_sllw, registerRow (k := 13) rfl rfl computes_srlw,
    registerRow (k := 14) rfl rfl computes_sraw, List.forall_mem_nil _⟩

/-! ### The W forms and the low words (R160) -/

/-- Both sources of the result are read through their low words, and the result is a sign-extended word. -/
structure IsWordForm (result : Word → Word → Word) : Prop where
  congr : ∀ {a a' b b' : Word}, low32 a = low32 a' → low32 b = low32 b' → result a b = result a' b'
  signExtended : ∀ a b : Word, ∃ r : BitVec 32, result a b = r.signExtend 64

/-- A 32-bit operation on the low words, sign-extended. -/
theorem isWordForm_of_low32 {result : Word → Word → Word} (op : BitVec 32 → BitVec 32 → BitVec 32)
    (h : ∀ a b, result a b = (op (low32 a) (low32 b)).signExtend 64) : IsWordForm result where
  congr ha hb := by rw [h, h, ha, hb]
  signExtended a b := ⟨_, h a b⟩

theorem isWordForm_addw : IsWordForm fun a b => sextN 32 (a + b) :=
  isWordForm_of_low32 (· + ·) fun a b => by rw [sextN_eq, low32_add]

theorem isWordForm_subw : IsWordForm fun a b => sextN 32 (a - b) :=
  isWordForm_of_low32 (· - ·) fun a b => by rw [sextN_eq, low32_sub]

theorem isWordForm_mulw : IsWordForm fun a b => sextN 32 (a * b) :=
  isWordForm_of_low32 (· * ·) fun a b => by rw [sextN_eq, low32_mul]

theorem isWordForm_sllw : IsWordForm fun a b => sextN 32 (a <<< shamt5 b) :=
  isWordForm_of_low32 (fun x y => x <<< (y.toNat % 32)) fun a b => by
    rw [sextN_eq, low32_shiftLeft, shamt5_eq_low32]

theorem isWordForm_srlw : IsWordForm fun a b => (low32 a >>> shamt5 b).signExtend 64 :=
  isWordForm_of_low32 (fun x y => x >>> (y.toNat % 32)) fun a b => by rw [shamt5_eq_low32]

theorem isWordForm_sraw : IsWordForm fun a b => ((low32 a).sshiftRight (shamt5 b)).signExtend 64 :=
  isWordForm_of_low32 (fun x y => x.sshiftRight (y.toNat % 32)) fun a b => by rw [shamt5_eq_low32]

/-! Division by zero, signed overflow and the ordinary quotient each give a sign-extended word. -/

theorem isWordForm_divw : IsWordForm divSignedW where
  congr ha hb := by simp only [divSignedW, viewS32_eq, ha, hb]
  signExtended a b := by
    unfold divSignedW
    split
    · exact ⟨0xFFFFFFFF#32, rfl⟩
    · split
      · exact ⟨0x80000000#32, rfl⟩
      · exact ⟨_, rfl⟩

theorem isWordForm_divuw : IsWordForm divUnsignedW where
  congr ha hb := by simp only [divUnsignedW, viewU32_eq, ha, hb]
  signExtended a b := by
    unfold divUnsignedW
    split
    · exact ⟨0xFFFFFFFF#32, rfl⟩
    · exact ⟨_, rfl⟩

theorem isWordForm_remw : IsWordForm remSignedW where
  congr ha hb := by simp only [remSignedW, viewS32_eq, sextN_eq, ha, hb]
  signExtended a b := by
    unfold remSignedW
    split
    · exact ⟨_, rfl⟩
    · split
      · exact ⟨0#32, rfl⟩
      · exact ⟨_, rfl⟩

theorem isWordForm_remuw : IsWordForm remUnsignedW where
  congr ha hb := by simp only [remUnsignedW, viewU32_eq, sextN_eq, ha, hb]
  signExtended a b := by
    unfold remUnsignedW
    split <;> exact ⟨_, rfl⟩

/-- What a completed instruction leaves in its destination: the value, or 0 in x0 (R22, R23). -/
theorem readX_written (s : State) (rd : RegIdx) (v : Word) :
    (s.writeX rd v).advance.readX rd = if rd = 0 then 0#64 else v := by
  rw [readX_eq, advance_x, writeX_x]
  split
  next h => rw [h, read_zero]
  next h => exact read_write_same _ v h

theorem Computes.ignoresUpperHalves {c : RegIdx → RegIdx → RegIdx → Instr} {result : Word → Word → Word}
    (hc : Computes c result) (hw : IsWordForm result) (rd rs1 rs2 : RegIdx) (s s' t t' : State)
    (h1 : low32 (s.readX rs1) = low32 (s'.readX rs1)) (h2 : low32 (s.readX rs2) = low32 (s'.readX rs2))
    (ht : exec (c rd rs1 rs2) s = .next t) (ht' : exec (c rd rs1 rs2) s' = .next t') :
    t.readX rd = t'.readX rd ∧ t.readX rd = (low32 (t.readX rd)).signExtend 64 := by
  cases (hc rd rs1 rs2 s).symm.trans ht
  cases (hc rd rs1 rs2 s').symm.trans ht'
  obtain ⟨r, hr⟩ := hw.signExtended (s.readX rs1) (s.readX rs2)
  rw [readX_written, readX_written, ← hw.congr h1 h2, hr]
  refine ⟨rfl, ?_⟩
  split
  · rfl
  · rw [low32_signExtend]

/-- Settles O32: each of the ten results is a word form. -/
theorem wordFormsIgnoreTheUpperHalves : Obligations.WordFormsIgnoreTheUpperHalves := by
  simp only [Obligations.WordFormsIgnoreTheUpperHalves, List.forall_mem_cons]
  exact ⟨computes_addw.ignoresUpperHalves isWordForm_addw, computes_subw.ignoresUpperHalves isWordForm_subw,
    computes_sllw.ignoresUpperHalves isWordForm_sllw, computes_srlw.ignoresUpperHalves isWordForm_srlw,
    computes_sraw.ignoresUpperHalves isWordForm_sraw, computes_mulw.ignoresUpperHalves isWordForm_mulw,
    computes_divw.ignoresUpperHalves isWordForm_divw, computes_divuw.ignoresUpperHalves isWordForm_divuw,
    computes_remw.ignoresUpperHalves isWordForm_remw, computes_remuw.ignoresUpperHalves isWordForm_remuw,
    List.forall_mem_nil _⟩

end Sys2Proof.Machine

/-! PROOFS, family 42_integer_immediate: the register-immediate instructions decode from their rows and compute
the results of their rules, and the W forms depend on the low words of their source and immediate alone. -/

namespace Sys2Proof.Machine

/-! ### The result of each register-immediate instruction (R200 to R213) -/

/-- The instructions of `c` write `result (x[rs1], imm)` to `rd` and advance the pc, from every state (R200). -/
def ComputesImm (c : RegIdx → RegIdx → Word → Instr) (result : Word → Word → Word) : Prop :=
  ∀ (rd rs1 : RegIdx) (imm : Word) (s : State),
    exec (c rd rs1 imm) s = .next (s.writeX rd (result (s.readX rs1) imm)).advance

theorem ComputesImm.congr {c : RegIdx → RegIdx → Word → Instr} {f g : Word → Word → Word} (h : ComputesImm c f)
    (heq : ∀ a imm, f a imm = g a imm) : ComputesImm c g := fun rd rs1 imm s => by
  rw [← heq, h]

theorem computesImm_addi : ComputesImm .addi fun a imm => a + imm := fun _ _ _ _ => rfl

theorem computesImm_slti : ComputesImm .slti fun a imm => if a.toInt < imm.toInt then 1#64 else 0#64 :=
  .congr (f := fun a imm => truthValue (ltSigned a imm)) (fun _ _ _ _ => rfl) fun _ _ => truthValue_decide _

theorem computesImm_sltiu : ComputesImm .sltiu fun a imm => if a.toNat < imm.toNat then 1#64 else 0#64 :=
  .congr (f := fun a imm => truthValue (ltUnsigned a imm)) (fun _ _ _ _ => rfl) fun _ _ => truthValue_decide _

theorem computesImm_xori : ComputesImm .xori fun a imm => a ^^^ imm := fun _ _ _ _ => rfl

theorem computesImm_ori : ComputesImm .ori fun a imm => a ||| imm := fun _ _ _ _ => rfl

theorem computesImm_andi : ComputesImm .andi fun a imm => a &&& imm := fun _ _ _ _ => rfl

theorem computesImm_slli : ComputesImm .slli fun a imm => a <<< shamt5 imm := fun _ _ _ _ => rfl

theorem computesImm_srli : ComputesImm .srli fun a imm => a >>> shamt5 imm := fun _ _ _ _ => rfl

theorem computesImm_srai : ComputesImm .srai fun a imm => BitVec.ofInt 64 (a.toInt >>> shamt5 imm) :=
  .congr (f := fun a imm => a.sshiftRight (shamt5 imm)) (fun _ _ _ _ => rfl) fun _ _ => BitVec.sshiftRight_eq ..

theorem computesImm_addiw : ComputesImm .addiw fun a imm => sextN 32 (a + imm) := fun _ _ _ _ => rfl

theorem computesImm_slliw : ComputesImm .slliw fun a imm => sextN 32 (a <<< shamt5 imm) := fun _ _ _ _ => rfl

theorem computesImm_srliw : ComputesImm .srliw fun a imm => (low32 a >>> shamt5 imm).signExtend 64 :=
  .congr (f := fun a imm => sextN 32 (zextN 32 a >>> shamt5 imm)) (fun _ _ _ _ => rfl) fun a imm => by
    rw [sextN_eq, low32_zextN_ushiftRight]

theorem computesImm_sraiw : ComputesImm .sraiw fun a imm => ((low32 a).sshiftRight (shamt5 imm)).signExtend 64 :=
  .congr (f := fun a imm => sextN 32 ((sextN 32 a).sshiftRight (shamt5 imm))) (fun _ _ _ _ => rfl) fun a imm => by
    rw [sextN_eq, low32_sextN_sshiftRight]

/-! ### The rows (R118, R201 to R213) -/

/-- A row of the table with an I-type format: the words of its mask compare, the upper seven bits included for
a shift (R114), decode to it with the immediate of R104, and its instructions complete with its result. -/
theorem immediateRow {k : Nat} {op : BitVec 7} {f3 : BitVec 3} {q : Option Predicate} {mask value : IWord}
    {c : RegIdx → RegIdx → Word → Instr} {result : Word → Word → Word}
    (hrow : patterns[k]? = some (.i op f3 q c)) (hmask : (Pattern.i op f3 q c).mask = mask)
    (hvalue : (Pattern.i op f3 q c).value = value) (hc : ComputesImm c result) :
    (∀ w : IWord, w &&& mask = value →
      decode w = .instruction (c (rdOf w) (rs1Of w) ((w.extractLsb' 20 12).signExtend 64))) ∧
    ∀ (rd rs1 : RegIdx) (imm : Word) (s : State), exec (c rd rs1 imm) s =
      .next { s with x := s.x.write rd (result (s.x.read rs1) imm), pc := s.pc + 4#64 } := by
  subst hmask hvalue
  exact ⟨fun _ hw => decode_of_mask (List.mem_of_getElem? hrow) hw, hc⟩

/-- Settles O18, row by row; the shift amounts are `imm[4:0]`. -/
theorem registerImmediateResults : Obligations.RegisterImmediateResults := by
  simp only [Obligations.RegisterImmediateResults, List.forall_mem_cons, ← shamt5_eq]
  exact ⟨immediateRow (k := 15) rfl rfl rfl computesImm_addi, immediateRow (k := 16) rfl rfl rfl computesImm_slti,
    immediateRow (k := 17) rfl rfl rfl computesImm_sltiu, immediateRow (k := 18) rfl rfl rfl computesImm_xori,
    immediateRow (k := 19) rfl rfl rfl computesImm_ori, immediateRow (k := 20) rfl rfl rfl computesImm_andi,
    immediateRow (k := 21) rfl rfl rfl computesImm_slli, immediateRow (k := 22) rfl rfl rfl computesImm_srli,
    immediateRow (k := 23) rfl rfl rfl computesImm_srai, List.forall_mem_nil _⟩

/-- Settles O19, row by row; the right shifts are shifts of the low word. -/
theorem registerImmediateWordResults : Obligations.RegisterImmediateWordResults := by
  simp only [Obligations.RegisterImmediateWordResults, List.forall_mem_cons, ← shamt5_eq, ← low32_eq_setWidth,
    ← sextN_eq]
  exact ⟨immediateRow (k := 24) rfl rfl rfl computesImm_addiw, immediateRow (k := 25) rfl rfl rfl computesImm_slliw,
    immediateRow (k := 26) rfl rfl rfl computesImm_srliw, immediateRow (k := 27) rfl rfl rfl computesImm_sraiw,
    List.forall_mem_nil _⟩

/-! ### The W forms and the low words (R200) -/

/-- The value a word form leaves in its destination, 0 in x0 included, is a sign-extended word. -/
theorem IsWordForm.readX_written_signExtended {result : Word → Word → Word} (hw : IsWordForm result) (s : State)
    (rd : RegIdx) (a b : Word) :
    (s.writeX rd (result a b)).advance.readX rd =
      (low32 ((s.writeX rd (result a b)).advance.readX rd)).signExtend 64 := by
  obtain ⟨r, hr⟩ := hw.signExtended a b
  rw [readX_written, hr]
  split
  · rfl
  · rw [low32_signExtend]

theorem ComputesImm.ignoresUpperHalf {c : RegIdx → RegIdx → Word → Instr} {result : Word → Word → Word}
    (hc : ComputesImm c result) (hw : IsWordForm result) (rd rs1 : RegIdx) (imm imm' : Word) (s s' t t' : State)
    (hsource : low32 (s.readX rs1) = low32 (s'.readX rs1)) (himm : low32 imm = low32 imm')
    (ht : exec (c rd rs1 imm) s = .next t) (ht' : exec (c rd rs1 imm') s' = .next t') :
    t.readX rd = t'.readX rd ∧ t.readX rd = (low32 (t.readX rd)).signExtend 64 := by
  cases (hc rd rs1 imm s).symm.trans ht
  cases (hc rd rs1 imm' s').symm.trans ht'
  refine ⟨?_, hw.readX_written_signExtended ..⟩
  rw [readX_written, readX_written, hw.congr hsource himm]

/-- Settles O59: the four results are those of the register-register W forms, with the immediate for `x[rs2]`. -/
theorem wordImmediateFormsIgnoreTheUpperHalf : Obligations.WordImmediateFormsIgnoreTheUpperHalf := by
  simp only [Obligations.WordImmediateFormsIgnoreTheUpperHalf, List.forall_mem_cons]
  exact ⟨computesImm_addiw.ignoresUpperHalf isWordForm_addw, computesImm_slliw.ignoresUpperHalf isWordForm_sllw,
    computesImm_srliw.ignoresUpperHalf isWordForm_srlw, computesImm_sraiw.ignoresUpperHalf isWordForm_sraw,
    List.forall_mem_nil _⟩

end Sys2Proof.Machine

/-! PROOFS, family 43_loads_stores: the loads and stores decode from their rows; inside the window of the access
they complete with its bytes, outside they trap. -/

namespace Sys2Proof.Machine

/-! ### Loads (R240 to R247) -/

/-- The instructions of `c` load `n` bytes at `x[rs1] + imm` and write them to `rd`, extended by `ext` (R240). -/
def Loads (c : RegIdx → RegIdx → Word → Instr) (n : AccessSize) (ext : Word → Word) : Prop :=
  ∀ (rd rs1 : RegIdx) (imm : Word) (s : State), exec (c rd rs1 imm) s = loadInto n ext rd rs1 imm s

section
variable {s : State} {n : AccessSize} {rs1 : RegIdx} {imm : Word} (hmode : s.mode = .machine)
  (hp : s.params.valid = true)
include hmode hp

theorem loadInto_of_legalWindow (ext : Word → Word) (rd : RegIdx)
    (h : LegalWindow s (s.effectiveAddress (addressOf (s.readX rs1) imm)).toNat (sizeBytes n)) :
    loadInto n ext rd rs1 imm s = writeRd rd (ext (BitVec.ofNat 64 (littleEndian s.mem
      (s.effectiveAddress (addressOf (s.readX rs1) imm)).toNat (sizeBytes n)))) s := by
  rw [loadInto, memRead_ok hmode hp h, andThen]

theorem loadInto_of_not_legalWindow (ext : Word → Word) (rd : RegIdx)
    (h : ¬ LegalWindow s (s.effectiveAddress (addressOf (s.readX rs1) imm)).toNat (sizeBytes n)) :
    loadInto n ext rd rs1 imm s = .fault (.trapped .loadAccessFault s) := by
  rw [loadInto, memRead_err hmode hp h, andThen, takeTrap]

end

/-- A row of the table that loads: the words of its mask compare decode to it with the immediate of R104, and its
instructions load inside the window and trap outside. -/
theorem loadRow {k : Nat} {op : BitVec 7} {f3 : BitVec 3} {value : IWord} {c : RegIdx → RegIdx → Word → Instr}
    {n : AccessSize} {ext : Word → Word} (hrow : patterns[k]? = some (.i op f3 none c))
    (hvalue : (Pattern.i op f3 none c).value = value) (hc : Loads c n ext) :
    (∀ w : IWord, w &&& 0x0000707F#32 = value →
      decode w = .instruction (c (rdOf w) (rs1Of w) ((w.extractLsb' 20 12).signExtend 64))) ∧
    ∀ (rd rs1 : RegIdx) (imm : Word) (s : State), s.mode = .machine → s.params.valid = true →
      (LegalWindow s (s.effectiveAddress (s.x.read rs1 + imm)).toNat (sizeBytes n) →
        exec (c rd rs1 imm) s = .next { s with
          x := s.x.write rd (ext (BitVec.ofNat 64
            (littleEndian s.mem (s.effectiveAddress (s.x.read rs1 + imm)).toNat (sizeBytes n)))),
          pc := s.pc + 4#64 }) ∧
      (¬ LegalWindow s (s.effectiveAddress (s.x.read rs1 + imm)).toNat (sizeBytes n) →
        exec (c rd rs1 imm) s = .fault (.trapped .loadAccessFault s)) := by
  refine ⟨fun w hw => decode_of_mask (List.mem_of_getElem? hrow) (hw.trans hvalue.symm),
    fun rd rs1 imm s hmode hp => ?_⟩
  rw [hc]
  exact ⟨loadInto_of_legalWindow hmode hp ext rd, loadInto_of_not_legalWindow hmode hp ext rd⟩

/-- Settles O20, row by row. -/
theorem loadResults : Obligations.LoadResults := by
  simp only [Obligations.LoadResults, List.forall_mem_cons]
  exact ⟨loadRow (k := 28) (n := .byte) (ext := sextN 8) rfl rfl fun _ _ _ _ => rfl,
    loadRow (k := 29) (n := .halfWord) (ext := sextN 16) rfl rfl fun _ _ _ _ => rfl,
    loadRow (k := 30) (n := .word) (ext := sextN 32) rfl rfl fun _ _ _ _ => rfl,
    loadRow (k := 31) (n := .doubleWord) (ext := id) rfl rfl fun _ _ _ _ => rfl,
    loadRow (k := 32) (n := .byte) (ext := zextN 8) rfl rfl fun _ _ _ _ => rfl,
    loadRow (k := 33) (n := .halfWord) (ext := zextN 16) rfl rfl fun _ _ _ _ => rfl,
    loadRow (k := 34) (n := .word) (ext := zextN 32) rfl rfl fun _ _ _ _ => rfl, List.forall_mem_nil _⟩

/-! ### Stores (R240, R248 to R251) -/

/-- The instructions of `c` store the low `n` bytes of `x[rs2]` at `x[rs1] + imm` (R240). -/
def Stores (c : RegIdx → RegIdx → Word → Instr) (n : AccessSize) : Prop :=
  ∀ (rs1 rs2 : RegIdx) (imm : Word) (s : State), exec (c rs1 rs2 imm) s = storeFrom n rs1 rs2 imm s

section
variable {s : State} {n : AccessSize} {rs1 : RegIdx} {imm : Word} (hmode : s.mode = .machine)
  (hp : s.params.valid = true)
include hmode hp

theorem storeFrom_of_dramWindow (rs2 : RegIdx)
    (h : DramWindow s (s.effectiveAddress (addressOf (s.readX rs1) imm)).toNat (sizeBytes n)) :
    storeFrom n rs1 rs2 imm s = .next { s with
      mem := s.mem.writeBytes (s.effectiveAddress (addressOf (s.readX rs1) imm)).toNat
        (disassemble (s.readX rs2) (sizeBytes n)),
      pc := s.pc + 4#64 } := by
  rw [storeFrom, memWrite_ok hmode hp h, andThen, State.advance]

theorem storeFrom_of_not_dramWindow (rs2 : RegIdx)
    (h : ¬ DramWindow s (s.effectiveAddress (addressOf (s.readX rs1) imm)).toNat (sizeBytes n)) :
    storeFrom n rs1 rs2 imm s = .fault (.trapped .storeAccessFault s) := by
  rw [storeFrom, memWrite_err hmode hp h, andThen, takeTrap]

end

/-- A row of the table that stores: the words of its mask compare decode to it with the immediate of R105, and its
instructions store inside DRAM's window and trap outside. The memory stored to keeps its canonical form
(log entry 3). -/
theorem storeRow {k : Nat} {op : BitVec 7} {f3 : BitVec 3} {value : IWord} {c : RegIdx → RegIdx → Word → Instr}
    {n : AccessSize} (hrow : patterns[k]? = some (.s op f3 c)) (hvalue : (Pattern.s op f3 c).value = value)
    (hc : Stores c n) :
    (∀ w : IWord, w &&& 0x0000707F#32 = value →
      decode w = .instruction (c (rs1Of w) (rs2Of w)
        ((w.extractLsb' 25 7 ++ w.extractLsb' 7 5 : BitVec 12).signExtend 64))) ∧
    ∀ (rs1 rs2 : RegIdx) (imm : Word) (s : State),
      s.mode = .machine → s.params.valid = true → s.mem.wf = true →
      (DramWindow s (s.effectiveAddress (s.x.read rs1 + imm)).toNat (sizeBytes n) →
        ∃ m : Memory, exec (c rs1 rs2 imm) s = .next { s with mem := m, pc := s.pc + 4#64 } ∧ m.wf = true ∧
          ∀ a : Nat, m.readByte a =
            if (s.effectiveAddress (s.x.read rs1 + imm)).toNat ≤ a ∧
                a < (s.effectiveAddress (s.x.read rs1 + imm)).toNat + sizeBytes n
            then (s.x.read rs2).extractLsb' (8 * (a - (s.effectiveAddress (s.x.read rs1 + imm)).toNat)) 8
            else s.mem.readByte a) ∧
      (¬ DramWindow s (s.effectiveAddress (s.x.read rs1 + imm)).toNat (sizeBytes n) →
        exec (c rs1 rs2 imm) s = .fault (.trapped .storeAccessFault s)) := by
  refine ⟨fun w hw => decode_of_mask (List.mem_of_getElem? hrow) (hw.trans hvalue.symm),
    fun rs1 rs2 imm s hmode hp hw => ?_⟩
  rw [hc]
  refine ⟨fun h => ⟨_, storeFrom_of_dramWindow hmode hp rs2 h, wf_writeBytes _ _ hw, ?_⟩,
    storeFrom_of_not_dramWindow hmode hp rs2⟩
  exact (stored_of_memWrite (memWrite_ok hmode hp h)).readByte_eq hw

/-- Settles O21, row by row. -/
theorem storeResults : Obligations.StoreResults := by
  simp only [Obligations.StoreResults, List.forall_mem_cons]
  exact ⟨storeRow (k := 35) (n := .byte) rfl rfl fun _ _ _ _ => rfl,
    storeRow (k := 36) (n := .halfWord) rfl rfl fun _ _ _ _ => rfl,
    storeRow (k := 37) (n := .word) rfl rfl fun _ _ _ _ => rfl,
    storeRow (k := 38) (n := .doubleWord) rfl rfl fun _ _ _ _ => rfl, List.forall_mem_nil _⟩

end Sys2Proof.Machine

/-! PROOFS, family 44_control_transfer: the branches and jumps decode from their rows; a taken one goes to its
target, or traps when the target is misaligned and checked. -/

namespace Sys2Proof.Machine

/-! ### Branches (R271 to R276) -/

/-- The instructions of `c` are conditional branches, taken when `cond (x[rs1], x[rs2])` holds. -/
def BranchesWhen (c : RegIdx → RegIdx → Word → Instr) (cond : Word → Word → Bool) : Prop :=
  ∀ (rs1 rs2 : RegIdx) (imm : Word) (s : State),
    exec (c rs1 rs2 imm) s = branchIf (cond (s.readX rs1) (s.readX rs2)) imm s

theorem branchesWhen_beq : BranchesWhen .beq fun a b => decide (a = b) := fun _ _ _ _ => rfl

theorem branchesWhen_bne : BranchesWhen .bne fun a b => decide (a ≠ b) := fun _ _ _ _ => rfl

theorem branchesWhen_blt : BranchesWhen .blt fun a b => decide (a.toInt < b.toInt) := fun _ _ _ _ => rfl

theorem branchesWhen_bltu : BranchesWhen .bltu fun a b => decide (a.toNat < b.toNat) := fun _ _ _ _ => rfl

theorem not_ltSigned (a b : Word) : (!ltSigned a b) = decide (b.toInt ≤ a.toInt) := by
  rw [ltSigned, ← decide_not, decide_eq_decide, Int.not_lt]

theorem not_ltUnsigned (a b : Word) : (!ltUnsigned a b) = decide (b.toNat ≤ a.toNat) := by
  rw [ltUnsigned, ← decide_not, decide_eq_decide, Nat.not_lt]

theorem branchesWhen_bge : BranchesWhen .bge fun a b => decide (b.toInt ≤ a.toInt) := fun _ _ imm s =>
  congrArg (branchIf · imm s) (not_ltSigned _ _)

theorem branchesWhen_bgeu : BranchesWhen .bgeu fun a b => decide (b.toNat ≤ a.toNat) := fun _ _ imm s =>
  congrArg (branchIf · imm s) (not_ltUnsigned _ _)

theorem branchIf_false (imm : Word) (s : State) : branchIf false imm s = .next s.advance := rfl

theorem branchIf_true (imm : Word) (s : State) : branchIf true imm s = transferTo (s.pc + imm) s s := rfl

/-- A row of the table that branches: the words of its mask compare decode to it with the immediate of R106, and
its instructions check their target only when their condition holds (R270). -/
theorem branchRow {k : Nat} {op : BitVec 7} {f3 : BitVec 3} {value : IWord} {c : RegIdx → RegIdx → Word → Instr}
    {cond : Word → Word → Bool} (hrow : patterns[k]? = some (.b op f3 c))
    (hvalue : (Pattern.b op f3 c).value = value) (hc : BranchesWhen c cond) :
    (∀ w : IWord, w &&& 0x0000707F#32 = value →
      decode w = .instruction (c (rs1Of w) (rs2Of w)
        ((w.extractLsb' 31 1 ++ w.extractLsb' 7 1 ++ w.extractLsb' 25 6 ++ w.extractLsb' 8 4 ++ 0#1 :
          BitVec 13).signExtend 64))) ∧
    ∀ (rs1 rs2 : RegIdx) (imm : Word) (s : State),
      (cond (s.x.read rs1) (s.x.read rs2) = false →
        exec (c rs1 rs2 imm) s = .next { s with pc := s.pc + 4#64 }) ∧
      (cond (s.x.read rs1) (s.x.read rs2) = true →
        (s.params.checkTargetAlign = false ∨ (s.pc + imm).toNat % 4 = 0) →
        exec (c rs1 rs2 imm) s = .next { s with pc := s.pc + imm }) ∧
      (cond (s.x.read rs1) (s.x.read rs2) = true →
        s.params.checkTargetAlign = true → (s.pc + imm).toNat % 4 ≠ 0 →
        exec (c rs1 rs2 imm) s = .fault (.trapped .instructionAddressMisaligned s)) := by
  refine ⟨fun w hw => decode_of_mask (List.mem_of_getElem? hrow) (hw.trans hvalue.symm), fun rs1 rs2 imm s => ?_⟩
  rw [hc, readX_eq, readX_eq]
  refine ⟨fun hf => ?_, fun ht halign => ?_, fun ht hcheck hmis => ?_⟩
  · rw [hf, branchIf_false, State.advance]
  · rw [ht, branchIf_true, transferTo_ok halign]
  · rw [ht, branchIf_true, transferTo_trap hcheck hmis]

/-- Settles O22, row by row. -/
theorem branchResults : Obligations.BranchResults := by
  simp only [Obligations.BranchResults, List.forall_mem_cons]
  exact ⟨branchRow (k := 39) rfl rfl branchesWhen_beq, branchRow (k := 40) rfl rfl branchesWhen_bne,
    branchRow (k := 41) rfl rfl branchesWhen_blt, branchRow (k := 42) rfl rfl branchesWhen_bge,
    branchRow (k := 43) rfl rfl branchesWhen_bltu, branchRow (k := 44) rfl rfl branchesWhen_bgeu,
    List.forall_mem_nil _⟩

/-! ### Jumps (R277, R278) -/

theorem exec_jal (rd : RegIdx) (imm : Word) (s : State) :
    exec (.jal rd imm) s = transferTo (s.pc + imm) (s.writeX rd (s.pc + 4#64)) s := rfl

theorem exec_jalr (rd rs1 : RegIdx) (imm : Word) (s : State) :
    exec (.jalr rd rs1 imm) s =
      transferTo (indirectTarget (s.readX rs1) imm) (s.writeX rd (s.pc + 4#64)) s := rfl

/-- Clearing bit 0 rounds down to an even number: it shifts that bit out and shifts a 0 in. -/
theorem indirectTarget_eq (base imm : Word) :
    indirectTarget base imm = BitVec.ofNat 64 (2 * ((base + imm).toNat / 2)) := by
  have hmask : ~~~1#64 = BitVec.allOnes 64 <<< 1 := by decide
  rw [indirectTarget, hmask, ← BitVec.shiftLeft_ushiftRight]
  apply BitVec.eq_of_toNat_eq
  rw [BitVec.toNat_shiftLeft, BitVec.toNat_ushiftRight, BitVec.toNat_ofNat, Nat.shiftLeft_eq,
    Nat.shiftRight_eq_div_pow, pow_one, Nat.mul_comm]

/-- The two outcomes of a jump, by the check of its target (R270): it links and jumps, or it traps with nothing
written. -/
theorem transferTo_linked (rd : RegIdx) (target : Word) (s : State) :
    ((s.params.checkTargetAlign = false ∨ target.toNat % 4 = 0) →
      transferTo target (s.writeX rd (s.pc + 4#64)) s =
        .next { s with x := s.x.write rd (s.pc + 4#64), pc := target }) ∧
    (s.params.checkTargetAlign = true → target.toNat % 4 ≠ 0 →
      transferTo target (s.writeX rd (s.pc + 4#64)) s = .fault (.trapped .instructionAddressMisaligned s)) :=
  ⟨transferTo_ok, transferTo_trap⟩

/-- Settles O23: both jumps link and transfer alike, each to its own target. -/
theorem jumpResults : Obligations.JumpResults := by
  refine ⟨fun w hw => ?_, fun w hw => ?_, fun rd imm s => ?_, fun rd rs1 imm t s ht => ?_⟩
  · exact decode_of_mask (List.mem_of_getElem? (i := 45) rfl) hw
  · exact decode_of_mask (List.mem_of_getElem? (i := 46) rfl) hw
  · rw [exec_jal]
    exact transferTo_linked rd (s.pc + imm) s
  · rw [exec_jalr, readX_eq, indirectTarget_eq, ← ht]
    exact transferTo_linked rd t s

end Sys2Proof.Machine

/-! PROOFS, family 45_upper_immediate: LUI and AUIPC decode from the opcode alone and complete with the upper
immediate, which AUIPC adds to its own pc. -/

namespace Sys2Proof.Machine

/-- The upper immediate as a 64-bit word is determined by its signed value (R290). -/
theorem upperValue_eq (imm : BitVec 20) : upperValue imm = BitVec.ofInt 64 (4096 * imm.toInt) := by
  rw [← toInt_upperValue, BitVec.ofInt_toInt]

theorem exec_lui (rd : RegIdx) (imm : BitVec 20) (s : State) :
    exec (.lui rd imm) s = .next (s.writeX rd (upperValue imm)).advance := rfl

/-- Settles O24: each row compares the opcode alone, and both instructions write the upper immediate, read as an
integer, LUI as it is and AUIPC added to the pc. -/
theorem upperImmediateResults : Obligations.UpperImmediateResults := by
  refine ⟨fun w hw => ?_, fun w hw => ?_, fun rd imm s => ?_⟩
  · exact decode_of_mask (List.mem_of_getElem? (i := 47) rfl) hw
  · exact decode_of_mask (List.mem_of_getElem? (i := 48) rfl) hw
  · rw [exec_lui, exec_auipc, upperValue_eq]
    exact ⟨rfl, rfl⟩

end Sys2Proof.Machine

/-! PROOFS, family 46_system: ECALL and EBREAK decode from their rows, and with the words that no row matches they
stop the machine, each with its trap, in the state it started with. -/

namespace Sys2Proof.Machine

/-! ### ECALL and EBREAK (R301, R302) -/

/-- The words of the mask compare of a row that fixes the immediate decode to it with that immediate; rd and rs1 are
not compared (R113, R115). -/
theorem decode_of_mask_equals {op : BitVec 7} {f3 : BitVec 3} {v12 : BitVec 12}
    {c : RegIdx → RegIdx → Word → Instr} {w : IWord} (hp : .i op f3 (some (.equals v12)) c ∈ patterns)
    (hsmall : v12.toNat < 2048) (hw : w &&& 0xFFF0707F#32 = (Pattern.i op f3 (some (.equals v12)) c).value) :
    decode w = .instruction (c (rdOf w) (rs1Of w) (v12.setWidth 64)) := by
  obtain ⟨hop, hf3, hv⟩ := (isMatch_equals_iff hsmall).1 ((isMatch_iff_mask_of_mem hp w).2 hw)
  exact decode_of_equals hp hsmall hop hf3 hv

theorem exec_ecall (rd rs1 : RegIdx) (imm : Word) (s : State) :
    exec (.ecall rd rs1 imm) s = .fault (.trapped .environmentCallFromMMode s) := rfl

theorem exec_ebreak (rd rs1 : RegIdx) (imm : Word) (s : State) :
    exec (.ebreak rd rs1 imm) s = .fault (.trapped .breakpoint s) := rfl

/-- Settles O25: each row's mask compare fixes the immediate, and the instruction reads neither field nor state. -/
theorem ecallAndEbreakStopTheMachine : Obligations.EcallAndEbreakStopTheMachine := by
  refine ⟨fun w hw => ?_, fun w hw => ?_, fun rd rs1 imm s => ⟨exec_ecall rd rs1 imm s, exec_ebreak rd rs1 imm s⟩⟩
  · exact decode_of_mask_equals (List.mem_of_getElem? (i := 49) rfl) (by decide) hw
  · exact decode_of_mask_equals (List.mem_of_getElem? (i := 50) rfl) (by decide) hw

/-! ### UNDEF (R303) -/

theorem decode_eq_undef_iff {w : IWord} : decode w = .undef ↔ ∀ p ∈ patterns, p.isMatch w = false :=
  decodeWith_eq_undef_iff

/-- Bit 25 is the lowest of the seven bits that tell the shift immediates apart (R114). -/
theorem upperSeven_bit0 (w : IWord) : (w.extractLsb' 25 7).extractLsb' 0 1 = w.extractLsb' 25 1 := by
  ext i hi
  simp [show i = 0 by omega]

/-- A 64-bit shift immediate by 32 to 63 is UNDEF: the literals of its rows have bit 25 clear. -/
theorem decode_shiftImmediate_of_bit25 {w : IWord} (hop : opcodeOf w = 0b0010011#7)
    (hf3 : funct3Of w = 0b001#3 ∨ funct3Of w = 0b101#3) (hbit : w.extractLsb' 25 1 = 1#1) : decode w = .undef := by
  obtain ⟨hleft, hright, -, -⟩ := shiftImmediatesAreToldApartBySevenBits w
  have hne {v : BitVec 7} (hv : v.extractLsb' 0 1 ≠ 1#1) : w.extractLsb' 25 7 ≠ v := fun h =>
    hv (by rw [← h, upperSeven_bit0, hbit])
  rcases hf3 with hf3 | hf3
  · rw [hleft hop hf3, if_neg (hne (by decide))]
  · rw [hright hop hf3, if_neg (hne (by decide)), if_neg (hne (by decide))]

/-- R303's corner cases (zero, all ones, FENCE, CSRRW and slli by 32) are UNDEF: the scan, computed on each word. -/
theorem decode_cornerWords :
    ∀ w ∈ [0x00000000#32, 0xFFFFFFFF#32, 0x0FF0000F#32, 0x30001073#32, 0x02009093#32], decode w = .undef := by
  simp only [List.forall_mem_cons]
  exact ⟨rfl, rfl, rfl, rfl, rfl, List.forall_mem_nil _⟩

/-- Settles O26: no row matches exactly when the word is UNDEF, and the step raises IllegalInstruction on UNDEF. -/
theorem undefinedWordStopsTheMachine : Obligations.UndefinedWordStopsTheMachine :=
  ⟨fun _ => decode_eq_undef_iff.2, fun _ _ hf hx hno => step_of_undef hf hx (decode_eq_undef_iff.2 hno),
    fun w hw => decode_eq_undef_iff.1 (decode_cornerWords w hw),
    fun w hlow => decode_eq_undef_iff.1 (lowBitsNotElevenAreUndefined.1 w hlow),
    fun _ hop hf3 hbit => decode_eq_undef_iff.1 (decode_shiftImmediate_of_bit25 hop hf3 hbit)⟩

end Sys2Proof.Machine

/-! PROOFS, family 47_multiply_divide: the multiplies and divisions decode from their rows and complete, also by zero
and on overflow; the halves make the exact product; and quotient and remainder obey the division law. -/

namespace Sys2Proof.Machine

/-! ### The exact product and its high half (R311 to R314) -/

theorem highHalf_eq (p : Int) : highHalf p = BitVec.ofInt 64 (p / 18446744073709551616) := by
  rw [highHalf, Int.shiftRight_eq_div_pow]
  rfl

/-- The high half of a natural product needs no sign. -/
theorem highHalf_natCast (p : Nat) : highHalf p = BitVec.ofNat 64 (p / 18446744073709551616) := by
  rw [highHalf_eq, ← BitVec.ofInt_natCast, Int.natCast_ediv]
  rfl

theorem computes_mul : Computes .mul fun a b => a * b := fun _ _ _ _ => rfl

theorem computes_mulh : Computes .mulh fun a b => highHalf (a.toInt * b.toInt) := fun _ _ _ _ => rfl

theorem computes_mulhsu : Computes .mulhsu fun a b => highHalf (a.toInt * (b.toNat : Int)) := fun _ _ _ _ => rfl

theorem computes_mulhu : Computes .mulhu fun a b => highHalf ((a.toNat * b.toNat : Nat) : Int) := fun _ _ _ _ => rfl

/-- Settles O27, row by row. -/
theorem multiplyResults : Obligations.MultiplyResults := by
  simp only [Obligations.MultiplyResults, List.forall_mem_cons, ← low32_eq_setWidth, ← sextN_eq]
  exact ⟨registerRow (k := 51) rfl rfl (computes_mul.congr fun _ _ => BitVec.mul_def),
    registerRow (k := 52) rfl rfl (computes_mulh.congr fun _ _ => highHalf_eq _),
    registerRow (k := 53) rfl rfl (computes_mulhsu.congr fun _ _ => highHalf_eq _),
    registerRow (k := 54) rfl rfl (computes_mulhu.congr fun _ _ => highHalf_natCast _),
    registerRow (k := 59) rfl rfl computes_mulw, List.forall_mem_nil _⟩

/-- The halves of an integer of 128 bits: its high half, read signed, and its residue modulo 2^64. -/
theorem toInt_highHalf_add_toNat {p : Int} (hlo : -2 ^ 127 ≤ p) (hhi : p < 2 ^ 127) :
    (highHalf p).toInt * 18446744073709551616 + ((BitVec.ofInt 64 p).toNat : Int) = p := by
  have hhigh : (highHalf p).toInt = p / 18446744073709551616 := by
    rw [highHalf_eq, BitVec.toInt_ofInt_eq_self (by decide)] <;> omega
  have hlow : ((BitVec.ofInt 64 p).toNat : Int) = p % 18446744073709551616 := by
    rw [BitVec.toNat_ofInt]
    omega
  omega

/-- A signed factor and a factor of either reading: the product has 128 bits, signed. -/
theorem signedProduct_bounds (a : Word) {y : Int} (hlo : -2 ^ 63 ≤ y) (hhi : y < 2 ^ 64) :
    -2 ^ 127 ≤ a.toInt * y ∧ a.toInt * y < 2 ^ 127 := by
  have ha := a.le_toInt
  have ha' := a.toInt_lt
  have h : (a.toInt * y).natAbs ≤ 2 ^ 63 * (2 ^ 64 - 1) := by
    rw [Int.natAbs_mul]
    exact Nat.mul_le_mul (by omega) (by omega)
  omega

theorem mul_eq_ofInt_toInt (a b : Word) : a * b = BitVec.ofInt 64 (a.toInt * b.toInt) := by
  rw [BitVec.ofInt_mul, BitVec.ofInt_toInt, BitVec.ofInt_toInt]

theorem mul_eq_ofInt_toNat (a b : Word) : a * b = BitVec.ofInt 64 (a.toInt * (b.toNat : Int)) := by
  rw [BitVec.ofInt_mul, BitVec.ofInt_toInt, BitVec.ofInt_natCast, BitVec.ofNat_toNat, BitVec.setWidth_eq]

theorem mulh_mul_exact (a b : Word) :
    (highHalf (a.toInt * b.toInt)).toInt * 18446744073709551616 + ((a * b).toNat : Int) = a.toInt * b.toInt := by
  have hb := b.le_toInt
  have hb' := b.toInt_lt
  obtain ⟨hlo, hhi⟩ := signedProduct_bounds a (y := b.toInt) (by omega) (by omega)
  rw [mul_eq_ofInt_toInt, toInt_highHalf_add_toNat hlo hhi]

theorem mulhsu_mul_exact (a b : Word) :
    (highHalf (a.toInt * (b.toNat : Int))).toInt * 18446744073709551616 + ((a * b).toNat : Int) =
      a.toInt * (b.toNat : Int) := by
  obtain ⟨hlo, hhi⟩ := signedProduct_bounds a (y := (b.toNat : Int)) (by omega) (by omega)
  rw [mul_eq_ofInt_toNat, toInt_highHalf_add_toNat hlo hhi]

theorem mulhu_mul_exact (a b : Word) :
    (highHalf ((a.toNat * b.toNat : Nat) : Int)).toNat * 18446744073709551616 + (a * b).toNat = a.toNat * b.toNat := by
  have hlt : a.toNat * b.toNat < 2 ^ 128 := BitVec.toNat_mul_toNat_lt
  rw [highHalf_natCast, BitVec.toNat_ofNat, BitVec.toNat_mul]
  omega

/-- What an instruction that completes leaves in its destination, other than x0. -/
theorem Computes.readX_dest {c : RegIdx → RegIdx → RegIdx → Instr} {result : Word → Word → Word}
    (hc : Computes c result) {rd rs1 rs2 : RegIdx} {s t : State} (hrd : rd ≠ 0)
    (ht : exec (c rd rs1 rs2) s = .next t) : t.readX rd = result (s.readX rs1) (s.readX rs2) := by
  cases (hc rd rs1 rs2 s).symm.trans ht
  rw [readX_written, if_neg hrd]

/-- Settles O31: each high half and the product modulo 2^64 are the halves of one integer. -/
theorem highAndLowHalvesMakeTheExactProduct : Obligations.HighAndLowHalvesMakeTheExactProduct := by
  intro rd rs1 rs2 s lo hs hsu hu hrd hlo hhs hhsu hhu
  rw [computes_mul.readX_dest hrd hlo, computes_mulh.readX_dest hrd hhs, computes_mulhsu.readX_dest hrd hhsu,
    computes_mulhu.readX_dest hrd hhu]
  exact ⟨mulh_mul_exact _ _, mulhsu_mul_exact _ _, mulhu_mul_exact _ _⟩

/-! ### Integer division modulo 2^w -/

section
variable {w : Nat} (x y : BitVec w)

theorem ofInt_tdiv_toInt : BitVec.ofInt w (x.toInt.tdiv y.toInt) = x.sdiv y :=
  BitVec.eq_of_toInt_eq (by rw [BitVec.toInt_ofInt, BitVec.toInt_sdiv])

theorem ofInt_tmod_toInt : BitVec.ofInt w (x.toInt.tmod y.toInt) = x.srem y := by
  rw [← BitVec.toInt_srem, BitVec.ofInt_toInt]

theorem ofInt_tdiv_toNat : BitVec.ofInt w ((x.toNat : Int).tdiv y.toNat) = x / y := by
  rw [← Int.ofNat_tdiv, BitVec.ofInt_natCast, BitVec.udiv_def]

theorem ofInt_tmod_toNat : BitVec.ofInt w ((x.toNat : Int).tmod y.toNat) = x % y := by
  rw [← Int.ofNat_tmod, BitVec.ofInt_natCast, BitVec.umod_def]

/-- The law of integer division, modulo 2^w; by zero both sides are the dividend. -/
theorem mul_sdiv_add_srem : y * x.sdiv y + x.srem y = x := by
  have h := congrArg (BitVec.ofInt w) (Int.mul_tdiv_add_tmod x.toInt y.toInt)
  rwa [BitVec.ofInt_add, BitVec.ofInt_mul, ofInt_tdiv_toInt, ofInt_tmod_toInt, BitVec.ofInt_toInt,
    BitVec.ofInt_toInt] at h

theorem mul_udiv_add_umod : y * (x / y) + x % y = x :=
  BitVec.eq_of_toNat_eq (by
    rw [BitVec.toNat_add, BitVec.toNat_mul, BitVec.toNat_udiv, BitVec.toNat_umod, Nat.mod_add_mod, Nat.div_add_mod,
      Nat.mod_eq_of_lt x.isLt])

end

theorem remInt_eq_tmod (a b : Int) : remInt a b = a.tmod b := (Int.tmod_def a b).symm

/-! ### The quotient of each reading, by zero and on overflow included (R315 to R323)

The remainders are the library's `srem` and `%`, which give the dividend by zero; the library's quotients give 0
there. -/

/-- The signed quotient of R315 and R320, rounded toward zero; all ones by zero. -/
def quotS {w : Nat} (x y : BitVec w) : BitVec w := if y = 0#w then BitVec.allOnes w else x.sdiv y

/-- The unsigned quotient of R316 and R321; all ones by zero. -/
def quotU {w : Nat} (x y : BitVec w) : BitVec w := if y = 0#w then BitVec.allOnes w else x / y

section
variable {w : Nat} {x y : BitVec w}

/-- On overflow the quotient wraps around to the dividend, which leaves nothing. -/
theorem intMin_srem_neg_one : (BitVec.intMin w).srem (-1#w) = 0#w := by
  have h := mul_sdiv_add_srem (BitVec.intMin w) (-1#w)
  rwa [BitVec.intMin_sdiv_neg_one, ← BitVec.neg_eq_neg_one_mul, BitVec.neg_intMin, add_eq_left] at h

theorem quotS_eq (x y : BitVec w) : quotS x y =
    if y = 0#w then BitVec.allOnes w
    else if x = BitVec.intMin w ∧ y = -1#w then BitVec.intMin w
    else BitVec.ofInt w (x.toInt.tdiv y.toInt) := by
  rw [quotS, ofInt_tdiv_toInt]
  split
  · rfl
  · split
    next h => rw [h.1, h.2, BitVec.intMin_sdiv_neg_one]
    next => rfl

theorem srem_eq_ite (x y : BitVec w) : x.srem y =
    if y = 0#w then x
    else if x = BitVec.intMin w ∧ y = -1#w then 0#w
    else BitVec.ofInt w (x.toInt.tmod y.toInt) := by
  rw [ofInt_tmod_toInt]
  split
  next h => rw [h, BitVec.srem_zero]
  next =>
    split
    next h => rw [h.1, h.2, intMin_srem_neg_one]
    next => rfl

/-- The library's unsigned remainder already gives the dividend by zero. -/
theorem umod_eq_ite (x y : BitVec w) : x % y = if y = 0#w then x else x % y := by
  split
  next h => rw [h, BitVec.umod_zero]
  next => rfl

end

theorem remSigned_eq_ite (a b : Word) : remSigned a b =
    if b = 0#64 then a
    else if a = minSigned ∧ b = allOnes then 0#64
    else BitVec.ofInt 64 (a.toInt.tmod b.toInt) := by
  rw [← remInt_eq_tmod]
  rfl

theorem remUnsigned_eq_ite (a b : Word) : remUnsigned a b = if b = 0#64 then a else a % b := by
  rw [← ofInt_tmod_toNat, ← remInt_eq_tmod]
  rfl

theorem divSigned_eq (a b : Word) : divSigned a b = quotS a b := (quotS_eq a b).symm

theorem divUnsigned_eq (a b : Word) : divUnsigned a b = quotU a b := by
  rw [quotU, ← ofInt_tdiv_toNat]
  rfl

theorem remSigned_eq (a b : Word) : remSigned a b = a.srem b := (remSigned_eq_ite a b).trans (srem_eq_ite a b).symm

theorem remUnsigned_eq (a b : Word) : remUnsigned a b = a % b :=
  (remUnsigned_eq_ite a b).trans (umod_eq_ite a b).symm

theorem viewS32_eq_toInt_iff (v : Word) (c : BitVec 32) : viewS32 v = c.toInt ↔ low32 v = c := by
  rw [viewS32_eq, BitVec.toInt_inj]

theorem viewS32_eq_zero_iff (v : Word) : viewS32 v = 0 ↔ low32 v = 0#32 := viewS32_eq_toInt_iff v 0#32

theorem viewS32_overflow_iff (a b : Word) :
    (viewS32 a = -2147483648 ∧ viewS32 b = -1) ↔ (low32 a = BitVec.intMin 32 ∧ low32 b = -1#32) :=
  and_congr (viewS32_eq_toInt_iff a (BitVec.intMin 32)) (viewS32_eq_toInt_iff b (-1#32))

theorem viewU32_eq_zero_iff (v : Word) : viewU32 v = 0 ↔ low32 v = 0#32 := by
  rw [viewU32_eq, Int.natCast_eq_zero, BitVec.toNat_eq, BitVec.toNat_zero]

theorem divSignedW_eq_ite (a b : Word) : divSignedW a b =
    if low32 b = 0#32 then allOnes
    else if low32 a = 0x80000000#32 ∧ low32 b = 0xFFFFFFFF#32 then 0xFFFFFFFF80000000#64
    else (BitVec.ofInt 32 ((low32 a).toInt.tdiv (low32 b).toInt)).signExtend 64 := by
  simp only [divSignedW, viewS32_eq_zero_iff, viewS32_overflow_iff]
  simp only [viewS32_eq]
  rfl

theorem divUnsignedW_eq_ite (a b : Word) : divUnsignedW a b =
    if low32 b = 0#32 then allOnes else (low32 a / low32 b).signExtend 64 := by
  simp only [divUnsignedW, viewU32_eq_zero_iff, ← ofInt_tdiv_toNat]
  simp only [viewU32_eq]
  rfl

theorem remSignedW_eq_ite (a b : Word) : remSignedW a b =
    if low32 b = 0#32 then (low32 a).signExtend 64
    else if low32 a = 0x80000000#32 ∧ low32 b = 0xFFFFFFFF#32 then 0#64
    else (BitVec.ofInt 32 ((low32 a).toInt.tmod (low32 b).toInt)).signExtend 64 := by
  simp only [remSignedW, viewS32_eq_zero_iff, viewS32_overflow_iff, remInt_eq_tmod, sextN_eq]
  simp only [viewS32_eq]
  rfl

theorem remUnsignedW_eq_ite (a b : Word) : remUnsignedW a b =
    if low32 b = 0#32 then (low32 a).signExtend 64 else (low32 a % low32 b).signExtend 64 := by
  simp only [remUnsignedW, viewU32_eq_zero_iff, ← ofInt_tmod_toNat, remInt_eq_tmod, sextN_eq]
  simp only [viewU32_eq]
  rfl

theorem divSignedW_eq (a b : Word) : divSignedW a b = (quotS (low32 a) (low32 b)).signExtend 64 := by
  rw [divSignedW_eq_ite, quotS_eq, apply_ite (BitVec.signExtend 64), apply_ite (BitVec.signExtend 64)]
  rfl

theorem divUnsignedW_eq (a b : Word) : divUnsignedW a b = (quotU (low32 a) (low32 b)).signExtend 64 := by
  rw [divUnsignedW_eq_ite, quotU, apply_ite (BitVec.signExtend 64)]
  rfl

theorem remSignedW_eq (a b : Word) : remSignedW a b = ((low32 a).srem (low32 b)).signExtend 64 := by
  rw [remSignedW_eq_ite, srem_eq_ite, apply_ite (BitVec.signExtend 64), apply_ite (BitVec.signExtend 64)]
  rfl

theorem remUnsignedW_eq (a b : Word) : remUnsignedW a b = (low32 a % low32 b).signExtend 64 := by
  rw [remUnsignedW_eq_ite, ← apply_ite (BitVec.signExtend 64), ← umod_eq_ite]

/-! ### The rows of the divisions -/

theorem computes_div : Computes .div divSigned := fun _ _ _ _ => rfl

theorem computes_divu : Computes .divu divUnsigned := fun _ _ _ _ => rfl

theorem computes_rem : Computes .rem remSigned := fun _ _ _ _ => rfl

theorem computes_remu : Computes .remu remUnsigned := fun _ _ _ _ => rfl

/-- Settles O28, row by row. -/
theorem divideResults : Obligations.DivideResults := by
  simp only [Obligations.DivideResults, List.forall_mem_cons, ← BitVec.udiv_def, ← BitVec.umod_def]
  exact ⟨registerRow (k := 55) rfl rfl computes_div,
    registerRow (k := 56) rfl rfl (computes_divu.congr divUnsigned_eq),
    registerRow (k := 57) rfl rfl (computes_rem.congr remSigned_eq_ite),
    registerRow (k := 58) rfl rfl (computes_remu.congr remUnsigned_eq_ite), List.forall_mem_nil _⟩

/-- Settles O29, row by row; zero and overflow are told by the low words. -/
theorem divideWordResults : Obligations.DivideWordResults := by
  simp only [Obligations.DivideWordResults, List.forall_mem_cons, ← low32_eq_setWidth]
  exact ⟨registerRow (k := 60) rfl rfl (computes_divw.congr divSignedW_eq_ite),
    registerRow (k := 61) rfl rfl (computes_divuw.congr divUnsignedW_eq_ite),
    registerRow (k := 62) rfl rfl (computes_remw.congr remSignedW_eq_ite),
    registerRow (k := 63) rfl rfl (computes_remuw.congr remUnsignedW_eq_ite), List.forall_mem_nil _⟩

/-! ### The division law (R310) -/

section
variable {w : Nat} {x y : BitVec w}

theorem mul_quotS_add_srem (x y : BitVec w) : y * quotS x y + x.srem y = x := by
  unfold quotS
  split
  next h => rw [h, BitVec.zero_mul, BitVec.srem_zero, BitVec.zero_add]
  next => exact mul_sdiv_add_srem x y

theorem mul_quotU_add_umod (x y : BitVec w) : y * quotU x y + x % y = x := by
  unfold quotU
  split
  next h => rw [h, BitVec.zero_mul, BitVec.umod_zero, BitVec.zero_add]
  next => exact mul_udiv_add_umod x y

theorem quotS_zero : quotS x 0#w = BitVec.allOnes w := if_pos rfl

theorem quotU_zero : quotU x 0#w = BitVec.allOnes w := if_pos rfl

theorem quotS_overflow : quotS (BitVec.intMin w) (-1#w) = BitVec.intMin w := by
  rw [quotS_eq]
  split
  next h =>
    obtain rfl := BitVec.neg_one_eq_zero_iff.1 h
    rfl
  next => exact if_pos ⟨rfl, rfl⟩

/-- Outside zero and overflow the quotient is the integer one, and the remainder is the integer one of it: smaller in
magnitude than the divisor and with the dividend's sign. -/
theorem signedDivision_of_ordinary (hy : y ≠ 0#w) (ho : ¬ (x = BitVec.intMin w ∧ y = -1#w)) :
    (quotS x y).toInt = x.toInt.tdiv y.toInt ∧
      (x.srem y).toInt = x.toInt - y.toInt * (quotS x y).toInt ∧
      (x.srem y).toInt.natAbs < y.toInt.natAbs ∧
      (0 ≤ x.toInt → 0 ≤ (x.srem y).toInt) ∧ (x.toInt ≤ 0 → (x.srem y).toInt ≤ 0) := by
  have hy0 : y.toInt ≠ 0 := fun h => hy (BitVec.eq_of_toInt_eq (h.trans BitVec.toInt_zero.symm))
  have hquot : (quotS x y).toInt = x.toInt.tdiv y.toInt := by
    rw [quotS, if_neg hy, BitVec.toInt_sdiv_of_ne_or_ne _ _ (not_and_or.1 ho)]
  rw [hquot, ← Int.tmod_def, BitVec.toInt_srem]
  refine ⟨rfl, rfl, ?_, Int.tmod_nonneg _, fun h => ?_⟩
  · rw [Int.natAbs_tmod]
    exact Nat.mod_lt _ (Int.natAbs_pos.2 hy0)
  · have hneg := Int.tmod_nonneg y.toInt (Int.neg_nonneg_of_nonpos h)
    rw [Int.neg_tmod] at hneg
    omega

theorem toNat_quotU (hy : y ≠ 0#w) : (quotU x y).toNat = x.toNat / y.toNat := by
  rw [quotU, if_neg hy, BitVec.toNat_udiv]

end

theorem toInt_signExtend64 (b : BitVec 32) : (b.signExtend 64).toInt = b.toInt :=
  BitVec.toInt_signExtend_of_le (by decide)

/-- An instruction that computes a result raises no trap. -/
theorem Computes.completes {c : RegIdx → RegIdx → RegIdx → Instr} {result : Word → Word → Word}
    (hc : Computes c result) (rd rs1 rs2 : RegIdx) (s : State) :
    ∃ v : Word, exec (c rd rs1 rs2) s = .next { s with x := s.x.write rd v, pc := s.pc + 4#64 } :=
  ⟨_, hc rd rs1 rs2 s⟩

/-- Settles O30: the law of each width is that of `quotS`, `quotU` and the library's remainders, the W forms' over the
low words; and each of the thirteen instructions computes a result. -/
theorem divisionLaw : Obligations.DivisionLaw := by
  refine ⟨fun a b => ?_, fun a b => ?_, ?_⟩
  · simp only [divSigned_eq, divUnsigned_eq, remSigned_eq, remUnsigned_eq]
    refine ⟨mul_quotS_add_srem a b, mul_quotU_add_umod a b, ?_, ?_, signedDivision_of_ordinary,
      fun hb => ⟨toNat_quotU hb, BitVec.toNat_umod⟩⟩
    · rintro rfl
      exact ⟨quotS_zero, quotU_zero, BitVec.srem_zero, BitVec.umod_zero⟩
    · rintro rfl rfl
      exact ⟨quotS_overflow, intMin_srem_neg_one⟩
  · simp only [divSignedW_eq, divUnsignedW_eq, remSignedW_eq, remUnsignedW_eq, ← low32_eq_setWidth, low32_add,
      low32_mul, low32_signExtend, toInt_signExtend64]
    generalize low32 a = x, low32 b = y
    refine ⟨mul_quotS_add_srem x y, mul_quotU_add_umod x y, ?_, fun hx hy => ?_,
      fun hy ho => signedDivision_of_ordinary hy fun ⟨hx, hy⟩ => ho ⟨hx ▸ rfl, hy ▸ rfl⟩,
      fun hy => ⟨toNat_quotU hy, BitVec.toNat_umod⟩⟩
    · rintro rfl
      rw [quotS_zero, quotU_zero, BitVec.srem_zero, BitVec.umod_zero]
      exact ⟨rfl, rfl, rfl, rfl⟩
    · obtain rfl : x = BitVec.intMin 32 := BitVec.eq_of_toInt_eq hx
      obtain rfl : y = -1#32 := BitVec.eq_of_toInt_eq hy
      rw [quotS_overflow, intMin_srem_neg_one]
      exact ⟨rfl, rfl⟩
  · simp only [List.forall_mem_cons]
    exact ⟨computes_mul.completes, computes_mulh.completes, computes_mulhsu.completes, computes_mulhu.completes,
      computes_div.completes, computes_divu.completes, computes_rem.completes, computes_remu.completes,
      computes_mulw.completes, computes_divw.completes, computes_divuw.completes, computes_remw.completes,
      computes_remuw.completes, List.forall_mem_nil _⟩

end Sys2Proof.Machine

/-! PROOFS, family 60_exceptions: the trap kinds. -/

namespace Sys2Proof.Machine

/-- Settles O57: the class and the code of each of the 23 kinds, computed. -/
theorem trapCodes : Obligations.TrapCodes := by
  unfold Obligations.TrapCodes
  decide

end Sys2Proof.Machine
